-- ==== Sys2Proof/Word.lean ====
section
/-! DEFINITION. The word types of D2VFC (spec/10_state.md R22, R43 to R46). Nothing here computes a result of a command. -/

namespace Sys2Proof

/-- A byte: one cell of IBUF or OBUF (R16, R43, R44). -/
abbrev Byte := BitVec 8

/-- The 32-bit command word (R85) and the 32-bit registers of R22. -/
abbrev Word := BitVec 32

/-- The 64-bit registers of R22; also the width of the widest host access (R21). -/
abbrev DWord := BitVec 64

/-- An ink bit, one cell of ERAST: 1 is black, 0 is white (R45, R94). -/
abbrev Ink := BitVec 1

end Sys2Proof
end

