-- ==== Sys2Proof/Machine/Format.lean ====
section
/-! DEFINITION. The configuration record: every constant of spec/00_scope.md R8 and the two fixed widths of
R10, one field a row, and its values for D2VFC. MAX_PIXELS and BUF_BYTES of R10 and MAGIC (R9) vary from
instance to instance; they are fields of `Config.Params`. -/

namespace Sys2Proof.Config

/-- The order of the bytes of a multi-byte header field (R8, row "field byte order"). -/
inductive ByteOrder where
  | bigEndian
  | littleEndian
deriving DecidableEq, Repr

/-- The constants R8 says the source fixes, and DIM_BITS and LUMA_BITS of R10, so that a corrected literal
is "a change of one field and not of a definition" (93_implementation_defined.md U1, U3). -/
structure Format where
  headerSize : Nat      -- HEADER_SIZE, in bytes
  magicLen : Nat        -- MAGIC_LEN, in bytes
  defaultWidth : Nat    -- DEFAULT_WIDTH
  defaultHeight : Nat   -- DEFAULT_HEIGHT
  byteOrder : ByteOrder -- field byte order
  crcPoly : DWord       -- CRC_POLY
  crcInit : DWord       -- CRC_INIT
  crcXorOut : DWord     -- CRC_XOROUT
  hckLanes : Nat        -- HCK_LANES
  hckStored : Nat       -- HCK_STORED, in bytes
  dimBits : Nat         -- DIM_BITS
  lumaBits : Nat        -- LUMA_BITS
deriving DecidableEq, Repr

end Sys2Proof.Config

namespace Sys2Proof.Machine

/-- The D2VFC instance of R8's table and of R10's fixed widths. UNVERIFIED (log 5): "the document's numeric
literals are unaudited against the repository". -/
abbrev format : Config.Format where
  headerSize := 32
  magicLen := 6
  defaultWidth := 1280
  defaultHeight := 720
  byteOrder := .bigEndian
  crcPoly := 0x42F0E1EBA9EA3693#64
  crcInit := 0xFFFFFFFFFFFFFFFF#64
  crcXorOut := 0xFFFFFFFFFFFFFFFF#64
  hckLanes := 4
  hckStored := 2
  dimBits := 16
  lumaBits := 8

end Sys2Proof.Machine
end

