-- ==== Sys2Proof/Config.lean ====
section
/-! DEFINITION. What varies from one D2VFC instance to another, and the free values: the record of the open
parameters (spec/00_scope.md R9, R10), and the constants with no body that stand for what the spec leaves
open (R9, R271). The constants that are the same for every instance are in Machine/Format.lean. -/

namespace Sys2Proof.Config

/-- MAGIC_LEN of the configuration record (R8). -/
abbrev magicLen : Nat := Machine.format.magicLen

/-- DIM_BITS of the configuration record (R10): the width of WIDTH, HEIGHT, RWIDTH, RHEIGHT, J_WIDTH, J_HEIGHT. -/
abbrev dimBits : Nat := Machine.format.dimBits

/-- LUMA_BITS of the configuration record (R10): the width of one DRAST cell. -/
abbrev lumaBits : Nat := Machine.format.lumaBits

/-- The parameters of one instance: MAGIC (R9), MAX_PIXELS and BUF_BYTES (R10). They "do not change during
the life of an instance and no command or reset writes them" (R48). R10 gives BUF_BYTES the value
`MAX_PIXELS div 8`, and the record carries that equation, so no other value can be built. -/
structure Params where
  magic : Vector Byte magicLen
  maxPixels : Nat
  bufBytes : Nat := maxPixels / 8
  bufBytes_eq : bufBytes = maxPixels / 8 := by rfl
deriving DecidableEq, Repr

/-- FREE VALUE (log 3): the value of MAGIC, which is not in the source (R9, U2). -/
opaque freeMagic : Vector Byte magicLen

/-- FREE VALUE (log 4): IBUF cell `a` after the reset numbered `draw`, until first written (R271). -/
opaque freeIbuf : (draw a : Nat) → Byte

/-- FREE VALUE (log 4): OBUF cell `a` after the reset numbered `draw`, until first written (R271). -/
opaque freeObuf : (draw a : Nat) → Byte

/-- FREE VALUE (log 4): ERAST cell `a` after the reset numbered `draw`, until first written (R271). -/
opaque freeErast : (draw a : Nat) → Ink

/-- FREE VALUE (log 4): DRAST cell `a` after the reset numbered `draw`, until first written (R271). -/
opaque freeDrast : (draw a : Nat) → BitVec lumaBits

end Sys2Proof.Config

namespace Sys2Proof

/-- A luminance sample, one cell of DRAST: 0 is black, the greatest value white (R46). -/
abbrev Sample := BitVec Config.lumaBits

end Sys2Proof
end

