-- ==== Sys2Proof/Syntax.lean ====
section
/-! DEFINITION. The syntax of what happens at the block's interface: the seven commands of
spec/opcode_table.json (spec/30_encoding.md R87), the registers (spec/10_state.md R22), the four
host-visible memories (R43 to R46) and one host access (R21, R61, R97). -/

namespace Sys2Proof

/-- The commands, one constructor per row of spec/opcode_table.json. A command has no operand field
(R85), so no constructor has an argument. -/
inductive Instr where
  | hck   -- header checksum of IBUF[0:LEN] (R118)
  | crc   -- payload checksum of IBUF[0:LEN] (R120)
  | encf  -- encode one frame from explicit operands (R138)
  | encb  -- begin an encode job (R142)
  | encn  -- encode the next chunk of the job (R145)
  | decf  -- decode one frame (R180)
  | clr   -- clear results, job and status (R200)
deriving DecidableEq, Repr

/-- The 25 registers of R22, in the order of their numbers. -/
inductive Reg where
  | cmd | status | ctrl | width | height | rwidth | rheight | len | seq | total
  | maxpay | ck4 | crc | dSeq | dTotal | dChunk | dSkip
  | jSeq | jTotal | jRemain | jNext | jWidth | jHeight | einfoA | einfoB
deriving DecidableEq, Repr

/-- The host-visible memories (R60). -/
inductive Space where
  | ibuf | obuf | erast | drast
deriving DecidableEq, Repr

/-- One host access (R21, R61, R97): it moves exactly one register or one cell. The reset input
(R270) is listed with them, as the host's other act on the block. Values are carried on 64 bits, the
width of the widest register; a value wider than its target is no access of the spec (WellFormed). -/
inductive Access where
  | writeReg (n : BitVec 8) (v : DWord)
  | readReg (n : BitVec 8)
  | writeCell (sp : Space) (a : Nat) (v : DWord)
  | readCell (sp : Space) (a : Nat)
  | reset
deriving DecidableEq, Repr

end Sys2Proof
end

