-- ==== Sys2Proof/Machine/Params.lean ====
section
/-! DEFINITION. The open parameters at their defaults (spec/00_scope.md R9, R10), the header's field offsets
(spec/30_encoding.md R89), the sizes and widths of memories and registers (R10, spec/10_state.md R22),
and the numbers of the registers. -/

namespace Sys2Proof.Machine

/-- MAX_PIXELS "OPEN, default 921600 (= 1280 × 720)" (R10). -/
def defaultMaxPixels : Nat := 921600

/-- The parameters of the instance that reset shows: MAGIC free, MAX_PIXELS at its default (log 3). -/
def defaultParams : Config.Params where
  magic := Config.freeMagic
  maxPixels := defaultMaxPixels

/-! Offsets of the header fields (R89), each the end of the field before it. -/

/-- Offset of totalSize: after the magic marker. -/
def offTotal : Nat := Config.magicLen
/-- Offset of sequence: after the 8 bytes of totalSize. -/
def offSeq : Nat := offTotal + 8
/-- Offset of chunkSize: after the 4 bytes of sequence. -/
def offChunk : Nat := offSeq + 4
/-- Offset of payloadChecksum: after the 4 bytes of chunkSize. -/
def offPay : Nat := offChunk + 4
/-- Offset of headerChecksum: after the 8 bytes of payloadChecksum. -/
def offHck : Nat := offPay + 8

/-- BUF_BYTES of the instance (R10): the number of bytes of IBUF, of OBUF and of FBUF. -/
def bufBytes (c : Config.Params) : Nat := c.bufBytes

end Sys2Proof.Machine

namespace Sys2Proof

/-- The number of cells of a memory (R43 to R46). -/
def Space.size (c : Config.Params) : Space → Nat
  | .ibuf => Machine.bufBytes c
  | .obuf => Machine.bufBytes c
  | .erast => c.maxPixels
  | .drast => c.maxPixels

/-- The width of a cell (R60). -/
def Space.bits : Space → Nat
  | .ibuf => 8
  | .obuf => 8
  | .erast => 1
  | .drast => Config.lumaBits

/-- The register numbers of R22; 0x19 to 0xFF name no register (R39). -/
def Reg.ofNum (n : BitVec 8) : Option Reg :=
  match n.toNat with
  | 0x00 => some .cmd
  | 0x01 => some .status
  | 0x02 => some .ctrl
  | 0x03 => some .width
  | 0x04 => some .height
  | 0x05 => some .rwidth
  | 0x06 => some .rheight
  | 0x07 => some .len
  | 0x08 => some .seq
  | 0x09 => some .total
  | 0x0A => some .maxpay
  | 0x0B => some .ck4
  | 0x0C => some .crc
  | 0x0D => some .dSeq
  | 0x0E => some .dTotal
  | 0x0F => some .dChunk
  | 0x10 => some .dSkip
  | 0x11 => some .jSeq
  | 0x12 => some .jTotal
  | 0x13 => some .jRemain
  | 0x14 => some .jNext
  | 0x15 => some .jWidth
  | 0x16 => some .jHeight
  | 0x17 => some .einfoA
  | 0x18 => some .einfoB
  | _ => none

/-- The number of a register (R22). -/
def Reg.num : Reg → BitVec 8
  | .cmd => 0x00#8
  | .status => 0x01#8
  | .ctrl => 0x02#8
  | .width => 0x03#8
  | .height => 0x04#8
  | .rwidth => 0x05#8
  | .rheight => 0x06#8
  | .len => 0x07#8
  | .seq => 0x08#8
  | .total => 0x09#8
  | .maxpay => 0x0A#8
  | .ck4 => 0x0B#8
  | .crc => 0x0C#8
  | .dSeq => 0x0D#8
  | .dTotal => 0x0E#8
  | .dChunk => 0x0F#8
  | .dSkip => 0x10#8
  | .jSeq => 0x11#8
  | .jTotal => 0x12#8
  | .jRemain => 0x13#8
  | .jNext => 0x14#8
  | .jWidth => 0x15#8
  | .jHeight => 0x16#8
  | .einfoA => 0x17#8
  | .einfoB => 0x18#8

/-- The width of a register in bits (R22). -/
def Reg.bits : Reg → Nat
  | .cmd | .status | .ctrl | .len | .seq | .maxpay | .ck4 | .dSeq | .dChunk | .dSkip | .jSeq
  | .jNext => 32
  | .width | .height | .rwidth | .rheight | .jWidth | .jHeight => Config.dimBits
  | .total | .crc | .dTotal | .jTotal | .jRemain | .einfoA | .einfoB => 64

/-- The registers whose access column in R22 is RW: the host writes them, no command does. -/
def Reg.hostWritable : Reg → Bool
  | .ctrl | .width | .height | .rwidth | .rheight | .len | .seq | .total => true
  | .cmd | .status | .maxpay | .ck4 | .crc | .dSeq | .dTotal | .dChunk | .dSkip
  | .jSeq | .jTotal | .jRemain | .jNext | .jWidth | .jHeight | .einfoA | .einfoB => false

end Sys2Proof
end

