-- ==== Sys2Proof/WellFormed.lean ====
section
/-! DEFINITION. Which commands, parameters and host accesses are well formed. A command has no
operand field, so each is (spec/30_encoding.md R85). The checks are on the instance's parameters
(spec/00_scope.md R10) and on host accesses (spec/10_state.md R21, spec/20_memory.md R61). -/

namespace Sys2Proof

/-- Every command is well formed: "no register specifiers, no immediates, no modes" (R85). -/
def Instr.wf : Instr → Bool
  | .hck | .crc | .encf | .encb | .encn | .decf | .clr => true

/-- R10: "`MAX_PIXELS >= 264` so that at least one valid geometry exists, `MAX_PIXELS < 2^32`". -/
def Config.Params.wf (c : Config.Params) : Bool :=
  decide (264 ≤ c.maxPixels) && decide (c.maxPixels < 2 ^ 32)

/-- Why a host access cannot be expressed (93_implementation_defined.md U8). -/
inductive Malformed where
  | valueTooWide  -- "a write of a value wider than the register cannot be expressed" (R21)
  | noSuchCell    -- "an index at or beyond the size of its space names no cell" (R61)
deriving DecidableEq, Repr

/-- What is wrong with a host access, if anything. Register numbers that name no register are
well formed: they read 0 and ignore writes (R39). -/
def Access.malformed (c : Config.Params) : Access → Option Malformed
  | .writeReg n v =>
    match Reg.ofNum n with
    | some r => if v.toNat < 2 ^ r.bits then none else some .valueTooWide
    | none => none
  | .readReg _ => none
  | .writeCell sp a v =>
    if a < sp.size c then
      if v.toNat < 2 ^ sp.bits then none else some .valueTooWide
    else some .noSuchCell
  | .readCell sp a => if a < sp.size c then none else some .noSuchCell
  | .reset => none

/-- A host access the spec can express. -/
def Access.wf (c : Config.Params) (x : Access) : Bool := (x.malformed c).isNone

end Sys2Proof
end

