-- ==== Sys2Proof/Decode.lean ====
section
/-! DEFINITION. Decoding a command word, total and rejecting by name (spec/30_encoding.md R86, R88),
and after it the encoder, written from the opcode map (R87). -/

namespace Sys2Proof

/-- Why a command word is reserved (R88). -/
inductive DecodeError where
  | zeroFieldNotZero (c : Word)   -- "any word with c[31:8] != 0 is reserved whatever its OPCODE"
  | reservedOpcode (c : Word)     -- "OPCODE 0x00 and OPCODE 0x08 to 0xFF are reserved"
deriving DecidableEq, Repr

/-- The field OPCODE, bits 7:0 (R85). -/
def opcodeField (c : Word) : BitVec 8 := c.extractLsb' 0 8

/-- The field ZERO, bits 31:8 (R85). -/
def zeroField (c : Word) : BitVec 24 := c.extractLsb' 8 24

/-- Decode a CMD write (R86): the ZERO field first, then the opcode map of R87. -/
def decode (c : Word) : Except DecodeError Instr :=
  if zeroField c ≠ 0#24 then .error (.zeroFieldNotZero c)
  else match (opcodeField c).toNat with
    | 0x01 => .ok .hck
    | 0x02 => .ok .crc
    | 0x03 => .ok .encf
    | 0x04 => .ok .encb
    | 0x05 => .ok .encn
    | 0x06 => .ok .decf
    | 0x07 => .ok .clr
    | _ => .error (.reservedOpcode c)

/-- The OPCODE of a command (R87). -/
def opcodeOf : Instr → BitVec 8
  | .hck => 0x01#8
  | .crc => 0x02#8
  | .encf => 0x03#8
  | .encb => 0x04#8
  | .encn => 0x05#8
  | .decf => 0x06#8
  | .clr => 0x07#8

/-- The command word of a command: OPCODE in bits 7:0, zero above (R85). -/
def encode (i : Instr) : Word := (opcodeOf i).setWidth 32

/-- The command the decoder reads from a word of `nbits` bits whose value is `w`, every bit above
`nbits` being 0. A command word is one 32-bit register write and has no byte order (R21, R85), so
the word is the value moved; a value of more than 32 bits is no command word (log 9). -/
def decodeTableWord (nbits w : Nat) : Option Instr :=
  let v := w % 2 ^ nbits
  if v < 2 ^ 32 then (decode (BitVec.ofNat 32 v)).toOption else none

end Sys2Proof
end

