-- ==== Sys2Proof/Machine/State.lean ====
section
/-! DEFINITION. The whole state of one D2VFC instance (spec/10_state.md R20): the registers of R22 that
store a value, the four memories, the hidden state of R47, and four fields of the model's own. Plain
data. Also the reasons a step can stop, and the state after reset (R49, R270). -/

namespace Sys2Proof.Machine

/-- The contents of a memory of `w`-bit cells: (cell index, value) pairs with strictly rising indexes.
A cell that is not listed has not been written since reset; it reads as a free value (R271, log 4). -/
abbrev Memory (w : Nat) := List (Nat × BitVec w)

/-- The hidden state of R47: "live only inside a command and not observable by the host". `p` is the
bit position of R41, `skip` the counter of R167. What a command leaves here is never read (log 6). -/
structure Hidden where
  fbuf : List Byte
  acc : Byte
  nb : Nat
  p : Nat
  skip : Nat
  crcReg : DWord
  lanes : List Byte
  hdr : List Byte
deriving DecidableEq, Repr

/-- The hidden state at reset. DESIGN CHOICE (log 6): "hidden state needs no reset value" (R272). -/
def Hidden.idle : Hidden where
  fbuf := []
  acc := 0#8
  nb := 0
  p := 0
  skip := 0
  crcReg := 0#64
  lanes := []
  hdr := []

/-- The state of one instance. Registers under their names of R22 (CMD stores nothing, MAXPAY and
J_NEXT are derived), then the memories (R43 to R46), the hidden state (R47), and the model's own
fields: the parameters, which no step changes (R48, log 3); the number of the current draw of free
memory contents (log 4); the host's accesses still to come, oldest first (log 1); and the value the
last host read returned (log 2). -/
structure State where
  status : Word
  ctrl : Word
  width : BitVec Config.dimBits
  height : BitVec Config.dimBits
  rwidth : BitVec Config.dimBits
  rheight : BitVec Config.dimBits
  len : Word
  seq : Word
  total : DWord
  ck4 : Word
  crc : DWord
  dSeq : Word
  dTotal : DWord
  dChunk : Word
  dSkip : Word
  jSeq : Word
  jTotal : DWord
  jRemain : DWord
  jWidth : BitVec Config.dimBits
  jHeight : BitVec Config.dimBits
  einfoA : DWord
  einfoB : DWord
  ibuf : Memory 8
  obuf : Memory 8
  erast : Memory 1
  drast : Memory Config.lumaBits
  hidden : Hidden
  cfg : Config.Params
  draw : Nat
  script : List Access
  rdata : DWord
deriving DecidableEq, Repr

/-- Why the machine stops with a fault. It has no constructor: no command faults, since every command ends
in success or in an error that is a next state (R14), and the accesses the spec rules out are refused. -/
inductive Fault where
deriving DecidableEq, Repr

/-- Why the model has no move. No command raises one; only a host access can. Each is the treatment `refuse`
of 93_implementation_defined.md: "the model has no such move". -/
inductive Refusal where
  /-- Raised by an arm of `exec` that has no meaning yet; there is none. Safe. -/
  | notModelled (mnemonic : String)
  /-- Raised by a host access to a cell index at or beyond the size of its memory: "such an access cannot be
  expressed in the model and is refused" (R61, U8). Safe. -/
  | noSuchCell
  /-- Raised by a host write of a value wider than the register or cell (R21, U8). Safe. -/
  | valueTooWide
  /-- Raised by a host access other than a read of STATUS while STATUS.BUSY = 1 (R280, U7): "the
  forbidden accesses have no move". Safe in the model, and it carries the spec's assumption about a
  real host (log 7). -/
  | busyAccess
deriving DecidableEq, Repr

/-- The state after hardware reset (R22, R49, R270): WIDTH = 1280, HEIGHT = 720, every other stored
register 0, every memory cell free, nothing pending. -/
def State.reset : State where
  status := 0#32
  ctrl := 0#32
  width := BitVec.ofNat Config.dimBits format.defaultWidth
  height := BitVec.ofNat Config.dimBits format.defaultHeight
  rwidth := 0#Config.dimBits
  rheight := 0#Config.dimBits
  len := 0#32
  seq := 0#32
  total := 0#64
  ck4 := 0#32
  crc := 0#64
  dSeq := 0#32
  dTotal := 0#64
  dChunk := 0#32
  dSkip := 0#32
  jSeq := 0#32
  jTotal := 0#64
  jRemain := 0#64
  jWidth := 0#Config.dimBits
  jHeight := 0#Config.dimBits
  einfoA := 0#64
  einfoB := 0#64
  ibuf := []
  obuf := []
  erast := []
  drast := []
  hidden := Hidden.idle
  cfg := defaultParams
  draw := 0
  script := []
  rdata := 0#64

end Sys2Proof.Machine
end

