-- ==== Sys2Proof/Machine/Bits.lean ====
section
/-! DEFINITION. Bit and byte order (spec/00_scope.md R16, R17, spec/20_memory.md R65, R66) and the
search `find` (R18). -/

namespace Sys2Proof.Machine

/-- `be_N` of R17 on the low `8 * n` bits of `v`: the most significant byte first. -/
def be (n : Nat) {w : Nat} (v : BitVec w) : List Byte :=
  (List.range n).map fun i => v.extractLsb' (8 * (n - 1 - i)) 8

/-- `from_be` of R17: the sum over i of `s[i] * 256^(len(s)-1-i)`. -/
def fromBe (s : List Byte) : Nat := s.foldl (fun a b => a * 256 + b.toNat) 0

/-- The `n` bytes of a header field that holds `v`, in the byte order of the configuration record (R8, R66):
`be_n(v)` for D2VFC. -/
def fieldBytes (n : Nat) {w : Nat} (v : BitVec w) : List Byte :=
  match format.byteOrder with
  | .bigEndian => be n v
  | .littleEndian => (be n v).reverse

/-- The value of a header field, in the byte order of the configuration record (R8, R66): `from_be` for D2VFC. -/
def fieldValue (s : List Byte) : Nat :=
  match format.byteOrder with
  | .bigEndian => fromBe s
  | .littleEndian => fromBe s.reverse

/-- `s[a : a+n]` of R16. -/
def slice (s : List Byte) (a n : Nat) : List Byte := (s.drop a).take n

/-- The bits of a byte "MSB first": b[7], b[6], ..., b[0] (R16). -/
def byteBits (b : Byte) : List (BitVec 1) :=
  [7, 6, 5, 4, 3, 2, 1, 0].map fun k => BitVec.ofBool (b.getLsbD k)

/-- The bit stream of a byte sequence (R16). -/
def bitStream (s : List Byte) : List (BitVec 1) := s.flatMap byteBits

/-- `bit(s, p) = s[p div 8][7 - (p mod 8)]` of R16, the clear form of `bitStream`. -/
def bitAt (s : List Byte) (p : Nat) : BitVec 1 :=
  BitVec.ofBool ((s.getD (p / 8) 0#8).getLsbD (7 - p % 8))

/-- Shift one bit into the low end of a byte: `acc * 2 + bit` (R166). -/
def pushBit (acc : Byte) (b : BitVec 1) : Byte := acc * 2#8 + b.setWidth 8

/-- `find(s, m)` of R18, with `s` last: the smallest offset at which `m` occurs in `s`. -/
def find (m : List Byte) : List Byte → Option Nat
  | [] => if m.isPrefixOf [] then some 0 else none
  | b :: t => if m.isPrefixOf (b :: t) then some 0 else (find m t).map (· + 1)

end Sys2Proof.Machine
end

