-- ==== Sys2Proof/Machine/Flags.lean ====
section
/-! DEFINITION. The fields of STATUS and CTRL (spec/10_state.md R24, R25) and the error codes
(spec/60_exceptions.md R241). There are no arithmetic condition codes (R42). -/

namespace Sys2Proof.Machine

/-- The errors a command can end in (R241), and OK. The reserved codes 6, 7, 13, 14, 15 have no
constructor: "no command produces them" (R242). -/
inductive ErrCode where
  | ok
  | dimensionMismatch
  | magicNotFound
  | headerChecksumMismatch
  | invalidChunkSize
  | payloadChecksumMismatch
  | illegalCommand
  | invalidGeometry
  | lengthOutOfRange
  | noActiveJob
  | sequenceOverflow
deriving DecidableEq, Repr

/-- The numbers of R241. -/
def errNumber : ErrCode → BitVec 4
  | .ok => 0#4
  | .dimensionMismatch => 1#4
  | .magicNotFound => 2#4
  | .headerChecksumMismatch => 3#4
  | .invalidChunkSize => 4#4
  | .payloadChecksumMismatch => 5#4
  | .illegalCommand => 8#4
  | .invalidGeometry => 9#4
  | .lengthOutOfRange => 10#4
  | .noActiveJob => 11#4
  | .sequenceOverflow => 12#4

/-- The one-bit field at bit `k` of a 32-bit register. -/
def bitField (k : Nat) (w : Word) : Bool := w.getLsbD k

/-- The register with the one-bit field at bit `k` set to `b`, every other bit unchanged. -/
def setBitField (k : Nat) (b : Bool) (w : Word) : Word :=
  if b then w ||| (1#32 <<< k) else w &&& ~~~(1#32 <<< k)

/-! The fields of STATUS (R24). -/

/-- STATUS.ERR, bits 3:0. -/
def statusErr (w : Word) : BitVec 4 := w.extractLsb' 0 4
/-- STATUS.DVALID, bit 4. -/
def statusDvalid (w : Word) : Bool := bitField 4 w
/-- STATUS.JOB, bit 5. -/
def statusJob (w : Word) : Bool := bitField 5 w
/-- STATUS.LAST, bit 6. -/
def statusLast (w : Word) : Bool := bitField 6 w
/-- STATUS.BUSY, bit 7. -/
def statusBusy (w : Word) : Bool := bitField 7 w
/-- STATUS.SHORT, bit 8. -/
def statusShort (w : Word) : Bool := bitField 8 w

/-- `STATUS.ERR <- e`, the other bits unchanged. -/
def setErr (e : ErrCode) (w : Word) : Word := (w &&& 0xFFFFFFF0#32) ||| (errNumber e).setWidth 32
/-- `STATUS.DVALID <- b`. -/
def setDvalid (b : Bool) (w : Word) : Word := setBitField 4 b w
/-- `STATUS.JOB <- b`. -/
def setJob (b : Bool) (w : Word) : Word := setBitField 5 b w
/-- `STATUS.LAST <- b`. -/
def setLast (b : Bool) (w : Word) : Word := setBitField 6 b w
/-- `STATUS.BUSY <- b`. -/
def setBusy (b : Bool) (w : Word) : Word := setBitField 7 b w
/-- `STATUS.SHORT <- b`. -/
def setShort (b : Bool) (w : Word) : Word := setBitField 8 b w

/-- CTRL.STRICT, bit 0 (R25). -/
def ctrlStrict (w : Word) : Bool := bitField 0 w

/-- What a host write of CTRL stores: "bits 31:1 reserved, written values ignored, read as 0" (R25). -/
def ctrlStored (v : Word) : Word := v &&& 1#32

end Sys2Proof.Machine
end

