-- ==== Sys2Proof/Machine/Ops.lean ====
section
/-! DEFINITION. The named operations over memory (spec/20_memory.md R60 to R63) and the shared parts
of every command: the prologue (spec/43_system.md R201) and the recording of an error, which is this
block's taking of an exception (spec/60_exceptions.md R247). There is nothing to return from (R249). -/

namespace Sys2Proof.Machine

/-- The value of a listed cell. -/
def Memory.get? {w : Nat} (m : Memory w) (a : Nat) : Option (BitVec w) :=
  match m with
  | [] => none
  | (k, v) :: t => if k = a then some v else Memory.get? t a

/-- Read one cell; `free` gives what a cell nothing has written since reset reads as (R271). -/
def Memory.read {w : Nat} (free : Nat → BitVec w) (m : Memory w) (a : Nat) : BitVec w :=
  (Memory.get? m a).getD (free a)

/-- Write one cell, keeping the indexes strictly rising. -/
def Memory.write {w : Nat} (m : Memory w) (a : Nat) (v : BitVec w) : Memory w :=
  match m with
  | [] => [(a, v)]
  | (k, x) :: t =>
    if a < k then (a, v) :: (k, x) :: t
    else if a = k then (a, v) :: t
    else (k, x) :: Memory.write t a v

/-- The cells `a, a+1, ...` holding the values of a sequence. -/
def Memory.cellsFrom {w : Nat} (a : Nat) (vs : List (BitVec w)) : Memory w :=
  match vs with
  | [] => []
  | v :: t => (a, v) :: Memory.cellsFrom (a + 1) t

/-- `SPACE[0 : n] <- s` of R18 with `n = len(s)`: the engine's writes all start at cell 0 (R63). -/
def Memory.writePrefix {w : Nat} (m : Memory w) (vs : List (BitVec w)) : Memory w :=
  Memory.cellsFrom 0 vs ++ m.filter fun c => decide (vs.length ≤ c.1)

/-- The indexes are strictly rising, the first at least `lo`, all below `size`. -/
def Memory.wfFrom {w : Nat} (size lo : Nat) (m : Memory w) : Bool :=
  match m with
  | [] => true
  | (k, _) :: t => decide (lo ≤ k) && decide (k < size) && Memory.wfFrom size (k + 1) t

/-- The canonical form of a memory of `size` cells: indexes strictly rising and below `size`. An
unlisted cell has no value of its own, so no entry can equal it and none is ever dropped (log 4). -/
def Memory.wf {w : Nat} (size : Nat) (m : Memory w) : Bool := Memory.wfFrom size 0 m

/-! The four memories of a state, one cell at a time (R61). -/

/-- Read one cell of IBUF. -/
def readIbuf (s : State) (a : Nat) : Byte := Memory.read (Config.freeIbuf s.draw) s.ibuf a
/-- Read one cell of OBUF. -/
def readObuf (s : State) (a : Nat) : Byte := Memory.read (Config.freeObuf s.draw) s.obuf a
/-- Read one cell of ERAST. -/
def readErast (s : State) (p : Nat) : Ink := Memory.read (Config.freeErast s.draw) s.erast p
/-- Read one cell of DRAST. -/
def readDrast (s : State) (p : Nat) : Sample := Memory.read (Config.freeDrast s.draw) s.drast p

/-- `IBUF[0 : n]` (R63). -/
def ibufPrefix (s : State) (n : Nat) : List Byte := (List.range n).map (readIbuf s)
/-- `OBUF[0 : n]`, as the host reads it out. -/
def obufPrefix (s : State) (n : Nat) : List Byte := (List.range n).map (readObuf s)
/-- `ERAST[0 : n]`, as the host reads it out. -/
def erastPrefix (s : State) (n : Nat) : List Ink := (List.range n).map (readErast s)
/-- `DRAST[0 : n]`. -/
def drastPrefix (s : State) (n : Nat) : List Sample := (List.range n).map (readDrast s)

/-- The prologue (R201), "executed first by every command except CLR (including an illegal one)". -/
def prologue (s : State) : State :=
  { s with status := setShort false (setErr .ok s.status), einfoA := 0#64, einfoB := 0#64 }

/-- `raise E(a, b)` (R201, R247): `STATUS.ERR <- E`, `EINFO_A <- a`, `EINFO_B <- b`. "Nothing is saved,
no mode changes, control goes nowhere". The recorded values are "64 bits, narrower values
zero-extended" (R246). -/
def raise (e : ErrCode) (a b : Nat) (s : State) : State :=
  { s with
    status := setErr e s.status
    einfoA := BitVec.ofNat 64 a
    einfoB := BitVec.ofNat 64 b }

end Sys2Proof.Machine
end

