-- ==== Sys2Proof/Machine/Operands.lean ====
section
/-! DEFINITION. The operands of the commands: the quantities of a geometry (spec/00_scope.md R11), the
derived registers (spec/10_state.md R31, R37), the check shared by ENCF, ENCB and DECF
(spec/43_system.md R203), and the registers and cells as the host reads and writes them (R21, R22,
R39, R61). -/

namespace Sys2Proof.Machine

/-- `capBytes(w, h) = (w * h) div 8` (R11). -/
def capBytes (w h : Nat) : Nat := w * h / 8

/-- `geomValid(w, h)` of R11: the raster fits the memories and its capacity exceeds the header. -/
def geomValid (c : Config.Params) (w h : Nat) : Bool :=
  decide (w * h ≤ c.maxPixels) && decide (format.headerSize < capBytes w h)

/-- `maxPayload(w, h)` of R11; meant only for a valid geometry. -/
def maxPayload (w h : Nat) : Nat := capBytes w h - format.headerSize

/-- Two 16-bit dimensions as EINFO records them: `w * 2^16 + h` (R246). -/
def packDims (w h : Nat) : Nat := w * 2 ^ 16 + h

/-- MAXPAY as a read gives it (R31). -/
def maxpayValue (s : State) : Nat :=
  if geomValid s.cfg s.width.toNat s.height.toNat then maxPayload s.width.toNat s.height.toNat
  else 0

/-- The length of a job's next chunk: `min(maxPayload(J_WIDTH, J_HEIGHT), J_REMAIN)` (R37, R145). -/
def nextChunkLen (s : State) : Nat :=
  min (maxPayload s.jWidth.toNat s.jHeight.toNat) s.jRemain.toNat

/-- J_NEXT as a read gives it (R37). -/
def jnextValue (s : State) : Nat := if statusJob s.status then nextChunkLen s else 0

/-- The geometry check (R203): run `k` on WIDTH and HEIGHT if they are valid, else InvalidGeometry. -/
def withGeometry (s : State) (k : Nat → Nat → State) : State :=
  if geomValid s.cfg s.width.toNat s.height.toNat then k s.width.toNat s.height.toNat
  else
    raise .invalidGeometry (packDims s.width.toNat s.height.toNat)
      (capBytes s.width.toNat s.height.toNat) s

/-- The value a host read of a register moves, zero-extended to 64 bits (R21, R22). "A read of the
write-only register CMD returns 0". -/
def readRegister (r : Reg) (s : State) : DWord :=
  match r with
  | .cmd => 0#64
  | .status => s.status.setWidth 64
  | .ctrl => s.ctrl.setWidth 64
  | .width => s.width.setWidth 64
  | .height => s.height.setWidth 64
  | .rwidth => s.rwidth.setWidth 64
  | .rheight => s.rheight.setWidth 64
  | .len => s.len.setWidth 64
  | .seq => s.seq.setWidth 64
  | .total => s.total
  | .maxpay => BitVec.ofNat 64 (maxpayValue s)
  | .ck4 => s.ck4.setWidth 64
  | .crc => s.crc
  | .dSeq => s.dSeq.setWidth 64
  | .dTotal => s.dTotal
  | .dChunk => s.dChunk.setWidth 64
  | .dSkip => s.dSkip.setWidth 64
  | .jSeq => s.jSeq.setWidth 64
  | .jTotal => s.jTotal
  | .jRemain => s.jRemain
  | .jNext => BitVec.ofNat 64 (jnextValue s)
  | .jWidth => s.jWidth.setWidth 64
  | .jHeight => s.jHeight.setWidth 64
  | .einfoA => s.einfoA
  | .einfoB => s.einfoB

/-- A host read by register number: a reserved number reads 0 (R39). -/
def readRegNum (n : BitVec 8) (s : State) : DWord :=
  match Reg.ofNum n with
  | some r => readRegister r s
  | none => 0#64

/-- A host write of a register other than CMD (R21, R22, R25): "a write to a read-only register is
ignored". A write of CMD starts a command and does not come here. -/
def writeRegister (r : Reg) (v : DWord) (s : State) : State :=
  match r with
  | .ctrl => { s with ctrl := ctrlStored (v.setWidth 32) }
  | .width => { s with width := v.setWidth Config.dimBits }
  | .height => { s with height := v.setWidth Config.dimBits }
  | .rwidth => { s with rwidth := v.setWidth Config.dimBits }
  | .rheight => { s with rheight := v.setWidth Config.dimBits }
  | .len => { s with len := v.setWidth 32 }
  | .seq => { s with seq := v.setWidth 32 }
  | .total => { s with total := v }
  | .cmd | .status | .maxpay | .ck4 | .crc | .dSeq | .dTotal | .dChunk | .dSkip
  | .jSeq | .jTotal | .jRemain | .jNext | .jWidth | .jHeight | .einfoA | .einfoB => s

/-- The value a host read of a cell moves (R61). -/
def readCell (sp : Space) (a : Nat) (s : State) : DWord :=
  match sp with
  | .ibuf => (readIbuf s a).setWidth 64
  | .obuf => (readObuf s a).setWidth 64
  | .erast => (readErast s a).setWidth 64
  | .drast => (readDrast s a).setWidth 64

/-- A host write of one cell (R43 to R46: the host may write all four memories). -/
def writeCell (sp : Space) (a : Nat) (v : DWord) (s : State) : State :=
  match sp with
  | .ibuf => { s with ibuf := Memory.write s.ibuf a (v.setWidth 8) }
  | .obuf => { s with obuf := Memory.write s.obuf a (v.setWidth 8) }
  | .erast => { s with erast := Memory.write s.erast a (v.setWidth 1) }
  | .drast => { s with drast := Memory.write s.drast a (v.setWidth Config.lumaBits) }

end Sys2Proof.Machine
end

