-- ==== Sys2Proof/Machine/Checksum.lean ====
section
/-! DEFINITION. The checksum primitives and the commands HCK and CRC (spec/40_checksum.md). -/

namespace Sys2Proof.Machine

/-- The loop of R110 from index `i` on: `sum[i mod 4] <- sum[i mod 4] xor s[i]`. -/
def foldLanes (i : Nat) (sum : List Byte) (s : List Byte) : List Byte :=
  match s with
  | [] => sum
  | b :: t => foldLanes (i + 1) (sum.modify (i % format.hckLanes) (· ^^^ b)) t

/-- `HeaderChecksum(s)` of R110: the four lanes, each starting at 0. -/
def headerChecksum (s : List Byte) : List Byte :=
  foldLanes 0 (List.replicate format.hckLanes 0#8) s

/-- Lane `k` of a header checksum. -/
def lane (sum : List Byte) (k : Nat) : Byte := sum.getD k 0#8

/-- The bytes a header stores and compares: "only the first 2 resulting bytes" (R112). -/
def storedChecksum (s : List Byte) : List Byte := (headerChecksum s).take format.hckStored

/-- A pair of checksum bytes as EINFO records it: first byte times 256 plus second (R246). -/
def pairValue (s : List Byte) : Nat := fromBe (s.take format.hckStored)

/-- One bit of R114: fold the data bit into bit 63, shift left by one, reduce. -/
def crcBit (r : DWord) (d : Bool) : DWord :=
  if r.getLsbD 63 ^^ d then (r <<< 1) ^^^ format.crcPoly else r <<< 1

/-- One byte of R114: its bits 7 down to 0. -/
def crcByte (r : DWord) (b : Byte) : DWord :=
  [7, 6, 5, 4, 3, 2, 1, 0].foldl (fun r k => crcBit r (b.getLsbD k)) r

/-- The register of R114 after all bytes, before the final XOR. -/
def crcRegister (s : List Byte) : DWord := s.foldl crcByte format.crcInit

/-- `PayloadChecksum(s)` of R114. -/
def payloadChecksum (s : List Byte) : DWord := crcRegister s ^^^ format.crcXorOut

/-- One byte of the equivalent form of R115: the byte is folded in whole, then eight reductions. -/
def crcByteWhole (r : DWord) (b : Byte) : DWord :=
  (List.range 8).foldl
    (fun r _ => if r.getLsbD 63 then (r <<< 1) ^^^ format.crcPoly else r <<< 1)
    (r ^^^ (b.setWidth 64 <<< 56))

/-- `PayloadChecksum` in the byte-at-a-time form of R115. -/
def payloadChecksumByBytes (s : List Byte) : DWord :=
  s.foldl crcByteWhole format.crcInit ^^^ format.crcXorOut

/-- The length check of HCK and CRC (R204): run `k` on `IBUF[0 : LEN]`, or LengthOutOfRange. -/
def withInput (s : State) (k : List Byte → State) : State :=
  if s.len.toNat ≤ bufBytes s.cfg then k (ibufPrefix s s.len.toNat)
  else raise .lengthOutOfRange s.len.toNat (bufBytes s.cfg) s

/-- The value of CK4 (R32, R118): `sum[0] * 2^24 + sum[1] * 2^16 + sum[2] * 2^8 + sum[3]`. -/
def ck4Of (sum : List Byte) : Word := BitVec.ofNat 32 (fromBe sum)

/-- HCK (R118). -/
def execHck (s : State) : Host.Outcome State Fault Refusal :=
  let s := prologue s
  .next <| withInput s fun bytes =>
    let sum := headerChecksum bytes
    { s with ck4 := ck4Of sum, hidden := { s.hidden with lanes := sum } }

/-- CRC (R120). -/
def execCrc (s : State) : Host.Outcome State Fault Refusal :=
  let s := prologue s
  .next <| withInput s fun bytes =>
    { s with
      crc := payloadChecksum bytes
      hidden := { s.hidden with crcReg := crcRegister bytes } }

end Sys2Proof.Machine
end

