-- ==== Sys2Proof/Machine/Encode.lean ====
section
/-! DEFINITION. The frame encoder and the commands ENCF, ENCB, ENCN (spec/41_encode.md). -/

namespace Sys2Proof.Machine

/-- The first 30 bytes of a header (R130): marker, totalSize, sequence, chunkSize, payloadChecksum. -/
def headerBody (magic payload : List Byte) (sequence : Word) (totalSize : DWord) : List Byte :=
  magic ++ fieldBytes 8 totalSize ++ fieldBytes 4 sequence
    ++ fieldBytes 4 (BitVec.ofNat 32 payload.length) ++ fieldBytes 8 (payloadChecksum payload)

/-- `buildHeader(payload, sequence, totalSize)` of R130, the header checksum "computed last". -/
def buildHeader (magic payload : List Byte) (sequence : Word) (totalSize : DWord) : List Byte :=
  let body := headerBody magic payload sequence totalSize
  body ++ storedChecksum body

/-- `frameBytes` of R131: header, then payload. -/
def frameBytes (magic payload : List Byte) (sequence : Word) (totalSize : DWord) : List Byte :=
  buildHeader magic payload sequence totalSize ++ payload

/-- Step 4 and the safety bound of step 5 (R133, R134, R135), from bit position `p` on: bit `p` goes to
pixel `(p mod w, p div w)`; stop once `p div w >= h`. -/
def paintBits (w h p : Nat) (bits : List (BitVec 1)) (r : List Ink) : List Ink :=
  match bits with
  | [] => r
  | b :: t =>
    if h ≤ p / w then r
    else paintBits w h (p + 1) t (if b = 1#1 then r.set (p / w * w + p % w) 1#1 else r)

/-- `mapBits(fb, w, h)` of R134: an all-white raster, then the walk over the bits of `fb`. -/
def mapBits (fb : List Byte) (w h : Nat) : List Ink :=
  paintBits w h 0 (bitStream fb) (List.replicate (w * h) 0#1)

/-- `encodeFrame(payload, sequence, totalSize, w, h)` of R137. -/
def encodeFrame (magic payload : List Byte) (sequence : Word) (totalSize : DWord) (w h : Nat) :
    List Ink :=
  mapBits (frameBytes magic payload sequence totalSize) w h

/-- The output of a frame command: `ERAST[0 : w*h] <- encodeFrame(...)` (R138, R145), with what the
encoder leaves in its hidden registers (R47, log 6). -/
def paintFrame (s : State) (payload : List Byte) (sequence : Word) (totalSize : DWord) (w h : Nat) :
    State :=
  let magic := s.cfg.magic.toList
  { s with
    erast := Memory.writePrefix s.erast (encodeFrame magic payload sequence totalSize w h)
    hidden := { s.hidden with
      hdr := buildHeader magic payload sequence totalSize
      crcReg := crcRegister payload
      lanes := headerChecksum (headerBody magic payload sequence totalSize)
      p := min (8 * (frameBytes magic payload sequence totalSize).length) (w * h) } }

/-- ENCF (R138). -/
def execEncf (s : State) : Host.Outcome State Fault Refusal :=
  let s := prologue s
  .next <| withGeometry s fun w h =>
    if s.len.toNat ≤ maxPayload w h then
      paintFrame s (ibufPrefix s s.len.toNat) s.seq s.total w h
    else raise .lengthOutOfRange s.len.toNat (maxPayload w h) s

/-- The number of frames of a job (R140, R142): `F = (T + m - 1) div m` on natural numbers. -/
def jobFrames (t m : Nat) : Nat := (t + m - 1) / m

/-- ENCB (R142). -/
def execEncb (s : State) : Host.Outcome State Fault Refusal :=
  let s := prologue s
  .next <| withGeometry s fun w h =>
    if jobFrames s.total.toNat (maxPayload w h) ≤ 2 ^ 32 then
      { s with
        jWidth := s.width
        jHeight := s.height
        jTotal := s.total
        jRemain := s.total
        jSeq := 0#32
        status := setLast (decide (s.total = 0#64)) (setJob (decide (s.total ≠ 0#64)) s.status) }
    else raise .sequenceOverflow s.total.toNat (maxPayload w h * 2 ^ 32) s

/-- ENCN (R144, R145). "The geometry was validated by ENCB and cannot have changed" (log 11). -/
def execEncn (s : State) : Host.Outcome State Fault Refusal :=
  let s := prologue s
  .next <|
    if statusJob s.status then
      let n := nextChunkLen s
      let t := paintFrame s (ibufPrefix s n) s.jSeq s.jTotal s.jWidth.toNat s.jHeight.toNat
      let remain := s.jRemain - BitVec.ofNat 64 n
      { t with
        jSeq := s.jSeq + 1#32
        jRemain := remain
        status := setLast (decide (remain = 0#64)) (setJob (decide (remain ≠ 0#64)) s.status) }
    else raise .noActiveJob 0 0 s

end Sys2Proof.Machine
end

