-- ==== Sys2Proof/Machine/FrameDecode.lean ====
section
/-! DEFINITION. The frame decoder and the command DECF (spec/42_decode.md). -/

namespace Sys2Proof.Machine

/-- The pixel classifier of R161: 1 when the sample is closer to black. -/
def classify (s : Sample) : BitVec 1 := if s.toNat < 2 ^ (Config.lumaBits - 1) then 1#1 else 0#1

/-- Eight bits, the first the most significant, as a byte (R65, R165). -/
def packByte (bits : List (BitVec 1)) : Byte := bits.foldl pushBit 0#8

/-- `bytesOf(D)` of R165: eight consecutive pixels make one byte; the last `len(D) mod 8` make none. -/
def bytesOf : List Sample → List Byte
  | a :: b :: c :: d :: e :: f :: g :: h :: rest =>
    packByte ([a, b, c, d, e, f, g, h].map classify) :: bytesOf rest
  | _ => []

/-! Parsing a header (R91). -/

/-- `hdrValid(h)`: the stored bytes are the first two bytes of the checksum of `h[0:30]`. -/
def hdrValid (h : List Byte) : Bool :=
  storedChecksum (slice h 0 offHck) = slice h offHck format.hckStored

/-- `totalSize(h) = from_be(h[6:14])`. -/
def hdrTotal (h : List Byte) : Nat := fieldValue (slice h offTotal 8)
/-- `sequence(h) = from_be(h[14:18])`. -/
def hdrSeq (h : List Byte) : Nat := fieldValue (slice h offSeq 4)
/-- `chunkSize(h) = from_be(h[18:22])`. -/
def hdrChunk (h : List Byte) : Nat := fieldValue (slice h offChunk 4)
/-- `payloadCk(h) = from_be(h[22:30])`. -/
def hdrPayloadCk (h : List Byte) : Nat := fieldValue (slice h offPay 8)
/-- The stored checksum pair `h[30] * 256 + h[31]` (R246). -/
def hdrStoredPair (h : List Byte) : Nat := pairValue (slice h offHck format.hckStored)
/-- The computed checksum pair `sum[0] * 256 + sum[1]` (R246). -/
def hdrComputedPair (h : List Byte) : Nat := pairValue (headerChecksum (slice h 0 offHck))

/-! The scan (R164 to R174). -/

/-- What one pixel step of the scan decides. -/
inductive ScanVerdict where
  | more      -- go on with the next pixel
  | leave     -- the full frame is captured (R172)
  | mismatch  -- strict policy: the header check failed (R173)
deriving DecidableEq, Repr

/-- The bit accumulator takes one sample (R166); the bit position advances (R41). -/
def takeSample (hd : Hidden) (d : Sample) : Hidden :=
  { hd with acc := pushBit hd.acc (classify d), nb := hd.nb + 1, p := hd.p + 1 }

/-- The completed byte goes to the end of FBUF (R166, R167). -/
def appendByte (hd : Hidden) : Hidden :=
  { hd with fbuf := hd.fbuf ++ [hd.acc], acc := 0#8, nb := 0 }

/-- Discard the bytes before the marker at offset `i` (R169). -/
def discard (hd : Hidden) (i : Nat) : Hidden :=
  { hd with fbuf := hd.fbuf.drop i, skip := hd.skip + i }

/-- The header check of R170 on the marker's window, when the buffer holds a whole header. -/
def checkWindow (strict : Bool) (hd : Hidden) : Hidden × ScanVerdict :=
  if hd.fbuf.length < format.headerSize then (hd, .more)
  else
    let h := hd.fbuf.take format.headerSize
    let hd := { hd with lanes := headerChecksum (slice h 0 offHck) }
    if hdrValid h then
      if format.headerSize + hdrChunk h ≤ hd.fbuf.length then (hd, .leave) else (hd, .more)
    else if strict then (hd, .mismatch) else (hd, .more)

/-- The search after an appended byte (R168), resynchronization (R169), then the header check. -/
def searchMarker (magic : List Byte) (strict : Bool) (hd : Hidden) : Hidden × ScanVerdict :=
  if hd.fbuf.length < Config.magicLen then (hd, .more)
  else
    match find magic hd.fbuf with
    | none => (hd, .more)
    | some i => checkWindow strict (discard hd i)

/-- The body of the loop of R174 for one sample. -/
def scanSample (magic : List Byte) (strict : Bool) (hd : Hidden) (d : Sample) :
    Hidden × ScanVerdict :=
  let hd := takeSample hd d
  if hd.nb = 8 then searchMarker magic strict (appendByte hd) else (hd, .more)

/-- The loop of R174 over the samples; the Bool tells whether the strict policy aborted it. -/
def scanLoop (magic : List Byte) (strict : Bool) (hd : Hidden) (ds : List Sample) : Hidden × Bool :=
  match ds with
  | [] => (hd, false)
  | d :: t =>
    match scanSample magic strict hd d with
    | (hd', .more) => scanLoop magic strict hd' t
    | (hd', .leave) => (hd', false)
    | (hd', .mismatch) => (hd', true)

/-- The scan of R174, with the hidden state it uses initialised first (R47). -/
def scan (magic : List Byte) (strict : Bool) (hd : Hidden) (ds : List Sample) : Hidden × Bool :=
  scanLoop magic strict { hd with fbuf := [], acc := 0#8, nb := 0, p := 0, skip := 0 } ds

/-! Steps 4 to 9 (R175 to R179). -/

/-- The outcome of a decode: an error with its context (R246) and the value of SHORT, or the chunk. -/
inductive DecodeResult where
  | fail (e : ErrCode) (short : Bool) (a b : Nat)
  | chunk (payload : List Byte) (sequence totalSize size skip : Nat)
deriving DecidableEq, Repr

/-- HeaderChecksumMismatch on a whole header, with the stored and the computed pair (R173, R176). -/
def headerMismatch (h : List Byte) : DecodeResult :=
  .fail .headerChecksumMismatch false (hdrStoredPair h) (hdrComputedPair h)

/-- Steps 6 to 8 on the window `win` whose header is valid (R178, R179). -/
def decodePayload (win : List Byte) (skip : Nat) : DecodeResult :=
  let h := win.take format.headerSize
  let cs := hdrChunk h
  if win.length - format.headerSize < cs then
    .fail .invalidChunkSize false cs (win.length - format.headerSize)
  else
    let payload := slice win format.headerSize cs
    if (payloadChecksum payload).toNat = hdrPayloadCk h then
      .chunk payload (hdrSeq h) (hdrTotal h) cs skip
    else .fail .payloadChecksumMismatch false (hdrPayloadCk h) (payloadChecksum payload).toNat

/-- Step 5 (R176, R177), then steps 6 to 8, on the window from the marker on. -/
def decodeWindow (win : List Byte) (skip : Nat) : DecodeResult :=
  if win.length < format.headerSize then
    .fail .headerChecksumMismatch true format.headerSize win.length
  else
    let h := win.take format.headerSize
    if hdrValid h then decodePayload win skip else headerMismatch h

/-- Step 4, the final search (R175), then steps 5 to 8, on a buffer whose front `skip` bytes are gone;
`searched` is the number of bytes MagicNotFound reports. -/
def decodeBuffer (magic : List Byte) (searched : Nat) (fbuf : List Byte) (skip : Nat) : DecodeResult :=
  match find magic fbuf with
  | none => .fail .magicNotFound false searched 0
  | some i => decodeWindow (fbuf.drop i) (skip + i)

/-- `decodeBytes(B)` of R183: the closed form of a decode, on the whole byte stream of the raster. -/
def decodeBytes (magic b : List Byte) : DecodeResult := decodeBuffer magic b.length b 0

/-- What steps 4 to 8 leave in the hidden state (R47, log 6). -/
def settleHidden (magic : List Byte) (hd : Hidden) : Hidden :=
  match find magic hd.fbuf with
  | none => hd
  | some i =>
    let hd := discard hd i
    if hd.fbuf.length < format.headerSize then hd
    else
      let h := hd.fbuf.take format.headerSize
      let hd := { hd with lanes := headerChecksum (slice h 0 offHck) }
      if hdrValid h ∧ hdrChunk h ≤ hd.fbuf.length - format.headerSize then
        { hd with crcReg := crcRegister (slice hd.fbuf format.headerSize (hdrChunk h)) }
      else hd

/-- Record a decode's outcome (R177, R180, R181): on success step 9 and DVALID, on an error nothing
but the error. -/
def recordDecode (r : DecodeResult) (s : State) : State :=
  match r with
  | .fail e short a b => raise e a b { s with status := setShort short s.status }
  | .chunk payload sequence totalSize size skip =>
    { s with
      obuf := Memory.writePrefix s.obuf payload
      dSeq := BitVec.ofNat 32 sequence
      dTotal := BitVec.ofNat 64 totalSize
      dChunk := BitVec.ofNat 32 size
      dSkip := BitVec.ofNat 32 skip
      status := setDvalid true s.status }

/-- DECF (R180). -/
def execDecf (s : State) : Host.Outcome State Fault Refusal :=
  let s := prologue s
  let s := { s with status := setDvalid false s.status }
  .next <| withGeometry s fun w h =>
    if s.rwidth = s.width ∧ s.rheight = s.height then
      let magic := s.cfg.magic.toList
      let r := scan magic (ctrlStrict s.ctrl) s.hidden (drastPrefix s (w * h))
      if r.2 then
        recordDecode (headerMismatch (r.1.fbuf.take format.headerSize)) { s with hidden := r.1 }
      else
        recordDecode (decodeBuffer magic (capBytes w h) r.1.fbuf r.1.skip)
          { s with hidden := settleHidden magic r.1 }
    else
      raise .dimensionMismatch (packDims w h) (packDims s.rwidth.toNat s.rheight.toNat) s

end Sys2Proof.Machine
end

