-- ==== Sys2Proof/Machine/System.lean ====
section
/-! DEFINITION. The command CLR, the illegal command (spec/43_system.md R200, R202) and hardware reset
(spec/70_reset_and_hazards.md R270, R271). -/

namespace Sys2Proof.Machine

/-- CLR (R200): every block-written register to its reset value; the host-written registers and the
four memories untouched. It has no prologue (R201) and cannot fail. -/
def execClr (s : State) : Host.Outcome State Fault Refusal :=
  .next { s with
    status := 0#32
    ck4 := 0#32
    crc := 0#64
    dSeq := 0#32
    dTotal := 0#64
    dChunk := 0#32
    dSkip := 0#32
    jSeq := 0#32
    jTotal := 0#64
    jRemain := 0#64
    jWidth := 0#Config.dimBits
    jHeight := 0#Config.dimBits
    einfoA := 0#64
    einfoB := 0#64 }

/-- An illegal command with command word `c` (R202): IllegalCommand(c, 0) and nothing else. -/
def execIllegal (c : Word) (s : State) : Host.Outcome State Fault Refusal :=
  .next (raise .illegalCommand c.toNat 0 (prologue s))

/-- The reset input (R270): every stored register to its reset value, the memories a new draw of free
contents (R271), the hidden state not initialised (R272); the parameters stay (R48), and what belongs
to the host agent is not the block's to change (log 12). -/
def hardReset (s : State) : State :=
  { State.reset with
    hidden := s.hidden
    cfg := s.cfg
    draw := s.draw + 1
    script := s.script
    rdata := s.rdata }

end Sys2Proof.Machine
end

