-- ==== Sys2Proof/Machine/Dispatch.lean ====
section
/-! DEFINITION. The meaning of every command, one arm per constructor of Instr. -/

namespace Sys2Proof.Machine

def exec (i : Instr) (s : State) : Host.Outcome State Fault Refusal :=
  match i with
  | .hck => Sys2Proof.Machine.execHck s
  | .crc => Sys2Proof.Machine.execCrc s
  | .encf => Sys2Proof.Machine.execEncf s
  | .encb => Sys2Proof.Machine.execEncb s
  | .encn => Sys2Proof.Machine.execEncn s
  | .decf => Sys2Proof.Machine.execDecf s
  | .clr => Sys2Proof.Machine.execClr s

end Sys2Proof.Machine
end

