-- ==== Sys2Proof/Machine/Command.lean ====
section
/-! DEFINITION. A write of CMD: the command its word selects, or the illegal command
(spec/10_state.md R23, spec/30_encoding.md R86). -/

namespace Sys2Proof.Machine

/-- Execute the command a word selects; an illegal word executes R202 (R86). -/
def runCommand (c : Word) (s : State) : Host.Outcome State Fault Refusal :=
  match decode c with
  | .ok i => exec i s
  | .error _ => execIllegal c s

end Sys2Proof.Machine
end

