-- ==== Sys2Proof/Machine/HostPort.lean ====
section
/-! DEFINITION. The host's side of a step: which access is next (R76), whether the block can take it
(R61, R280), and what every access but a CMD write does (R21, R39, R72). -/

namespace Sys2Proof.Machine

/-- What the next host access comes to. -/
inductive PortEvent where
  | idle                          -- the host has nothing to do
  | done (s : State)              -- a plain access, complete
  | command (c : Word) (s : State)  -- a write of `c` to CMD
  | refused (r : Refusal)
deriving DecidableEq, Repr

/-- The accesses allowed while STATUS.BUSY = 1: "the host may read STATUS and must make no other
access" (R280); the reset input may be asserted at any time (R273). -/
def allowedWhileBusy : Access → Bool
  | .readReg n => n = Reg.num .status
  | .reset => true
  | .writeReg _ _ | .writeCell _ _ _ | .readCell _ _ => false

/-- One well-formed access on a block that can take it. -/
def plainAccess (x : Access) (s : State) : PortEvent :=
  match x with
  | .writeReg n v =>
    match Reg.ofNum n with
    | some .cmd => .command (v.setWidth 32) s
    | some r => .done (writeRegister r v s)
    | none => .done s
  | .readReg n => .done { s with rdata := readRegNum n s }
  | .writeCell sp a v => .done (writeCell sp a v s)
  | .readCell sp a => .done { s with rdata := readCell sp a s }
  | .reset => .done (hardReset s)

/-- One access of the host: refused while busy (R280, U7), refused where the spec cannot express it
(R21, R61, U8), else performed. -/
def portAccess (x : Access) (s : State) : PortEvent :=
  if statusBusy s.status && !allowedWhileBusy x then .refused .busyAccess
  else
    match x.malformed s.cfg with
    | some .noSuchCell => .refused .noSuchCell
    | some .valueTooWide => .refused .valueTooWide
    | none => plainAccess x s

/-- The host's next access, taken off its script (R76, log 1). -/
def nextEvent (s : State) : PortEvent :=
  match s.script with
  | [] => .idle
  | x :: rest => portAccess x { s with script := rest }

/-- The host access that issues a command: "`WR CMD, <opcode>`" (R97). -/
def cmdAccess (c : DWord) : Access := .writeReg (Reg.num .cmd) c

end Sys2Proof.Machine
end

