-- ==== Sys2Proof/Machine/Step.lean ====
section
/-! DEFINITION. One step of the machine: the host's next access, and for a CMD write the command it
selects (spec/10_state.md R23, spec/00_scope.md R12, R13). -/

namespace Sys2Proof.Machine

/-- One step. "The block does nothing until the host writes CMD" (R270): with nothing left in the
host's script the state stays as it is. -/
def step (s : State) : Host.Outcome State Fault Refusal :=
  match nextEvent s with
  | .idle => .next s
  | .done t => .next t
  | .command c t => runCommand c t
  | .refused r => .refused r

/-- The state in which the host's next access is the write of the word `w` to CMD, and the engine is
idle, so that the next step runs that command (log 9). -/
def State.withFetchWord (s : State) (nbits w : Nat) : State :=
  { s with
    status := setBusy false s.status
    script := cmdAccess (BitVec.ofNat 64 (w % 2 ^ nbits)) :: s.script }

end Sys2Proof.Machine
end

