-- ==== Sys2Proof/Machine/HostJob.lean ====
section
/-! DEFINITION. The host's side of a job (spec/45_host_job_contract.md) and the pseudo-instructions of
the host notation (spec/30_encoding.md R98). "Nothing in this file is hardware": these are procedures
of the host, built from the accesses a host can make, so that the job-level properties can be stated. -/

namespace Sys2Proof.Machine

/-- The host makes these accesses one after another, each a step of the machine (R76). The result is the
state after them; or, with the reason, the state after the accesses before the first that is refused. -/
def runAccesses (xs : List Access) (s : State) : State × Option Refusal :=
  match xs with
  | [] => (s, none)
  | x :: rest =>
    match step { s with script := [x] } with
    | .next t => runAccesses rest t
    | .fault f => nomatch f
    | .refused r => (s, some r)

/-! The host notation (R97, R98). -/

/-- `WR NAME, v`. -/
def wr {w : Nat} (r : Reg) (v : BitVec w) : Access := .writeReg r.num (v.setWidth 64)

/-- `CMD MNEMONIC`. -/
def cmd (i : Instr) : Access := wr .cmd (encode i)

/-- `WB SPACE[a], b0 b1 ...`: one access a cell, in ascending index order (R61). -/
def writeCells {w : Nat} (sp : Space) (a : Nat) (vs : List (BitVec w)) : List Access :=
  match vs with
  | [] => []
  | v :: t => .writeCell sp a (v.setWidth 64) :: writeCells sp (a + 1) t

/-- `GEOM w, h`. -/
def geom (w h : BitVec Config.dimBits) : List Access := [wr .width w, wr .height h]

/-- `LOAD s`. -/
def load (s : List Byte) : List Access :=
  writeCells .ibuf 0 s ++ [wr .len (BitVec.ofNat 32 s.length)]

/-! The channel between the rasters (R215 to R217). -/

/-- Black, sample 0; white, the greatest sample (R46). -/
def black : Sample := 0#Config.lumaBits
/-- White (R46). -/
def white : Sample := BitVec.allOnes Config.lumaBits

/-- One pixel of the ideal channel (R216). -/
def idealSample (i : Ink) : Sample := if i = 1#1 then black else white

/-- `ideal(R)` of R216. -/
def ideal (r : List Ink) : List Sample := r.map idealSample

/-- A tolerable delivery of a raster (R217): the same length, and every sample on the ideal one's side
of the midpoint. -/
def tolerable (r : List Ink) (d : List Sample) : Bool :=
  decide (d.length = r.length) &&
    (r.zip d).all fun x => decide (x.2.toNat < 2 ^ (Config.lumaBits - 1)) == decide (x.1 = 1#1)

/-- A raster as the host loads it: samples and the dimensions its source reports (R27). -/
structure Raster where
  width : BitVec Config.dimBits
  height : BitVec Config.dimBits
  samples : List Sample
deriving DecidableEq, Repr

/-- The accesses that load a raster into DRAST, RWIDTH and RHEIGHT (R221). -/
def loadRaster (r : Raster) : List Access :=
  writeCells .drast 0 r.samples ++ [wr .rwidth r.width, wr .rheight r.height]

/-- `CHAN` of R98 in state `s`: the ideal channel from ERAST to DRAST. -/
def chan (s : State) : List Access :=
  loadRaster ⟨s.width, s.height, ideal (erastPrefix s (s.width.toNat * s.height.toNat))⟩

/-- `RAST s, w, h` of R98: the byte stream `s`, then white. -/
def rast (s : List Byte) (w h : BitVec Config.dimBits) : List Access :=
  let n := w.toNat * h.toNat
  loadRaster ⟨w, h, ideal ((bitStream s ++ List.replicate (n - 8 * s.length) 0#1).take n)⟩

/-! The encode job (R140, R218, R219). -/

/-- `chunk_k` of R140: `S[k*m : min((k+1)*m, T)]`. -/
def jobChunk (data : List Byte) (m k : Nat) : List Byte := slice data (k * m) m

/-- A raster handed to the raster I/O collaborator "as frame number `J_SEQ - 1`" (R218). -/
structure EncodedFrame where
  number : Word
  ink : List Ink
deriving DecidableEq, Repr

/-- What an encode job meets outside the block (R218): whether the input is there, whether the bytes of frame
`k` can be read, whether its raster can be written. -/
structure Collaborators where
  inputFound : Bool
  readable : (k : Word) → Bool
  writable : (k : Word) → Bool

/-- Collaborators that never fail. -/
def Collaborators.reliable : Collaborators := ⟨true, fun _ => true, fun _ => true⟩

/-- Why an encode job fails (R218, R243). The source has no name for an unwritable raster; a refused access is
one the host cannot make (log 18). -/
inductive EncodeError where
  | pathError
  | rasterError
  | command (err : BitVec 4)
  | refused (r : Refusal)
deriving DecidableEq, Repr

/-- After a failure of its own "the host then issues CLR and discards the frames made so far" (R218). -/
def abandon (s : State) : State := (runAccesses [cmd .clr] s).1

/-- Make accesses that end in a command; "if ERR is not OK the job fails" (R218). -/
def issue (xs : List Access) (s : State) : State × Option EncodeError :=
  match runAccesses xs s with
  | (t, some r) => (t, some (.refused r))
  | (t, none) => (t, if statusErr t.status = 0#4 then none else some (.command (statusErr t.status)))

/-- One frame of an encode job: read its bytes of the input, make the accesses that encode it, read
`ERAST[0 : n]` and hand it over under the number that `number` reads from the block (R218). -/
def encodeOne (io : Collaborators) (k : Word) (xs : List Access) (n : Nat) (number : State → Word)
    (s : State) : Except EncodeError EncodedFrame × State :=
  if io.readable k then
    match issue xs s with
    | (t, some e) => (.error e, t)
    | (t, none) =>
      if io.writable (number t) then (.ok ⟨number t, erastPrefix t n⟩, t)
      else (.error .rasterError, abandon t)
  else (.error .pathError, abandon s)

/-- The loop of R218 after ENCB, at most `fuel` rounds: while JOB = 1, read J_NEXT, load the next bytes,
issue ENCN, take the raster as frame J_SEQ - 1. -/
def encodeLoop (fuel : Nat) (io : Collaborators) (data : List Byte) (w h : BitVec Config.dimBits)
    (s : State) : Except EncodeError (List EncodedFrame) × State :=
  match fuel with
  | 0 => (.ok [], s)
  | fuel + 1 =>
    if statusJob s.status then
      let n := jnextValue s
      match encodeOne io s.jSeq (writeCells .ibuf 0 (data.take n) ++ [cmd .encn])
          (w.toNat * h.toNat) (fun t => t.jSeq - 1#32) s with
      | (.error e, t) => (.error e, t)
      | (.ok f, t) =>
        match encodeLoop fuel io (data.drop n) w h t with
        | (.error e, u) => (.error e, u)
        | (.ok fs, u) => (.ok (f :: fs), u)
    else (.ok [], s)

/-- The encode job of R218 (`ENCJOB` of R98 after `GEOM`): the frames in order, or why the job failed, and
the block's state after it. Every frame takes at least one byte, so the length of the data bounds the number
of rounds. A length that TOTAL cannot hold is a write the host cannot make (R21, log 18). -/
def encodeJob (io : Collaborators) (data : List Byte) (w h : BitVec Config.dimBits) (s : State) :
    Except EncodeError (List EncodedFrame) × State :=
  if io.inputFound then
    if data.length < 2 ^ 64 then
      match issue (geom w h ++ [wr .total (BitVec.ofNat 64 data.length), cmd .encb]) s with
      | (t, some e) => (.error e, t)
      | (t, none) => encodeLoop data.length io data w h t
    else (.error (.refused .valueTooWide), (runAccesses (geom w h) s).1)
  else (.error .pathError, abandon s)

/-- Frame `k` without the job commands (R219): ENCF on `chunk_k` with SEQ = k, TOTAL = T, LEN = len(chunk_k).
A number that SEQ or TOTAL cannot hold is a write the host cannot make (R21, log 18). DESIGN CHOICE (log 18): at
an invalid geometry, where R11 gives no maxPayload, the chunk is cut by natural-number subtraction and loaded
before ENCF is issued, so the frame can fail with a refused load and not with InvalidGeometry. -/
def directFrame (io : Collaborators) (data : List Byte) (w h : BitVec Config.dimBits) (k : Nat)
    (s : State) : Except EncodeError EncodedFrame × State :=
  if k < 2 ^ 32 ∧ data.length < 2 ^ 64 then
    encodeOne io (BitVec.ofNat 32 k)
      (geom w h ++ load (jobChunk data (maxPayload w.toNat h.toNat) k)
        ++ [wr .seq (BitVec.ofNat 32 k), wr .total (BitVec.ofNat 64 data.length), cmd .encf])
      (w.toNat * h.toNat) (fun t => t.seq) s
  else (.error (.refused .valueTooWide), s)

/-- The frames `ks` of R219, one after another on one instance. -/
def directLoop (io : Collaborators) (data : List Byte) (w h : BitVec Config.dimBits) (ks : List Nat)
    (s : State) : Except EncodeError (List EncodedFrame) × State :=
  match ks with
  | [] => (.ok [], s)
  | k :: rest =>
    match directFrame io data w h k s with
    | (.error e, t) => (.error e, t)
    | (.ok f, t) =>
      match directLoop io data w h rest t with
      | (.error e, u) => (.error e, u)
      | (.ok fs, u) => (.ok (f :: fs), u)

/-- The encode job of R219 on one instance, for the frames `ks` "in any order". DESIGN CHOICE (log 18): R219
names no failure; a missing input and the failures of a frame end this job as they end that of R218. -/
def directJob (io : Collaborators) (data : List Byte) (w h : BitVec Config.dimBits) (ks : List Nat)
    (s : State) : Except EncodeError (List EncodedFrame) × State :=
  if io.inputFound then directLoop io data w h ks s else (.error .pathError, abandon s)

/-! The choices the spec leaves to the host (93_implementation_defined.md U17). -/

/-- The parameters of the host contract, each off by default: "default the literal behaviour" (U17, log 19). -/
structure HostOptions where
  emptyFrame : Bool := false    -- an empty input is encoded as one empty frame (90_conflicts.md C4)
  gapCheck : Bool := false      -- ASM_GAP_CHECK (R224)
  totalCheck : Bool := false    -- D_TOTAL is compared across frames (R286)
  sequenceCheck : Bool := false -- `D_SEQ < ceil(D_TOTAL / maxPayload)` is checked (R286)
deriving DecidableEq, Repr

/-- The literal host contract. -/
def HostOptions.literal : HostOptions := {}

/-- The encode job under the host's choice for an empty input: the zero frames of R218, or one empty frame
"with ENCF, which DECF accepts" (90_conflicts.md C4). -/
def encodeJobWith (o : HostOptions) (io : Collaborators) (data : List Byte)
    (w h : BitVec Config.dimBits) (s : State) : Except EncodeError (List EncodedFrame) × State :=
  if o.emptyFrame ∧ data = [] then directJob io [] w h [0] s else encodeJob io data w h s

/-! The decode job and the reconstruction assembler (R220 to R224). -/

/-- The source's Chunk, as the host reads it out after a successful DECF (R34, R221). -/
structure Chunk where
  sequence : Word
  payload : List Byte
  totalSize : DWord
deriving DecidableEq, Repr

/-- ReconstructionState (R220): `seen` in ascending order without repeats, `chunks` ordered by
sequence. -/
structure Assembler where
  seen : List Word
  chunks : List (Word × List Byte)
  totalSize : Option DWord
deriving DecidableEq, Repr

/-- "Initially `seen` and `chunks` are empty and `totalSize` is `none`" (R220). -/
def Assembler.empty : Assembler := ⟨[], [], none⟩

/-- The errors of a decode job (R223, R243). `missingSequence` is of the host option ASM_GAP_CHECK
only (R224, log 13), `totalSizeMismatch` of the comparison of D_TOTAL across frames only (R286, log 19). -/
inductive JobError where
  | noValidFrames
  | incompleteReconstruction (expected actual : Nat)
  | missingSequence (index : Nat)
  | totalSizeMismatch (recorded other : DWord)
deriving DecidableEq, Repr

/-- `seen + {sequence}`, kept in ascending order. -/
def insertSeen (q : Word) (seen : List Word) : List Word :=
  match seen with
  | [] => [q]
  | x :: t => if q.toNat < x.toNat then q :: x :: t else x :: insertSeen q t

/-- `chunks[sequence] <- payload` for a sequence not yet there, kept ordered by sequence. -/
def insertChunk (q : Word) (payload : List Byte) (chunks : List (Word × List Byte)) :
    List (Word × List Byte) :=
  match chunks with
  | [] => [(q, payload)]
  | x :: t => if q.toNat < x.1.toNat then (q, payload) :: x :: t else x :: insertChunk q payload t

/-- `asm_feed(sequence, payload, totalSize)` of R222. -/
def asmFeed (a : Assembler) (c : Chunk) : Assembler :=
  if c.sequence ∈ a.seen then a
  else
    { seen := insertSeen c.sequence a.seen
      chunks := insertChunk c.sequence c.payload a.chunks
      totalSize := some (a.totalSize.getD c.totalSize) }

/-- R286: `D_SEQ < ceil(D_TOTAL / m)`, with `m` the job's maxPayload. -/
def plausibleSequence (m : Nat) (c : Chunk) : Bool :=
  decide (c.sequence.toNat < jobFrames c.totalSize.toNat m)

/-- R286: the totalSize the assembler has recorded, if it differs from that of `c`. -/
def otherTotal (a : Assembler) (c : Chunk) : Option DWord := a.totalSize.filter (· ≠ c.totalSize)

/-- `asm_feed` of R222 behind the host's checks of R286, if it makes them. DESIGN CHOICE (log 19): a chunk whose
sequence is implausible is dropped, as a corrupted frame is; a totalSize that disagrees fails the job, since
nothing tells which of the two is corrupted. -/
def feedChecked (o : HostOptions) (m : Nat) (a : Assembler) (c : Chunk) : Except JobError Assembler :=
  if o.sequenceCheck && !plausibleSequence m c then .ok a
  else
    match (if o.totalCheck then otherTotal a c else none) with
    | some t => .error (.totalSizeMismatch t c.totalSize)
    | none => .ok (asmFeed a c)

/-- The first index from `k` on that the ascending sequence set lacks (R224's recommended check). -/
def firstGap (k : Nat) (seen : List Word) : Option Nat :=
  match seen with
  | [] => none
  | x :: t => if x.toNat = k then firstGap (k + 1) t else some k

/-- `asm_finish()` of R223; `gapCheck` is the host option ASM_GAP_CHECK, default off (R224). -/
def asmFinish (gapCheck : Bool) (a : Assembler) : Except JobError (List Byte) :=
  match a.totalSize with
  | none => .error .noValidFrames
  | some total =>
    if a.seen = [] then .error .noValidFrames
    else
      match (if gapCheck then firstGap 0 a.seen else none) with
      | some k => .error (.missingSequence k)
      | none =>
        let out := a.chunks.flatMap (·.2)
        if out.length < total.toNat then .error (.incompleteReconstruction total.toNat out.length)
        else .ok (out.take total.toNat)

/-- The decode loop of R221, over any function that decodes one raster (R231) and any that feeds one chunk: feed
what decodes, drop what does not. -/
def decodeLoop {σ : Type} (decodeOne : Raster → σ → σ × Option Chunk)
    (feed : Assembler → Chunk → Except JobError Assembler) (rs : List Raster) (s : σ) (a : Assembler) :
    σ × Except JobError Assembler :=
  match rs with
  | [] => (s, .ok a)
  | r :: t =>
    match decodeOne r s with
    | (s', some c) =>
      match feed a c with
      | .ok a' => decodeLoop decodeOne feed t s' a'
      | .error e => (s', .error e)
    | (s', none) => decodeLoop decodeOne feed t s' a

/-- Decode one raster with the block (R221, R231): load it, issue DECF, and if STATUS.ERR = OK read
`(D_SEQ, OBUF[0 : D_CHUNK], D_TOTAL)`; otherwise the raster is dropped. DESIGN CHOICE (log 17): the spec does
not say what becomes of a raster that cannot be loaded whole, because its cells pass the end of DRAST. Here
the load stops at the first refused access, the cells written before it stay written, DECF is not issued, and
the raster is dropped. -/
def decodeRaster (r : Raster) (s : State) : State × Option Chunk :=
  match runAccesses (loadRaster r ++ [cmd .decf]) s with
  | (t, none) =>
    (t, if statusErr t.status = 0#4 then some ⟨t.dSeq, obufPrefix t t.dChunk.toNat, t.dTotal⟩
        else none)
  | (t, some _) => (t, none)

/-- The decode job of R221 on the block: the geometry, the loop, `asm_finish`; the checks are those of the host's
options. None when the block cannot take the geometry writes (it is busy, which no run reaches). -/
def decodeJob (o : HostOptions) (w h : BitVec Config.dimBits) (rs : List Raster) (s : State) :
    Option (Except JobError (List Byte)) :=
  match runAccesses (geom w h) s with
  | (t, none) =>
    some <|
      match (decodeLoop decodeRaster (feedChecked o (maxPayload w.toNat h.toNat)) rs t .empty).2 with
      | .ok a => asmFinish o.gapCheck a
      | .error e => .error e
  | (_, some _) => none

/-- A channel (R215): a relation between the encoder's rasters, in order, and the rasters the transport
delivers, in any order and with any duplicates. -/
abbrev Channel := List (List Ink) → List Raster → Prop

/-- A raster that is a tolerable copy of the frame `f` of geometry `(w, h)` (R217). -/
def tolerableCopy (w h : BitVec Config.dimBits) (f : List Ink) (r : Raster) : Bool :=
  decide (r.width = w) && decide (r.height = h) && tolerable f r.samples

/-- A raster that DECF on geometry `(w, h)` ends in an error on: its dimensions differ (R162), or it is a whole
raster of that geometry whose byte stream decodes to an error (R183). -/
def rejected (magic : List Byte) (w h : BitVec Config.dimBits) (r : Raster) : Bool :=
  if r.width = w ∧ r.height = h then
    r.samples.length = w.toNat * h.toNat &&
      match decodeBytes magic (bytesOf r.samples) with
      | .fail _ _ _ _ => true
      | .chunk _ _ _ _ _ => false
  else true

/-- The tolerable channel for frames of geometry `(w, h)` (R217, R227): "at least one tolerable copy of every
frame, in any order, with any duplicates, and no raster that decodes successfully without being such a copy".
What else it delivers is rejected by DECF, and dropped (R221). -/
def tolerableChannel (magic : List Byte) (w h : BitVec Config.dimBits) : Channel := fun frames rs =>
  (∀ f ∈ frames, ∃ r ∈ rs, tolerableCopy w h f r = true) ∧
  (∀ r ∈ rs, (∃ f ∈ frames, tolerableCopy w h f r = true) ∨ rejected magic w h r = true)

end Sys2Proof.Machine
end

