-- ==== Sys2Proof/Safety.lean ====
section
/-! DEFINITION. The terms in which claims about a run are made: the invariant of every reachable state
(spec/10_state.md R50 and what R24, R25, R242, R280 say of reserved bits), what a host can observe,
and a run in which no access stops. -/

namespace Sys2Proof.Machine

/-- The state without what the host cannot observe (R47). -/
def State.visible (s : State) : State := { s with hidden := Hidden.idle }

/-- The four memories are in canonical form, at their sizes (R43 to R46). -/
structure MemoriesWf (s : State) : Prop where
  ibuf : Memory.wf (bufBytes s.cfg) s.ibuf = true
  obuf : Memory.wf (bufBytes s.cfg) s.obuf = true
  erast : Memory.wf s.cfg.maxPixels s.erast = true
  drast : Memory.wf s.cfg.maxPixels s.drast = true

/-- The job clauses of R50: (a), (b), (c), and what R141's check adds to make (c) inductive: the job
fits the 32-bit sequence counter. -/
structure JobInv (s : State) : Prop where
  active : statusJob s.status = true ↔ 0 < s.jRemain.toNat
  bounded : s.jRemain.toNat ≤ s.jTotal.toNat
  geometry : statusJob s.status = true → geomValid s.cfg s.jWidth.toNat s.jHeight.toNat = true
  sequence : statusJob s.status = true →
    s.jSeq.toNat =
      (s.jTotal.toNat - s.jRemain.toNat) / maxPayload s.jWidth.toNat s.jHeight.toNat
  whole : statusJob s.status = true →
    (s.jTotal.toNat - s.jRemain.toNat) % maxPayload s.jWidth.toNat s.jHeight.toNat = 0
  fits : statusJob s.status = true →
    s.jTotal.toNat ≤ maxPayload s.jWidth.toNat s.jHeight.toNat * 2 ^ 32
  notLast : ¬(statusJob s.status = true ∧ statusLast s.status = true)

/-- The status clauses: R50 (e) and (f), a defined error code (R242), BUSY never seen as 1 (R280), the
reserved bits of STATUS and CTRL reading 0 (R24, R25). -/
structure StatusInv (s : State) : Prop where
  short : statusShort s.status = true → statusErr s.status = errNumber .headerChecksumMismatch
  quiet : statusErr s.status = errNumber .ok → s.einfoA = 0#64 ∧ s.einfoB = 0#64
  code : ∃ e : ErrCode, statusErr s.status = errNumber e
  idle : statusBusy s.status = false
  reserved : ∀ k, 9 ≤ k → s.status.getLsbD k = false
  ctrlReserved : ∀ k, 1 ≤ k → s.ctrl.getLsbD k = false

/-- The invariant of every state a run reaches. `result` is R50 (d) with the capacity of the buffers in
place of the geometry of the DECF that made the result, which no register remembers. -/
structure State.Inv (s : State) : Prop where
  memories : MemoriesWf s
  job : JobInv s
  status : StatusInv s
  result : statusDvalid s.status = true →
    s.dChunk.toNat + s.dSkip.toNat + format.headerSize ≤ bufBytes s.cfg

/-- The fields of a status register one by one: ERR, SHORT, DVALID, JOB, LAST as given, and BUSY and
the reserved bits as they are in `w`. -/
structure StatusIs (v w : Word) (e : ErrCode) (short dvalid job last : Bool) : Prop where
  err : statusErr v = errNumber e
  short : statusShort v = short
  dvalid : statusDvalid v = dvalid
  job : statusJob v = job
  last : statusLast v = last
  busy : statusBusy v = statusBusy w
  rest : ∀ k, 9 ≤ k → v.getLsbD k = w.getLsbD k

/-- `t` is `s` after a command that ended in the error `e` with context `(a, b)`, and nothing else
changed (R247): STATUS as given, EINFO_A and EINFO_B, and no other field. -/
structure Raised (t s : State) (e : ErrCode) (short dvalid : Bool) (a b : Nat) : Prop where
  status : StatusIs t.status s.status e short dvalid (statusJob s.status) (statusLast s.status)
  infoA : t.einfoA.toNat = a
  infoB : t.einfoB.toNat = b
  rest : t = { s with status := t.status, einfoA := t.einfoA, einfoB := t.einfoB }

/-- A reserved command word (R88): a nonzero ZERO field, or OPCODE 0x00 or 0x08 to 0xFF. -/
def reservedWord (c : Word) : Prop :=
  zeroField c ≠ 0#24 ∨ opcodeField c = 0x00#8 ∨ 0x08 ≤ (opcodeField c).toNat

/-- Lane `k` of R111: the xor of `s[i]` over all `i < len(s)` with `i mod 4 = k`. -/
def laneXor (s : List Byte) (k : Nat) : Byte :=
  ((List.range s.length).filter fun i => i % format.hckLanes = k).foldl (fun x i => x ^^^ s.getD i 0#8) 0#8

/-- What a register reads after hardware reset (R22, R49); MAXPAY follows from the geometry and the
instance's MAX_PIXELS (R275). -/
def resetValue (c : Config.Params) (r : Reg) : Nat :=
  match r with
  | .width => 1280
  | .height => 720
  | .maxpay => if geomValid c 1280 720 then maxPayload 1280 720 else 0
  | .cmd | .status | .ctrl | .rwidth | .rheight | .len | .seq | .total | .ck4 | .crc
  | .dSeq | .dTotal | .dChunk | .dSkip | .jSeq | .jTotal | .jRemain | .jNext | .jWidth | .jHeight
  | .einfoA | .einfoB => 0

/-- A step of `s` does not stop. -/
def SafeStep (s : State) : Prop := ∃ t, step s = .next t

end Sys2Proof.Machine
end

