-- ==== Sys2Proof/Certificates/Slice0/Obligations.lean ====
section
/-! DEFINITION. The statements for the provers. Each formalises numbered rules of the spec, named in its
docstring; OBLIGATIONS.json lists them. -/

open Sys2Proof Sys2Proof.Machine

/-! ## Command words (spec/30_encoding.md) -/

/-- R85, R87: the seven command words, written out bit by bit, decode to their commands. -/
def Obligations.CommandWordsDecode : Prop :=
  decode 0b00000000000000000000000000000001#32 = .ok .hck ∧
  decode 0b00000000000000000000000000000010#32 = .ok .crc ∧
  decode 0b00000000000000000000000000000011#32 = .ok .encf ∧
  decode 0b00000000000000000000000000000100#32 = .ok .encb ∧
  decode 0b00000000000000000000000000000101#32 = .ok .encn ∧
  decode 0b00000000000000000000000000000110#32 = .ok .decf ∧
  decode 0b00000000000000000000000000000111#32 = .ok .clr

/-- R86, R87: a word decodes to a command exactly when it is that command's word; no bit is dropped. -/
def Obligations.DecodeAgreesWithEncode : Prop :=
  ∀ (c : Word) (i : Instr), decode c = .ok i ↔ c = encode i

/-- R86, R88, R202: the words that decode to no command are exactly the reserved ones, and each of them
ends with IllegalCommand(c, 0) and changes nothing else. -/
def Obligations.ReservedWordsAreIllegal : Prop :=
  ∀ c : Word, ((∃ e, decode c = .error e) ↔ reservedWord c) ∧
    ∀ s : State, reservedWord c →
      ∃ t, runCommand c s = .next t ∧
        Raised t s .illegalCommand false (statusDvalid s.status) c.toNat 0

/-- R14: every command word, in every state, ends in a next state whose STATUS.ERR is OK or one code of
R241: no third outcome. -/
def Obligations.EveryCommandCompletes : Prop :=
  ∀ (c : Word) (s : State), ∃ t, runCommand c s = .next t ∧ ∃ e, statusErr t.status = errNumber e

/-! ## The step and the host port (spec/10_state.md, spec/20_memory.md) -/

/-- R23, R86: when the host's next access writes a word to CMD and the engine is idle, the step is the
command's meaning on the rest of the script, or the illegal command; with no access left, the step
changes nothing (log 1). -/
def Obligations.StepRunsDecodedCommand : Prop :=
  (∀ (s : State) (c : Word) (rest : List Access) (i : Instr),
    s.script = cmdAccess (c.setWidth 64) :: rest → statusBusy s.status = false →
    decode c = .ok i → step s = exec i { s with script := rest }) ∧
  (∀ (s : State) (c : Word) (rest : List Access) (e : DecodeError),
    s.script = cmdAccess (c.setWidth 64) :: rest → statusBusy s.status = false →
    decode c = .error e → step s = execIllegal c { s with script := rest }) ∧
  (∀ s : State, s.script = [] → step s = .next s)

/-- R72: a read of a register or of an existing cell returns its value, changes nothing of the block,
and gives the same value again. Only the host's own `script` and `rdata` move (log 1, log 2). -/
def Obligations.HostReadsHaveNoSideEffect : Prop :=
  (∀ (s : State) (rest : List Access) (n : BitVec 8),
    s.script = .readReg n :: rest → (statusBusy s.status = false ∨ n = Reg.num .status) →
    ∃ t, step s = .next t ∧ t = { s with script := rest, rdata := readRegNum n s } ∧
      readRegNum n t = readRegNum n s) ∧
  (∀ (s : State) (rest : List Access) (sp : Space) (a : Nat),
    s.script = .readCell sp a :: rest → statusBusy s.status = false → a < sp.size s.cfg →
    ∃ t, step s = .next t ∧ t = { s with script := rest, rdata := readCell sp a s } ∧
      readCell sp a t = readCell sp a s)

/-- R21, R22, R25: a host write of a register of access RW is read back (of CTRL only bit 0), no other
register changes but the derived MAXPAY, and no memory changes. -/
def Obligations.HostWritesRegister : Prop :=
  ∀ (s : State) (rest : List Access) (r : Reg) (v : DWord),
    s.script = .writeReg r.num v :: rest → statusBusy s.status = false →
    r.hostWritable = true → v.toNat < 2 ^ r.bits →
    ∃ t, step s = .next t ∧
      readRegister r t = (if r = .ctrl then v &&& 1#64 else v) ∧
      (∀ q : Reg, q ≠ r → q ≠ .maxpay → readRegister q t = readRegister q s) ∧
      t = { s with ctrl := t.ctrl, width := t.width, height := t.height, rwidth := t.rwidth,
                   rheight := t.rheight, len := t.len, seq := t.seq, total := t.total, script := rest }

/-- R21, R39: a host write of a read-only or derived register, or of a number that names no register,
is ignored; CMD and every number that names no register read 0. -/
def Obligations.IgnoredRegisterWrites : Prop :=
  (∀ (s : State) (rest : List Access) (r : Reg) (v : DWord),
    s.script = .writeReg r.num v :: rest → statusBusy s.status = false →
    r.hostWritable = false → r ≠ .cmd → v.toNat < 2 ^ r.bits →
    step s = .next { s with script := rest }) ∧
  (∀ (s : State) (rest : List Access) (n : BitVec 8) (v : DWord),
    s.script = .writeReg n v :: rest → statusBusy s.status = false → 0x19 ≤ n.toNat →
    step s = .next { s with script := rest }) ∧
  (∀ (s : State) (n : BitVec 8), 0x19 ≤ n.toNat ∨ n = Reg.num .cmd → readRegNum n s = 0#64)

/-- R60, R61: a host write of a cell is read back, and no other cell of any of the four memories, and
no register, changes. -/
def Obligations.HostWritesOneCell : Prop :=
  ∀ (s : State) (rest : List Access) (sp : Space) (a : Nat) (v : DWord),
    s.script = .writeCell sp a v :: rest → statusBusy s.status = false →
    a < sp.size s.cfg → v.toNat < 2 ^ sp.bits →
    ∃ t, step s = .next t ∧ readCell sp a t = v ∧
      (∀ (sp' : Space) (b : Nat), (sp', b) ≠ (sp, a) → readCell sp' b t = readCell sp' b s) ∧
      t = { s with ibuf := t.ibuf, obuf := t.obuf, erast := t.erast, drast := t.drast, script := rest }

/-- R21, R61 (U8), R280 (U7): the accesses the spec has no move for stop by name: a cell index at or
beyond the size of its memory, a value wider than its register or cell, any access but a STATUS read
or reset while BUSY = 1. Each is refused, as U7 and U8 say; the names of the refusals are the model's (log 7, log 8). -/
def Obligations.InexpressibleAccessesStop : Prop :=
  ∀ (s : State) (rest : List Access),
    (statusBusy s.status = false →
      (∀ sp a v, s.script = .writeCell sp a v :: rest → sp.size s.cfg ≤ a →
        step s = .refused .noSuchCell) ∧
      (∀ sp a, s.script = .readCell sp a :: rest → sp.size s.cfg ≤ a → step s = .refused .noSuchCell) ∧
      (∀ sp a v, s.script = .writeCell sp a v :: rest → a < sp.size s.cfg → 2 ^ sp.bits ≤ v.toNat →
        step s = .refused .valueTooWide) ∧
      (∀ r v, s.script = .writeReg (Reg.num r) v :: rest → 2 ^ r.bits ≤ v.toNat →
        step s = .refused .valueTooWide)) ∧
    (statusBusy s.status = true → ∀ x, s.script = x :: rest → x ≠ .reset →
      x ≠ .readReg (Reg.num .status) → step s = .refused .busyAccess)

/-- R31, R37: what the derived registers read, in every state. Where JOB = 1 and the latched geometry is invalid,
which no run reaches (R50 (c)), R11 gives no maxPayload: that J_NEXT takes the difference as 0 there is the
model's choice, DEDUCED (log 11). -/
def Obligations.DerivedRegistersFollow : Prop :=
  ∀ s : State,
    (readRegister .maxpay s).toNat =
      (if s.width.toNat * s.height.toNat ≤ s.cfg.maxPixels ∧ 32 < s.width.toNat * s.height.toNat / 8
       then s.width.toNat * s.height.toNat / 8 - 32 else 0) ∧
    (readRegister .jNext s).toNat =
      (if statusJob s.status = true
       then min (s.jWidth.toNat * s.jHeight.toNat / 8 - 32) s.jRemain.toNat else 0)

/-! ## Reset and the invariant (spec/10_state.md R49, R50, spec/70_reset_and_hazards.md) -/

/-- R22, R49: the value every register reads in the reset state, and that no memory cell has a value of
the model's choosing: each reads as a free value (R271). -/
def Obligations.ResetRegisterValues : Prop :=
  (∀ r : Reg, (readRegister r State.reset).toNat =
    (match r with | .width => 1280 | .height => 720 | .maxpay => 115168 | _ => 0)) ∧
  (∀ a, readIbuf State.reset a = Config.freeIbuf 0 a ∧ readObuf State.reset a = Config.freeObuf 0 a ∧
    readErast State.reset a = Config.freeErast 0 a ∧ readDrast State.reset a = Config.freeDrast 0 a)

/-- R270, R271, R48: the reset input, in every state: every register at its reset value, every memory
cell a new free value, the parameters unchanged. -/
def Obligations.HardwareReset : Prop :=
  ∀ (s : State) (rest : List Access), s.script = .reset :: rest →
    ∃ t, step s = .next t ∧ (∀ r : Reg, (readRegister r t).toNat = resetValue s.cfg r) ∧
      (∀ a, readIbuf t a = Config.freeIbuf (s.draw + 1) a ∧
        readObuf t a = Config.freeObuf (s.draw + 1) a ∧
        readErast t a = Config.freeErast (s.draw + 1) a ∧
        readDrast t a = Config.freeDrast (s.draw + 1) a) ∧
      t.cfg = s.cfg ∧ t.script = rest

/-- R49, R50: the invariant holds at reset. -/
def Obligations.ResetMeetsInvariant : Prop := State.reset.Inv

/-- R50, with R24, R25, R141, R242, R280 and the canonical form of the memories: every step, of the
host or of the engine, keeps the invariant. -/
def Obligations.StepKeepsInvariant : Prop :=
  ∀ s t : State, s.Inv → step s = .next t → t.Inv

/-- R40, R48: no command writes a host-written register, IBUF, DRAST, or a parameter; and none moves
the host's own fields. -/
def Obligations.NoCommandWritesOperands : Prop :=
  ∀ (c : Word) (s t : State), runCommand c s = .next t →
    t.ctrl = s.ctrl ∧ t.width = s.width ∧ t.height = s.height ∧ t.rwidth = s.rwidth ∧
    t.rheight = s.rheight ∧ t.len = s.len ∧ t.seq = s.seq ∧ t.total = s.total ∧
    t.ibuf = s.ibuf ∧ t.drast = s.drast ∧ t.cfg = s.cfg ∧ t.draw = s.draw ∧
    t.script = s.script ∧ t.rdata = s.rdata

/-- R47: no hidden value carries from one command to the next: whatever the hidden state holds before a
command, what the host can observe after it is the same. -/
def Obligations.HiddenStateIsDead : Prop :=
  ∀ (c : Word) (s : State) (hd : Hidden), ∃ t u,
    runCommand c s = .next t ∧ runCommand c { s with hidden := hd } = .next u ∧ t.visible = u.visible

/-- R201: STATUS.ERR, STATUS.SHORT, EINFO_A and EINFO_B after a command describe that command and no
earlier one: their values before it make no difference to anything it leaves. -/
def Obligations.StatusIsNotSticky : Prop :=
  ∀ (c : Word) (s : State) (e : ErrCode) (short : Bool) (a b : DWord), ∃ t,
    runCommand c s = .next t ∧
    runCommand c { s with status := setErr e (setShort short s.status), einfoA := a, einfoB := b } =
      .next t

/-- R247, R248: a command that ends in an error changes STATUS.ERR, STATUS.SHORT and EINFO, and DVALID
only in DECF, which clears it; nothing else the host can observe. SHORT is set only by DECF with
HeaderChecksumMismatch. -/
def Obligations.ErrorsChangeNothingElse : Prop :=
  ∀ (c : Word) (s t : State), runCommand c s = .next t → statusErr t.status ≠ errNumber .ok →
    ∃ e, Raised t.visible s.visible e (statusShort t.status)
      (if decode c = .ok .decf then false else statusDvalid s.status)
      t.einfoA.toNat t.einfoB.toNat ∧
    (statusShort t.status = true → decode c = .ok .decf ∧ e = .headerChecksumMismatch)

/-! ## Checksums (spec/40_checksum.md) -/

/-- R111: the closed form of HeaderChecksum, lane by lane. -/
def Obligations.HeaderChecksumIsLaneXor : Prop :=
  ∀ s : List Byte, (headerChecksum s).length = 4 ∧
    ∀ k, k < 4 → lane (headerChecksum s) k = laneXor s k

/-- R112: a change confined to header offsets `i` with `i mod 4` in {2, 3} leaves `hdrValid` as it is;
a change of a single byte at a covered offset or of a stored checksum byte makes a valid header
invalid. -/
def Obligations.HeaderChecksumCoverage : Prop :=
  (∀ h h' : List Byte, h.length = 32 → h'.length = 32 →
    (∀ i, i < 32 → i % 4 < 2 → h.getD i 0#8 = h'.getD i 0#8) →
    h.getD 30 0#8 = h'.getD 30 0#8 → h.getD 31 0#8 = h'.getD 31 0#8 → hdrValid h = hdrValid h') ∧
  (∀ (h : List Byte) (i : Nat) (b : Byte), h.length = 32 → hdrValid h = true →
    (i < 30 ∧ i % 4 < 2 ∨ i = 30 ∨ i = 31) → b ≠ h.getD i 0#8 → hdrValid (h.set i b) = false)

/-- R115: the bit-at-a-time and the byte-at-a-time form of PayloadChecksum agree on every input. -/
def Obligations.CrcByteFormAgrees : Prop :=
  ∀ s : List Byte, payloadChecksum s = payloadChecksumByBytes s

/-- R117: PayloadChecksum detects every single-bit error. The rule marks this as general knowledge. -/
def Obligations.CrcDetectsSingleBitErrors : Prop :=
  ∀ (s : List Byte) (i k : Nat), i < s.length → k < 8 →
    payloadChecksum (s.modify i (· ^^^ (1#8 <<< k))) ≠ payloadChecksum s

/-- R118, R204, R32: HCK, completing and failing, with its frame. -/
def Obligations.HckResult : Prop :=
  ∀ s : State,
    (s.len.toNat ≤ bufBytes s.cfg →
      ∃ t, exec .hck s = .next t ∧
        t.ck4.extractLsb' 24 8 = laneXor (ibufPrefix s s.len.toNat) 0 ∧
        t.ck4.extractLsb' 16 8 = laneXor (ibufPrefix s s.len.toNat) 1 ∧
        t.ck4.extractLsb' 8 8 = laneXor (ibufPrefix s s.len.toNat) 2 ∧
        t.ck4.extractLsb' 0 8 = laneXor (ibufPrefix s s.len.toNat) 3 ∧
        StatusIs t.status s.status .ok false (statusDvalid s.status) (statusJob s.status)
          (statusLast s.status) ∧
        t = { s with status := t.status, einfoA := 0#64, einfoB := 0#64, ck4 := t.ck4,
                     hidden := t.hidden }) ∧
    (bufBytes s.cfg < s.len.toNat →
      ∃ t, exec .hck s = .next t ∧
        Raised t s .lengthOutOfRange false (statusDvalid s.status) s.len.toNat (bufBytes s.cfg))

/-- R120, R204, R33: CRC, completing and failing, with its frame. -/
def Obligations.CrcResult : Prop :=
  ∀ s : State,
    (s.len.toNat ≤ bufBytes s.cfg →
      ∃ t, exec .crc s = .next t ∧ t.crc = payloadChecksum (ibufPrefix s s.len.toNat) ∧
        StatusIs t.status s.status .ok false (statusDvalid s.status) (statusJob s.status)
          (statusLast s.status) ∧
        t = { s with status := t.status, einfoA := 0#64, einfoB := 0#64, crc := t.crc,
                     hidden := t.hidden }) ∧
    (bufBytes s.cfg < s.len.toNat →
      ∃ t, exec .crc s = .next t ∧
        Raised t s .lengthOutOfRange false (statusDvalid s.status) s.len.toNat (bufBytes s.cfg))

/-! ## Encoder (spec/41_encode.md) -/

/-- R90, R91, R130: a built header has 32 bytes, its fields lie at the offsets of R89 in big-endian
order and parse back to what was put in, and its header checksum is valid. -/
def Obligations.BuiltHeaderParsesBack : Prop :=
  ∀ (magic : Vector Byte 6) (payload : List Byte) (q : Word) (total : DWord),
    payload.length < 2 ^ 32 →
    ∃ h, h = buildHeader magic.toList payload q total ∧ h.length = 32 ∧
      slice h 0 6 = magic.toList ∧
      slice h 6 8 = be 8 total ∧ slice h 14 4 = be 4 q ∧
      slice h 18 4 = be 4 (BitVec.ofNat 32 payload.length) ∧
      slice h 22 8 = be 8 (payloadChecksum payload) ∧
      hdrTotal h = total.toNat ∧ hdrSeq h = q.toNat ∧ hdrChunk h = payload.length ∧
      hdrPayloadCk h = (payloadChecksum payload).toNat ∧ hdrValid h = true

/-- R136, R204: an accepted frame truncates nothing and an accepted length stays inside IBUF. -/
def Obligations.AcceptedFramesFit : Prop :=
  ∀ (c : Config.Params) (w h n : Nat), geomValid c w h = true → n ≤ maxPayload w h →
    8 * (32 + n) ≤ 8 * capBytes w h ∧ 8 * capBytes w h ≤ w * h ∧ n < capBytes w h ∧
      capBytes w h ≤ bufBytes c ∧ 264 ≤ w * h ∧ 1 ≤ maxPayload w h

/-- R134: the mapper's closed form, `R[p] = bit(fb, p)` for `p < min(8*len(fb), w*h)` and 0 for the rest,
in a raster of exactly `w*h` pixels. -/
def Obligations.MapBitsClosedForm : Prop :=
  ∀ (fb : List Byte) (w h : Nat), (mapBits fb w h).length = w * h ∧
    ∀ p, p < w * h →
      (mapBits fb w h).getD p 0#1 = if p < 8 * fb.length then bitAt fb p else 0#1

/-- R138, R132, R45: ENCF on operands it accepts: every cell of the raster, every cell outside it, and
the frame. -/
def Obligations.EncfPaintsFrame : Prop :=
  ∀ s : State, geomValid s.cfg s.width.toNat s.height.toNat = true →
    s.len.toNat ≤ maxPayload s.width.toNat s.height.toNat →
    ∃ t, exec .encf s = .next t ∧
      (∀ p, p < s.width.toNat * s.height.toNat → readErast t p =
        if p < 8 * (32 + s.len.toNat) then
          bitAt (frameBytes s.cfg.magic.toList (ibufPrefix s s.len.toNat) s.seq s.total) p
        else 0#1) ∧
      (∀ p, s.width.toNat * s.height.toNat ≤ p → readErast t p = readErast s p) ∧
      StatusIs t.status s.status .ok false (statusDvalid s.status) (statusJob s.status)
        (statusLast s.status) ∧
      t = { s with status := t.status, einfoA := 0#64, einfoB := 0#64, erast := t.erast,
                   hidden := t.hidden }

/-- R138, R204, R245: ENCF on a length above maxPayload, at a valid geometry. -/
def Obligations.EncfRefusesLongPayload : Prop :=
  ∀ s : State, geomValid s.cfg s.width.toNat s.height.toNat = true →
    maxPayload s.width.toNat s.height.toNat < s.len.toNat →
    ∃ t, exec .encf s = .next t ∧
      Raised t s .lengthOutOfRange false (statusDvalid s.status) s.len.toNat
        (maxPayload s.width.toNat s.height.toNat)

/-- R203, R205: an invalid geometry is reported by ENCF, ENCB and DECF before anything else is checked,
with EINFO_A = WIDTH * 2^16 + HEIGHT and EINFO_B = capBytes; DECF also clears DVALID. -/
def Obligations.InvalidGeometryIsReported : Prop :=
  ∀ s : State, geomValid s.cfg s.width.toNat s.height.toNat = false →
    (∃ t, exec .encf s = .next t ∧ Raised t s .invalidGeometry false (statusDvalid s.status)
      (s.width.toNat * 2 ^ 16 + s.height.toNat) (s.width.toNat * s.height.toNat / 8)) ∧
    (∃ t, exec .encb s = .next t ∧ Raised t s .invalidGeometry false (statusDvalid s.status)
      (s.width.toNat * 2 ^ 16 + s.height.toNat) (s.width.toNat * s.height.toNat / 8)) ∧
    (∃ t, exec .decf s = .next t ∧ Raised t s .invalidGeometry false false
      (s.width.toNat * 2 ^ 16 + s.height.toNat) (s.width.toNat * s.height.toNat / 8))

/-- R142: ENCB on a job it accepts: the latched registers, the flags, J_NEXT, and the frame. -/
def Obligations.EncbBeginsJob : Prop :=
  ∀ s : State, geomValid s.cfg s.width.toNat s.height.toNat = true →
    (s.total.toNat + maxPayload s.width.toNat s.height.toNat - 1) /
      maxPayload s.width.toNat s.height.toNat ≤ 2 ^ 32 →
    ∃ t, exec .encb s = .next t ∧
      StatusIs t.status s.status .ok false (statusDvalid s.status) (decide (0 < s.total.toNat))
        (decide (s.total.toNat = 0)) ∧
      (readRegister .jNext t).toNat = min (maxPayload s.width.toNat s.height.toNat) s.total.toNat ∧
      t = { s with status := t.status, einfoA := 0#64, einfoB := 0#64, jWidth := s.width,
                   jHeight := s.height, jTotal := s.total, jRemain := s.total, jSeq := 0#32 }

/-- R141, R142: ENCB refuses a job of more than 2^32 frames, and the job already active stands. -/
def Obligations.EncbRefusesOverflow : Prop :=
  ∀ s : State, geomValid s.cfg s.width.toNat s.height.toNat = true →
    2 ^ 32 < (s.total.toNat + maxPayload s.width.toNat s.height.toNat - 1) /
      maxPayload s.width.toNat s.height.toNat →
    ∃ t, exec .encb s = .next t ∧
      Raised t s .sequenceOverflow false (statusDvalid s.status) s.total.toNat
        (maxPayload s.width.toNat s.height.toNat * 2 ^ 32)

/-- R145: ENCN with an active job: every cell of the raster, every cell outside it, the job registers
and flags, and the frame. The geometry premise is R50 (c), which `StepKeepsInvariant` states. -/
def Obligations.EncnEncodesNextChunk : Prop :=
  ∀ (s : State) (n : Nat), statusJob s.status = true →
    geomValid s.cfg s.jWidth.toNat s.jHeight.toNat = true →
    n = min (maxPayload s.jWidth.toNat s.jHeight.toNat) s.jRemain.toNat →
    ∃ t, exec .encn s = .next t ∧
      (∀ p, p < s.jWidth.toNat * s.jHeight.toNat → readErast t p =
        if p < 8 * (32 + n) then
          bitAt (frameBytes s.cfg.magic.toList (ibufPrefix s n) s.jSeq s.jTotal) p
        else 0#1) ∧
      (∀ p, s.jWidth.toNat * s.jHeight.toNat ≤ p → readErast t p = readErast s p) ∧
      t.jSeq.toNat = (s.jSeq.toNat + 1) % 2 ^ 32 ∧ t.jRemain.toNat = s.jRemain.toNat - n ∧
      StatusIs t.status s.status .ok false (statusDvalid s.status)
        (decide (0 < s.jRemain.toNat - n)) (decide (s.jRemain.toNat - n = 0)) ∧
      t = { s with status := t.status, einfoA := 0#64, einfoB := 0#64, erast := t.erast,
                   jSeq := t.jSeq, jRemain := t.jRemain, hidden := t.hidden }

/-- R144: ENCN without an active job. -/
def Obligations.EncnNeedsActiveJob : Prop :=
  ∀ s : State, statusJob s.status = false →
    ∃ t, exec .encn s = .next t ∧
      Raised t s .noActiveJob false (statusDvalid s.status) 0 0

/-- R143: what the host writes to WIDTH, HEIGHT, TOTAL, LEN or SEQ after ENCB makes no difference to
ENCN. -/
def Obligations.EncnReadsTheLatch : Prop :=
  ∀ (s : State) (w h : BitVec 16) (total : DWord) (len seq : Word), ∃ t,
    exec .encn s = .next t ∧
    exec .encn { s with width := w, height := h, total := total, len := len, seq := seq } =
      .next { t with width := w, height := h, total := total, len := len, seq := seq }

/-- R140: the chunks of a job, in sequence order, concatenate to the input; none is empty and none is
longer than maxPayload. -/
def Obligations.ChunksReproduceInput : Prop :=
  ∀ (data : List Byte) (m : Nat), 0 < m →
    (List.range (jobFrames data.length m)).flatMap (jobChunk data m) = data ∧
    ∀ k, k < jobFrames data.length m →
      1 ≤ (jobChunk data m k).length ∧ (jobChunk data m k).length ≤ m

/-- R146, R218: the encode job run by the host: for every input that fits, with input and rasters that can
be read and written, it hands over exactly the frames of R140 under their numbers, the job is over, LAST is set,
and a further ENCN fails with NoActiveJob. -/
def Obligations.JobLaw : Prop :=
  ∀ (s : State) (data : List Byte) (w h : BitVec 16), statusBusy s.status = false →
    geomValid s.cfg w.toNat h.toNat = true →
    jobFrames data.length (maxPayload w.toNat h.toNat) ≤ 2 ^ 32 →
    ∃ u, encodeJob .reliable data w h s = (.ok
        ((List.range (jobFrames data.length (maxPayload w.toNat h.toNat))).map (fun k =>
          ⟨BitVec.ofNat 32 k,
            encodeFrame s.cfg.magic.toList (jobChunk data (maxPayload w.toNat h.toNat) k)
              (BitVec.ofNat 32 k) (BitVec.ofNat 64 data.length) w.toNat h.toNat⟩)), u) ∧
      statusJob u.status = false ∧ statusLast u.status = true ∧
      ∃ v, exec .encn u = .next v ∧ statusErr v.status = errNumber .noActiveJob

/-- R218, R142, R243: how an encode job fails, with no frame kept. A missing input, the first frame whose bytes
cannot be read, and the first whose raster cannot be written are fatal, and the block is left as CLR leaves it;
an ENCB that ends in an error fails the job with that error. The model's choices here, DESIGN CHOICE (log 18): the
input is looked for before WIDTH and HEIGHT are written, so a missing one leaves them as they were; the failures
are functions of the frame number; the name rasterError. -/
def Obligations.EncodeJobFailures : Prop :=
  ∀ (io : Collaborators) (s : State) (data : List Byte) (w h : BitVec 16),
    statusBusy s.status = false →
    (io.inputFound = false → ∃ u, encodeJob io data w h s = (.error .pathError, u) ∧
      exec .clr { s with script := [] } = .next u) ∧
    (io.inputFound = true → data.length < 2 ^ 64 →
      (geomValid s.cfg w.toNat h.toNat = false →
        ∃ u, encodeJob io data w h s = (.error (.command (errNumber .invalidGeometry)), u)) ∧
      (geomValid s.cfg w.toNat h.toNat = true →
        2 ^ 32 < jobFrames data.length (maxPayload w.toNat h.toNat) →
        ∃ u, encodeJob io data w h s = (.error (.command (errNumber .sequenceOverflow)), u)) ∧
      (geomValid s.cfg w.toNat h.toNat = true →
        jobFrames data.length (maxPayload w.toNat h.toNat) ≤ 2 ^ 32 →
        ∀ k, k < jobFrames data.length (maxPayload w.toNat h.toNat) →
          (∀ i, i < k → io.readable (BitVec.ofNat 32 i) = true ∧ io.writable (BitVec.ofNat 32 i) = true) →
          (io.readable (BitVec.ofNat 32 k) = false →
            ∃ u, encodeJob io data w h s = (.error .pathError, u) ∧ exec .clr u = .next u ∧
              statusJob u.status = false) ∧
          (io.readable (BitVec.ofNat 32 k) = true → io.writable (BitVec.ofNat 32 k) = false →
            ∃ u, encodeJob io data w h s = (.error .rasterError, u) ∧ exec .clr u = .next u ∧
              statusJob u.status = false)))

/-- R219: the frames of an encode job are those of one ENCF per chunk, with SEQ = k, TOTAL = T and
LEN = len(chunk_k), on any instance with the same parameters and in any order. -/
def Obligations.BothEncodersAgree : Prop :=
  ∀ (s r u : State) (data : List Byte) (w h : BitVec 16) (frames : List EncodedFrame) (ks : List Nat),
    encodeJob .reliable data w h s = (.ok frames, u) →
    statusBusy r.status = false → r.cfg = s.cfg → (∀ k ∈ ks, k < frames.length) →
    ∃ gs t, directJob .reliable data w h ks r = (.ok gs, t) ∧
      gs.map some = ks.map fun k => frames[k]?

/-! ## Decoder (spec/42_decode.md) -/

/-- R161: the classifier is the complement of the sample's most significant bit; 0 to 127 give 1, 128
to 255 give 0. -/
def Obligations.ClassifierThreshold : Prop :=
  ∀ s : Sample, classify s = BitVec.ofBool (!s.getLsbD 7) ∧
    (s.toNat ≤ 127 → classify s = 1#1) ∧ (128 ≤ s.toNat → classify s = 0#1)

/-- R165: the byte stream of a raster, bit by bit. -/
def Obligations.ByteStreamOfRaster : Prop :=
  ∀ d : List Sample, (bytesOf d).length = d.length / 8 ∧
    ∀ k j, k < d.length / 8 → j ≤ 7 →
      ((bytesOf d).getD k 0#8).getLsbD (7 - j) = decide (classify (d.getD (8 * k + j) 0#8) = 1#1)

/-- R18, R168: `find` gives the lowest offset at which the marker occurs, and `none` exactly when there
is no occurrence. -/
def Obligations.FindIsLowestOccurrence : Prop :=
  ∀ m s : List Byte,
    (∀ i, find m s = some i ↔
      (i + m.length ≤ s.length ∧ slice s i m.length = m ∧
        ∀ j, j < i → slice s j m.length ≠ m)) ∧
    (find m s = none ↔ ∀ i, i + m.length ≤ s.length → slice s i m.length ≠ m)

/-- R183, R180, R181: DECF on a valid, matching geometry is `decodeBytes` of the raster's byte stream,
whatever the strictness and with the early stop: the errors with their context and nothing else
changed; on success the payload in OBUF, the four result registers, DVALID, and the frame. -/
def Obligations.DecfIsDecodeBytes : Prop :=
  ∀ s : State, geomValid s.cfg s.width.toNat s.height.toNat = true →
    s.rwidth = s.width → s.rheight = s.height →
    ∃ t, exec .decf s = .next t ∧
      match decodeBytes s.cfg.magic.toList
          (bytesOf (drastPrefix s (s.width.toNat * s.height.toNat))) with
      | .fail e short a b => e ≠ .ok ∧ Raised t.visible s.visible e short false a b
      | .chunk payload q total size skip =>
        payload.length = size ∧
        (∀ a, a < size → readObuf t a = payload.getD a 0#8) ∧
        (∀ a, size ≤ a → readObuf t a = readObuf s a) ∧
        t.dSeq.toNat = q ∧ t.dTotal.toNat = total ∧ t.dChunk.toNat = size ∧ t.dSkip.toNat = skip ∧
        StatusIs t.status s.status .ok false true (statusJob s.status) (statusLast s.status) ∧
        t = { s with status := t.status, einfoA := 0#64, einfoB := 0#64, obuf := t.obuf,
                     dSeq := t.dSeq, dTotal := t.dTotal, dChunk := t.dChunk, dSkip := t.dSkip,
                     hidden := t.hidden }

/-- R162, R163, R246: DECF reports a dimension mismatch when either dimension differs, after the
geometry check and before any pixel is read. -/
def Obligations.DecfRejectsOtherDimensions : Prop :=
  ∀ s : State, geomValid s.cfg s.width.toNat s.height.toNat = true →
    (s.rwidth ≠ s.width ∨ s.rheight ≠ s.height) →
    ∃ t, exec .decf s = .next t ∧ Raised t s .dimensionMismatch false false
      (s.width.toNat * 2 ^ 16 + s.height.toNat) (s.rwidth.toNat * 2 ^ 16 + s.rheight.toNat)

/-- R184: the two strictness policies give the same result for every raster. -/
def Obligations.StrictnessIsUnobservable : Prop :=
  ∀ s : State, ∃ t u, exec .decf { s with ctrl := 0#32 } = .next t ∧
    exec .decf { s with ctrl := 1#32 } = .next u ∧ { u with ctrl := 0#32 }.visible = t.visible

/-- R160: no state of an earlier decode, encode or checksum command influences a DECF: with other
values in every block-written register and in IBUF, OBUF and ERAST it ends in the same status and
context, and, when it succeeds, with the same results. -/
def Obligations.DecfIsIndependentOfTheRest : Prop :=
  ∀ s r : State, r.width = s.width → r.height = s.height → r.rwidth = s.rwidth →
    r.rheight = s.rheight → r.ctrl = s.ctrl → r.drast = s.drast → r.draw = s.draw → r.cfg = s.cfg →
    ∃ t u, exec .decf s = .next t ∧ exec .decf r = .next u ∧
      statusErr t.status = statusErr u.status ∧ statusShort t.status = statusShort u.status ∧
      statusDvalid t.status = statusDvalid u.status ∧
      t.einfoA = u.einfoA ∧ t.einfoB = u.einfoB ∧
      (statusErr t.status = errNumber .ok →
        t.dSeq = u.dSeq ∧ t.dTotal = u.dTotal ∧ t.dChunk = u.dChunk ∧ t.dSkip = u.dSkip ∧
        obufPrefix t t.dChunk.toNat = obufPrefix u u.dChunk.toNat)

/-- R50 (d), R187: after a DECF that leaves DVALID set, header, payload and skipped bytes fit the
raster. -/
def Obligations.DecodedFrameFitsRaster : Prop :=
  ∀ s t : State, exec .decf s = .next t → statusDvalid t.status = true →
    t.dChunk.toNat + t.dSkip.toNat + 32 ≤ capBytes s.width.toNat s.height.toNat

/-- R188: the single-frame round trip through the ideal channel. -/
def Obligations.SingleFrameRoundTrip : Prop :=
  ∀ (s : State) (payload : List Byte) (q : Word) (total : DWord),
    geomValid s.cfg s.width.toNat s.height.toNat = true →
    s.rwidth = s.width → s.rheight = s.height →
    payload.length ≤ maxPayload s.width.toNat s.height.toNat →
    drastPrefix s (s.width.toNat * s.height.toNat) =
      ideal (encodeFrame s.cfg.magic.toList payload q total s.width.toNat s.height.toNat) →
    ∃ t, exec .decf s = .next t ∧ statusErr t.status = errNumber .ok ∧
      statusDvalid t.status = true ∧ obufPrefix t payload.length = payload ∧
      t.dChunk.toNat = payload.length ∧ t.dSeq = q ∧ t.dTotal = total ∧ t.dSkip = 0#32

/-- R185, R187: a frame displaced by whole bytes, cut off at the end of the raster: when no earlier
marker is found it decodes exactly when it still fits, and is InvalidChunkSize when its header fits
and its payload does not. -/
def Obligations.DisplacedFrameDecodesIfItFits : Prop :=
  ∀ (magic : Vector Byte 6) (noise payload rest : List Byte) (q : Word) (total : DWord) (cap : Nat),
    payload.length < 2 ^ 32 →
    (noise ++ frameBytes magic.toList payload q total ++ rest).length ≥ cap →
    noise.length + 32 ≤ cap →
    find magic.toList (noise ++ frameBytes magic.toList payload q total) = some noise.length →
    decodeBytes magic.toList ((noise ++ frameBytes magic.toList payload q total ++ rest).take cap) =
      if noise.length + 32 + payload.length ≤ cap then
        .chunk payload q.toNat total.toNat payload.length noise.length
      else .fail .invalidChunkSize false payload.length (cap - noise.length - 32)

/-- R189: header corruption the decoder does not detect: bytes 6, 7, 10, 11, 14 and 15 of a frame may
hold anything, and the decode succeeds with the right payload. -/
def Obligations.UncoveredHeaderBytesPass : Prop :=
  ∀ (magic : Vector Byte 6) (payload rest : List Byte) (q : Word) (total : DWord) (h : List Byte),
    payload.length < 2 ^ 32 → h.length = 32 →
    (∀ i, i < 32 → i ∉ [6, 7, 10, 11, 14, 15] →
      h.getD i 0#8 = (buildHeader magic.toList payload q total).getD i 0#8) →
    decodeBytes magic.toList (h ++ payload ++ rest) =
      .chunk payload (hdrSeq h) (hdrTotal h) payload.length 0

/-! ## System (spec/43_system.md) -/

/-- R200: CLR: every block-written register 0, the derived registers, everything else as it was, and a
second CLR changes nothing. -/
def Obligations.ClrClearsResults : Prop :=
  ∀ s : State, ∃ t, exec .clr s = .next t ∧
    t.status = 0#32 ∧ t.ck4 = 0#32 ∧ t.crc = 0#64 ∧ t.dSeq = 0#32 ∧ t.dTotal = 0#64 ∧
    t.dChunk = 0#32 ∧ t.dSkip = 0#32 ∧ t.jSeq = 0#32 ∧ t.jTotal = 0#64 ∧ t.jRemain = 0#64 ∧
    t.jWidth = 0#16 ∧ t.jHeight = 0#16 ∧ t.einfoA = 0#64 ∧ t.einfoB = 0#64 ∧
    readRegister .jNext t = 0#64 ∧ readRegister .maxpay t = readRegister .maxpay s ∧
    (∀ r : Reg, r.hostWritable = true → readRegister r t = readRegister r s) ∧
    (∀ (sp : Space) (a : Nat), readCell sp a t = readCell sp a s) ∧
    t.hidden = s.hidden ∧ t.cfg = s.cfg ∧ t.draw = s.draw ∧ t.script = s.script ∧ t.rdata = s.rdata ∧
    exec .clr t = .next t

/-! ## The host contract (spec/45_host_job_contract.md) -/

/-- R216, R217: a tolerable delivery of a raster has the byte stream of the ideal one, and the ideal
channel is itself tolerable and loses no bit. -/
def Obligations.TolerableChannelLosesNothing : Prop :=
  (∀ (r : List Ink) (d : List Sample), tolerable r d = true → bytesOf d = bytesOf (ideal r)) ∧
  (∀ r : List Ink, tolerable r (ideal r) = true ∧ (ideal r).map classify = r)

/-- R228: feeding the assembler the same chunk twice is feeding it once. -/
def Obligations.FeedingTwiceIsFeedingOnce : Prop :=
  ∀ (a : Assembler) (c : Chunk), asmFeed (asmFeed a c) c = asmFeed a c

/-- R229, R228: the output does not depend on the order of the feeds or on duplicates, when all chunks
carry one totalSize and no two different chunks share a sequence. -/
def Obligations.AssemblyIsOrderIndependent : Prop :=
  ∀ (gapCheck : Bool) (cs ds : List Chunk), (∀ c, c ∈ cs ↔ c ∈ ds) →
    (∀ c ∈ cs, ∀ d ∈ cs, c.totalSize = d.totalSize) →
    (∀ c ∈ cs, ∀ d ∈ cs, c.sequence = d.sequence → c = d) →
    asmFinish gapCheck (cs.foldl asmFeed Assembler.empty) =
      asmFinish gapCheck (ds.foldl asmFeed Assembler.empty)

/-- R223, R224, R230: reconstructing a job from some but not all of its chunks fails with
IncompleteReconstruction, naming totalSize and the shorter length. -/
def Obligations.MissingFrameFails : Prop :=
  ∀ (data : List Byte) (m : Nat) (ks : List Nat), 0 < m → data.length < 2 ^ 64 →
    jobFrames data.length m ≤ 2 ^ 32 → ks ≠ [] → (∀ k ∈ ks, k < jobFrames data.length m) →
    (∃ k, k < jobFrames data.length m ∧ k ∉ ks) →
    ∃ actual, actual < data.length ∧
      actual = (((List.range (jobFrames data.length m)).filter (· ∈ ks)).flatMap
        (jobChunk data m)).length ∧
      asmFinish false ((ks.map fun k => (⟨BitVec.ofNat 32 k, jobChunk data m k,
          BitVec.ofNat 64 data.length⟩ : Chunk)).foldl asmFeed Assembler.empty) =
        .error (.incompleteReconstruction data.length actual)

/-- R227, R221: the round trip of a whole byte stream, encoded by one block and decoded by any block with the
same parameters, through any tolerable channel, in any order, with any duplicates and among any rasters that
DECF rejects, which are dropped, whatever checks the host makes; and the empty stream, whose decode job fails
with NoValidFrames. -/
def Obligations.ByteStreamRoundTrip : Prop :=
  ∀ (s : State) (data : List Byte) (w h : BitVec 16), statusBusy s.status = false →
    geomValid s.cfg w.toNat h.toNat = true →
    jobFrames data.length (maxPayload w.toNat h.toNat) ≤ 2 ^ 32 →
    ∃ frames u, encodeJob .reliable data w h s = (.ok frames, u) ∧
      ∀ (v : State) (rs : List Raster) (o : HostOptions),
        statusBusy v.status = false → v.cfg = s.cfg →
        tolerableChannel s.cfg.magic.toList w h (frames.map (·.ink)) rs →
        decodeJob o w h rs v = some (if data = [] then .error .noValidFrames else .ok data)

/-- R286, R222: what the host's two checks exclude, whatever chunks are fed. With the sequence check every accepted
sequence is below ceil(D_TOTAL / maxPayload) of some chunk that carried it; with the comparison of totalSize a
job that goes on has met one totalSize in every chunk it did not drop; with neither check feeding is asm_feed.
That an implausible chunk is dropped and a disagreement fails the job is the model's choice (log 19). -/
def Obligations.HostChecksExclude : Prop :=
  ∀ (o : HostOptions) (m : Nat) (cs : List Chunk),
    (o.sequenceCheck = false → o.totalCheck = false →
      cs.foldlM (feedChecked o m) Assembler.empty = .ok (cs.foldl asmFeed Assembler.empty)) ∧
    (∀ a, cs.foldlM (feedChecked o m) Assembler.empty = .ok a →
      (o.sequenceCheck = true → ∀ q ∈ a.seen, ∃ c ∈ cs, c.sequence = q ∧
        q.toNat < (c.totalSize.toNat + m - 1) / m) ∧
      (o.totalCheck = true → ∀ c ∈ cs,
        (o.sequenceCheck = true → c.sequence.toNat < (c.totalSize.toNat + m - 1) / m) →
        a.totalSize = some c.totalSize))

/-- U17, 90_conflicts.md C4: a host that encodes an empty input as one empty frame gets the empty stream back
through any tolerable channel; with the sequence check of R286, taken to the letter, that frame is dropped, since
no sequence is below ceil(0 / maxPayload). Any other input is encoded as without the option. The option is one
of the treatments C4 names, off by default (log 19). -/
def Obligations.EmptyFrameOption : Prop :=
  ∀ (o : HostOptions) (s : State) (data : List Byte) (w h : BitVec 16), o.emptyFrame = true →
    (data ≠ [] → encodeJobWith o .reliable data w h s = encodeJob .reliable data w h s) ∧
    (statusBusy s.status = false → geomValid s.cfg w.toNat h.toNat = true →
      ∃ f u, encodeJobWith o .reliable [] w h s = (.ok [f], u) ∧
        ∀ (v : State) (rs : List Raster), statusBusy v.status = false → v.cfg = s.cfg →
          tolerableChannel s.cfg.magic.toList w h [f.ink] rs →
          decodeJob o w h rs v = some (if o.sequenceCheck then .error .noValidFrames else .ok []))
end

