-- ==== Sys2Proof/Laws/State.lean ====
section
/-! SUPPORT. One lemma per field per update of the state, each true by rfl, so that no later proof unfolds
a record update: for the prologue, for raise, for the frame painter, for hardware reset, for the visible
part, and for the scan's updates of the hidden state. -/

namespace Sys2Proof.Machine

@[simp] theorem prologue_status (s : State) : (prologue s).status = setShort false (setErr .ok s.status) := rfl
@[simp] theorem prologue_ctrl (s : State) : (prologue s).ctrl = s.ctrl := rfl
@[simp] theorem prologue_width (s : State) : (prologue s).width = s.width := rfl
@[simp] theorem prologue_height (s : State) : (prologue s).height = s.height := rfl
@[simp] theorem prologue_rwidth (s : State) : (prologue s).rwidth = s.rwidth := rfl
@[simp] theorem prologue_rheight (s : State) : (prologue s).rheight = s.rheight := rfl
@[simp] theorem prologue_len (s : State) : (prologue s).len = s.len := rfl
@[simp] theorem prologue_seq (s : State) : (prologue s).seq = s.seq := rfl
@[simp] theorem prologue_total (s : State) : (prologue s).total = s.total := rfl
@[simp] theorem prologue_ck4 (s : State) : (prologue s).ck4 = s.ck4 := rfl
@[simp] theorem prologue_crc (s : State) : (prologue s).crc = s.crc := rfl
@[simp] theorem prologue_dSeq (s : State) : (prologue s).dSeq = s.dSeq := rfl
@[simp] theorem prologue_dTotal (s : State) : (prologue s).dTotal = s.dTotal := rfl
@[simp] theorem prologue_dChunk (s : State) : (prologue s).dChunk = s.dChunk := rfl
@[simp] theorem prologue_dSkip (s : State) : (prologue s).dSkip = s.dSkip := rfl
@[simp] theorem prologue_jSeq (s : State) : (prologue s).jSeq = s.jSeq := rfl
@[simp] theorem prologue_jTotal (s : State) : (prologue s).jTotal = s.jTotal := rfl
@[simp] theorem prologue_jRemain (s : State) : (prologue s).jRemain = s.jRemain := rfl
@[simp] theorem prologue_jWidth (s : State) : (prologue s).jWidth = s.jWidth := rfl
@[simp] theorem prologue_jHeight (s : State) : (prologue s).jHeight = s.jHeight := rfl
@[simp] theorem prologue_einfoA (s : State) : (prologue s).einfoA = 0#64 := rfl
@[simp] theorem prologue_einfoB (s : State) : (prologue s).einfoB = 0#64 := rfl
@[simp] theorem prologue_ibuf (s : State) : (prologue s).ibuf = s.ibuf := rfl
@[simp] theorem prologue_obuf (s : State) : (prologue s).obuf = s.obuf := rfl
@[simp] theorem prologue_erast (s : State) : (prologue s).erast = s.erast := rfl
@[simp] theorem prologue_drast (s : State) : (prologue s).drast = s.drast := rfl
@[simp] theorem prologue_hidden (s : State) : (prologue s).hidden = s.hidden := rfl
@[simp] theorem prologue_cfg (s : State) : (prologue s).cfg = s.cfg := rfl
@[simp] theorem prologue_draw (s : State) : (prologue s).draw = s.draw := rfl
@[simp] theorem prologue_script (s : State) : (prologue s).script = s.script := rfl
@[simp] theorem prologue_rdata (s : State) : (prologue s).rdata = s.rdata := rfl

@[simp] theorem raise_status (e : ErrCode) (a b : Nat) (s : State) : (raise e a b s).status = setErr e s.status := rfl
@[simp] theorem raise_ctrl (e : ErrCode) (a b : Nat) (s : State) : (raise e a b s).ctrl = s.ctrl := rfl
@[simp] theorem raise_width (e : ErrCode) (a b : Nat) (s : State) : (raise e a b s).width = s.width := rfl
@[simp] theorem raise_height (e : ErrCode) (a b : Nat) (s : State) : (raise e a b s).height = s.height := rfl
@[simp] theorem raise_rwidth (e : ErrCode) (a b : Nat) (s : State) : (raise e a b s).rwidth = s.rwidth := rfl
@[simp] theorem raise_rheight (e : ErrCode) (a b : Nat) (s : State) : (raise e a b s).rheight = s.rheight := rfl
@[simp] theorem raise_len (e : ErrCode) (a b : Nat) (s : State) : (raise e a b s).len = s.len := rfl
@[simp] theorem raise_seq (e : ErrCode) (a b : Nat) (s : State) : (raise e a b s).seq = s.seq := rfl
@[simp] theorem raise_total (e : ErrCode) (a b : Nat) (s : State) : (raise e a b s).total = s.total := rfl
@[simp] theorem raise_ck4 (e : ErrCode) (a b : Nat) (s : State) : (raise e a b s).ck4 = s.ck4 := rfl
@[simp] theorem raise_crc (e : ErrCode) (a b : Nat) (s : State) : (raise e a b s).crc = s.crc := rfl
@[simp] theorem raise_dSeq (e : ErrCode) (a b : Nat) (s : State) : (raise e a b s).dSeq = s.dSeq := rfl
@[simp] theorem raise_dTotal (e : ErrCode) (a b : Nat) (s : State) : (raise e a b s).dTotal = s.dTotal := rfl
@[simp] theorem raise_dChunk (e : ErrCode) (a b : Nat) (s : State) : (raise e a b s).dChunk = s.dChunk := rfl
@[simp] theorem raise_dSkip (e : ErrCode) (a b : Nat) (s : State) : (raise e a b s).dSkip = s.dSkip := rfl
@[simp] theorem raise_jSeq (e : ErrCode) (a b : Nat) (s : State) : (raise e a b s).jSeq = s.jSeq := rfl
@[simp] theorem raise_jTotal (e : ErrCode) (a b : Nat) (s : State) : (raise e a b s).jTotal = s.jTotal := rfl
@[simp] theorem raise_jRemain (e : ErrCode) (a b : Nat) (s : State) : (raise e a b s).jRemain = s.jRemain := rfl
@[simp] theorem raise_jWidth (e : ErrCode) (a b : Nat) (s : State) : (raise e a b s).jWidth = s.jWidth := rfl
@[simp] theorem raise_jHeight (e : ErrCode) (a b : Nat) (s : State) : (raise e a b s).jHeight = s.jHeight := rfl
@[simp] theorem raise_einfoA (e : ErrCode) (a b : Nat) (s : State) : (raise e a b s).einfoA = BitVec.ofNat 64 a := rfl
@[simp] theorem raise_einfoB (e : ErrCode) (a b : Nat) (s : State) : (raise e a b s).einfoB = BitVec.ofNat 64 b := rfl
@[simp] theorem raise_ibuf (e : ErrCode) (a b : Nat) (s : State) : (raise e a b s).ibuf = s.ibuf := rfl
@[simp] theorem raise_obuf (e : ErrCode) (a b : Nat) (s : State) : (raise e a b s).obuf = s.obuf := rfl
@[simp] theorem raise_erast (e : ErrCode) (a b : Nat) (s : State) : (raise e a b s).erast = s.erast := rfl
@[simp] theorem raise_drast (e : ErrCode) (a b : Nat) (s : State) : (raise e a b s).drast = s.drast := rfl
@[simp] theorem raise_hidden (e : ErrCode) (a b : Nat) (s : State) : (raise e a b s).hidden = s.hidden := rfl
@[simp] theorem raise_cfg (e : ErrCode) (a b : Nat) (s : State) : (raise e a b s).cfg = s.cfg := rfl
@[simp] theorem raise_draw (e : ErrCode) (a b : Nat) (s : State) : (raise e a b s).draw = s.draw := rfl
@[simp] theorem raise_script (e : ErrCode) (a b : Nat) (s : State) : (raise e a b s).script = s.script := rfl
@[simp] theorem raise_rdata (e : ErrCode) (a b : Nat) (s : State) : (raise e a b s).rdata = s.rdata := rfl

@[simp] theorem paintFrame_status (s : State) (pl : List Byte) (q : Word) (tot : DWord) (w h : Nat) :
    (paintFrame s pl q tot w h).status = s.status := rfl
@[simp] theorem paintFrame_ctrl (s : State) (pl : List Byte) (q : Word) (tot : DWord) (w h : Nat) :
    (paintFrame s pl q tot w h).ctrl = s.ctrl := rfl
@[simp] theorem paintFrame_width (s : State) (pl : List Byte) (q : Word) (tot : DWord) (w h : Nat) :
    (paintFrame s pl q tot w h).width = s.width := rfl
@[simp] theorem paintFrame_height (s : State) (pl : List Byte) (q : Word) (tot : DWord) (w h : Nat) :
    (paintFrame s pl q tot w h).height = s.height := rfl
@[simp] theorem paintFrame_rwidth (s : State) (pl : List Byte) (q : Word) (tot : DWord) (w h : Nat) :
    (paintFrame s pl q tot w h).rwidth = s.rwidth := rfl
@[simp] theorem paintFrame_rheight (s : State) (pl : List Byte) (q : Word) (tot : DWord) (w h : Nat) :
    (paintFrame s pl q tot w h).rheight = s.rheight := rfl
@[simp] theorem paintFrame_len (s : State) (pl : List Byte) (q : Word) (tot : DWord) (w h : Nat) :
    (paintFrame s pl q tot w h).len = s.len := rfl
@[simp] theorem paintFrame_seq (s : State) (pl : List Byte) (q : Word) (tot : DWord) (w h : Nat) :
    (paintFrame s pl q tot w h).seq = s.seq := rfl
@[simp] theorem paintFrame_total (s : State) (pl : List Byte) (q : Word) (tot : DWord) (w h : Nat) :
    (paintFrame s pl q tot w h).total = s.total := rfl
@[simp] theorem paintFrame_ck4 (s : State) (pl : List Byte) (q : Word) (tot : DWord) (w h : Nat) :
    (paintFrame s pl q tot w h).ck4 = s.ck4 := rfl
@[simp] theorem paintFrame_crc (s : State) (pl : List Byte) (q : Word) (tot : DWord) (w h : Nat) :
    (paintFrame s pl q tot w h).crc = s.crc := rfl
@[simp] theorem paintFrame_dSeq (s : State) (pl : List Byte) (q : Word) (tot : DWord) (w h : Nat) :
    (paintFrame s pl q tot w h).dSeq = s.dSeq := rfl
@[simp] theorem paintFrame_dTotal (s : State) (pl : List Byte) (q : Word) (tot : DWord) (w h : Nat) :
    (paintFrame s pl q tot w h).dTotal = s.dTotal := rfl
@[simp] theorem paintFrame_dChunk (s : State) (pl : List Byte) (q : Word) (tot : DWord) (w h : Nat) :
    (paintFrame s pl q tot w h).dChunk = s.dChunk := rfl
@[simp] theorem paintFrame_dSkip (s : State) (pl : List Byte) (q : Word) (tot : DWord) (w h : Nat) :
    (paintFrame s pl q tot w h).dSkip = s.dSkip := rfl
@[simp] theorem paintFrame_jSeq (s : State) (pl : List Byte) (q : Word) (tot : DWord) (w h : Nat) :
    (paintFrame s pl q tot w h).jSeq = s.jSeq := rfl
@[simp] theorem paintFrame_jTotal (s : State) (pl : List Byte) (q : Word) (tot : DWord) (w h : Nat) :
    (paintFrame s pl q tot w h).jTotal = s.jTotal := rfl
@[simp] theorem paintFrame_jRemain (s : State) (pl : List Byte) (q : Word) (tot : DWord) (w h : Nat) :
    (paintFrame s pl q tot w h).jRemain = s.jRemain := rfl
@[simp] theorem paintFrame_jWidth (s : State) (pl : List Byte) (q : Word) (tot : DWord) (w h : Nat) :
    (paintFrame s pl q tot w h).jWidth = s.jWidth := rfl
@[simp] theorem paintFrame_jHeight (s : State) (pl : List Byte) (q : Word) (tot : DWord) (w h : Nat) :
    (paintFrame s pl q tot w h).jHeight = s.jHeight := rfl
@[simp] theorem paintFrame_einfoA (s : State) (pl : List Byte) (q : Word) (tot : DWord) (w h : Nat) :
    (paintFrame s pl q tot w h).einfoA = s.einfoA := rfl
@[simp] theorem paintFrame_einfoB (s : State) (pl : List Byte) (q : Word) (tot : DWord) (w h : Nat) :
    (paintFrame s pl q tot w h).einfoB = s.einfoB := rfl
@[simp] theorem paintFrame_ibuf (s : State) (pl : List Byte) (q : Word) (tot : DWord) (w h : Nat) :
    (paintFrame s pl q tot w h).ibuf = s.ibuf := rfl
@[simp] theorem paintFrame_obuf (s : State) (pl : List Byte) (q : Word) (tot : DWord) (w h : Nat) :
    (paintFrame s pl q tot w h).obuf = s.obuf := rfl
@[simp] theorem paintFrame_drast (s : State) (pl : List Byte) (q : Word) (tot : DWord) (w h : Nat) :
    (paintFrame s pl q tot w h).drast = s.drast := rfl
@[simp] theorem paintFrame_cfg (s : State) (pl : List Byte) (q : Word) (tot : DWord) (w h : Nat) :
    (paintFrame s pl q tot w h).cfg = s.cfg := rfl
@[simp] theorem paintFrame_draw (s : State) (pl : List Byte) (q : Word) (tot : DWord) (w h : Nat) :
    (paintFrame s pl q tot w h).draw = s.draw := rfl
@[simp] theorem paintFrame_script (s : State) (pl : List Byte) (q : Word) (tot : DWord) (w h : Nat) :
    (paintFrame s pl q tot w h).script = s.script := rfl
@[simp] theorem paintFrame_rdata (s : State) (pl : List Byte) (q : Word) (tot : DWord) (w h : Nat) :
    (paintFrame s pl q tot w h).rdata = s.rdata := rfl
@[simp] theorem paintFrame_erast (s : State) (pl : List Byte) (q : Word) (tot : DWord) (w h : Nat) :
    (paintFrame s pl q tot w h).erast = Memory.writePrefix s.erast (encodeFrame s.cfg.magic.toList pl q tot w h) := rfl

@[simp] theorem hardReset_status (s : State) : (hardReset s).status = State.reset.status := rfl
@[simp] theorem hardReset_ctrl (s : State) : (hardReset s).ctrl = State.reset.ctrl := rfl
@[simp] theorem hardReset_width (s : State) : (hardReset s).width = State.reset.width := rfl
@[simp] theorem hardReset_height (s : State) : (hardReset s).height = State.reset.height := rfl
@[simp] theorem hardReset_rwidth (s : State) : (hardReset s).rwidth = State.reset.rwidth := rfl
@[simp] theorem hardReset_rheight (s : State) : (hardReset s).rheight = State.reset.rheight := rfl
@[simp] theorem hardReset_len (s : State) : (hardReset s).len = State.reset.len := rfl
@[simp] theorem hardReset_seq (s : State) : (hardReset s).seq = State.reset.seq := rfl
@[simp] theorem hardReset_total (s : State) : (hardReset s).total = State.reset.total := rfl
@[simp] theorem hardReset_ck4 (s : State) : (hardReset s).ck4 = State.reset.ck4 := rfl
@[simp] theorem hardReset_crc (s : State) : (hardReset s).crc = State.reset.crc := rfl
@[simp] theorem hardReset_dSeq (s : State) : (hardReset s).dSeq = State.reset.dSeq := rfl
@[simp] theorem hardReset_dTotal (s : State) : (hardReset s).dTotal = State.reset.dTotal := rfl
@[simp] theorem hardReset_dChunk (s : State) : (hardReset s).dChunk = State.reset.dChunk := rfl
@[simp] theorem hardReset_dSkip (s : State) : (hardReset s).dSkip = State.reset.dSkip := rfl
@[simp] theorem hardReset_jSeq (s : State) : (hardReset s).jSeq = State.reset.jSeq := rfl
@[simp] theorem hardReset_jTotal (s : State) : (hardReset s).jTotal = State.reset.jTotal := rfl
@[simp] theorem hardReset_jRemain (s : State) : (hardReset s).jRemain = State.reset.jRemain := rfl
@[simp] theorem hardReset_jWidth (s : State) : (hardReset s).jWidth = State.reset.jWidth := rfl
@[simp] theorem hardReset_jHeight (s : State) : (hardReset s).jHeight = State.reset.jHeight := rfl
@[simp] theorem hardReset_einfoA (s : State) : (hardReset s).einfoA = State.reset.einfoA := rfl
@[simp] theorem hardReset_einfoB (s : State) : (hardReset s).einfoB = State.reset.einfoB := rfl
@[simp] theorem hardReset_ibuf (s : State) : (hardReset s).ibuf = State.reset.ibuf := rfl
@[simp] theorem hardReset_obuf (s : State) : (hardReset s).obuf = State.reset.obuf := rfl
@[simp] theorem hardReset_erast (s : State) : (hardReset s).erast = State.reset.erast := rfl
@[simp] theorem hardReset_drast (s : State) : (hardReset s).drast = State.reset.drast := rfl
@[simp] theorem hardReset_hidden (s : State) : (hardReset s).hidden = s.hidden := rfl
@[simp] theorem hardReset_cfg (s : State) : (hardReset s).cfg = s.cfg := rfl
@[simp] theorem hardReset_draw (s : State) : (hardReset s).draw = s.draw + 1 := rfl
@[simp] theorem hardReset_script (s : State) : (hardReset s).script = s.script := rfl
@[simp] theorem hardReset_rdata (s : State) : (hardReset s).rdata = s.rdata := rfl

@[simp] theorem visible_status (s : State) : (s.visible).status = s.status := rfl
@[simp] theorem visible_ctrl (s : State) : (s.visible).ctrl = s.ctrl := rfl
@[simp] theorem visible_width (s : State) : (s.visible).width = s.width := rfl
@[simp] theorem visible_height (s : State) : (s.visible).height = s.height := rfl
@[simp] theorem visible_rwidth (s : State) : (s.visible).rwidth = s.rwidth := rfl
@[simp] theorem visible_rheight (s : State) : (s.visible).rheight = s.rheight := rfl
@[simp] theorem visible_len (s : State) : (s.visible).len = s.len := rfl
@[simp] theorem visible_seq (s : State) : (s.visible).seq = s.seq := rfl
@[simp] theorem visible_total (s : State) : (s.visible).total = s.total := rfl
@[simp] theorem visible_ck4 (s : State) : (s.visible).ck4 = s.ck4 := rfl
@[simp] theorem visible_crc (s : State) : (s.visible).crc = s.crc := rfl
@[simp] theorem visible_dSeq (s : State) : (s.visible).dSeq = s.dSeq := rfl
@[simp] theorem visible_dTotal (s : State) : (s.visible).dTotal = s.dTotal := rfl
@[simp] theorem visible_dChunk (s : State) : (s.visible).dChunk = s.dChunk := rfl
@[simp] theorem visible_dSkip (s : State) : (s.visible).dSkip = s.dSkip := rfl
@[simp] theorem visible_jSeq (s : State) : (s.visible).jSeq = s.jSeq := rfl
@[simp] theorem visible_jTotal (s : State) : (s.visible).jTotal = s.jTotal := rfl
@[simp] theorem visible_jRemain (s : State) : (s.visible).jRemain = s.jRemain := rfl
@[simp] theorem visible_jWidth (s : State) : (s.visible).jWidth = s.jWidth := rfl
@[simp] theorem visible_jHeight (s : State) : (s.visible).jHeight = s.jHeight := rfl
@[simp] theorem visible_einfoA (s : State) : (s.visible).einfoA = s.einfoA := rfl
@[simp] theorem visible_einfoB (s : State) : (s.visible).einfoB = s.einfoB := rfl
@[simp] theorem visible_ibuf (s : State) : (s.visible).ibuf = s.ibuf := rfl
@[simp] theorem visible_obuf (s : State) : (s.visible).obuf = s.obuf := rfl
@[simp] theorem visible_erast (s : State) : (s.visible).erast = s.erast := rfl
@[simp] theorem visible_drast (s : State) : (s.visible).drast = s.drast := rfl
@[simp] theorem visible_hidden (s : State) : (s.visible).hidden = Hidden.idle := rfl
@[simp] theorem visible_cfg (s : State) : (s.visible).cfg = s.cfg := rfl
@[simp] theorem visible_draw (s : State) : (s.visible).draw = s.draw := rfl
@[simp] theorem visible_script (s : State) : (s.visible).script = s.script := rfl
@[simp] theorem visible_rdata (s : State) : (s.visible).rdata = s.rdata := rfl

@[simp] theorem takeSample_fbuf (hd : Hidden) (d : Sample) : (takeSample hd d).fbuf = hd.fbuf := rfl
@[simp] theorem takeSample_acc (hd : Hidden) (d : Sample) : (takeSample hd d).acc = pushBit hd.acc (classify d) := rfl
@[simp] theorem takeSample_nb (hd : Hidden) (d : Sample) : (takeSample hd d).nb = hd.nb + 1 := rfl
@[simp] theorem takeSample_p (hd : Hidden) (d : Sample) : (takeSample hd d).p = hd.p + 1 := rfl
@[simp] theorem takeSample_skip (hd : Hidden) (d : Sample) : (takeSample hd d).skip = hd.skip := rfl
@[simp] theorem takeSample_crcReg (hd : Hidden) (d : Sample) : (takeSample hd d).crcReg = hd.crcReg := rfl
@[simp] theorem takeSample_lanes (hd : Hidden) (d : Sample) : (takeSample hd d).lanes = hd.lanes := rfl
@[simp] theorem takeSample_hdr (hd : Hidden) (d : Sample) : (takeSample hd d).hdr = hd.hdr := rfl

@[simp] theorem appendByte_fbuf (hd : Hidden) : (appendByte hd).fbuf = hd.fbuf ++ [hd.acc] := rfl
@[simp] theorem appendByte_acc (hd : Hidden) : (appendByte hd).acc = 0#8 := rfl
@[simp] theorem appendByte_nb (hd : Hidden) : (appendByte hd).nb = 0 := rfl
@[simp] theorem appendByte_p (hd : Hidden) : (appendByte hd).p = hd.p := rfl
@[simp] theorem appendByte_skip (hd : Hidden) : (appendByte hd).skip = hd.skip := rfl
@[simp] theorem appendByte_crcReg (hd : Hidden) : (appendByte hd).crcReg = hd.crcReg := rfl
@[simp] theorem appendByte_lanes (hd : Hidden) : (appendByte hd).lanes = hd.lanes := rfl
@[simp] theorem appendByte_hdr (hd : Hidden) : (appendByte hd).hdr = hd.hdr := rfl

@[simp] theorem discard_fbuf (hd : Hidden) (i : Nat) : (discard hd i).fbuf = hd.fbuf.drop i := rfl
@[simp] theorem discard_acc (hd : Hidden) (i : Nat) : (discard hd i).acc = hd.acc := rfl
@[simp] theorem discard_nb (hd : Hidden) (i : Nat) : (discard hd i).nb = hd.nb := rfl
@[simp] theorem discard_p (hd : Hidden) (i : Nat) : (discard hd i).p = hd.p := rfl
@[simp] theorem discard_skip (hd : Hidden) (i : Nat) : (discard hd i).skip = hd.skip + i := rfl
@[simp] theorem discard_crcReg (hd : Hidden) (i : Nat) : (discard hd i).crcReg = hd.crcReg := rfl
@[simp] theorem discard_lanes (hd : Hidden) (i : Nat) : (discard hd i).lanes = hd.lanes := rfl
@[simp] theorem discard_hdr (hd : Hidden) (i : Nat) : (discard hd i).hdr = hd.hdr := rfl

/-- Two states are equal when every field is. -/
@[ext] theorem State.ext_fields {s t : State}
    (h_status : s.status = t.status)
    (h_ctrl : s.ctrl = t.ctrl)
    (h_width : s.width = t.width)
    (h_height : s.height = t.height)
    (h_rwidth : s.rwidth = t.rwidth)
    (h_rheight : s.rheight = t.rheight)
    (h_len : s.len = t.len)
    (h_seq : s.seq = t.seq)
    (h_total : s.total = t.total)
    (h_ck4 : s.ck4 = t.ck4)
    (h_crc : s.crc = t.crc)
    (h_dSeq : s.dSeq = t.dSeq)
    (h_dTotal : s.dTotal = t.dTotal)
    (h_dChunk : s.dChunk = t.dChunk)
    (h_dSkip : s.dSkip = t.dSkip)
    (h_jSeq : s.jSeq = t.jSeq)
    (h_jTotal : s.jTotal = t.jTotal)
    (h_jRemain : s.jRemain = t.jRemain)
    (h_jWidth : s.jWidth = t.jWidth)
    (h_jHeight : s.jHeight = t.jHeight)
    (h_einfoA : s.einfoA = t.einfoA)
    (h_einfoB : s.einfoB = t.einfoB)
    (h_ibuf : s.ibuf = t.ibuf)
    (h_obuf : s.obuf = t.obuf)
    (h_erast : s.erast = t.erast)
    (h_drast : s.drast = t.drast)
    (h_hidden : s.hidden = t.hidden)
    (h_cfg : s.cfg = t.cfg)
    (h_draw : s.draw = t.draw)
    (h_script : s.script = t.script)
    (h_rdata : s.rdata = t.rdata) : s = t := by
  cases s; cases t
  exact State.mk.injEq .. ▸ ⟨h_status, h_ctrl, h_width, h_height, h_rwidth, h_rheight, h_len, h_seq, h_total,
    h_ck4, h_crc, h_dSeq, h_dTotal, h_dChunk, h_dSkip, h_jSeq, h_jTotal, h_jRemain,
    h_jWidth, h_jHeight, h_einfoA, h_einfoB, h_ibuf, h_obuf, h_erast, h_drast,
    h_hidden, h_cfg, h_draw, h_script, h_rdata⟩

end Sys2Proof.Machine
end

