-- ==== Sys2Proof/Laws/Bits.lean ====
section
/-! SUPPORT. Bit and byte order and the search `find`: the laws later proofs cite. -/

namespace Sys2Proof.Machine

/-! Byte order, slices, the bit stream (R16, R17). -/

@[simp] theorem length_be (n : Nat) {w : Nat} (v : BitVec w) : (be n v).length = n := by simp [be]

theorem be_succ (n : Nat) {w : Nat} (v : BitVec w) :
    be (n + 1) v = be n (v >>> 8) ++ [v.extractLsb' 0 8] := by
  simp only [be, List.range_succ, List.map_append, List.map_cons, List.map_nil]
  congr 1
  · apply List.map_congr_left
    intro i hi
    have hi : i < n := by simpa using hi
    apply BitVec.eq_of_getLsbD_eq
    intro j hj
    simp only [BitVec.getLsbD_extractLsb', BitVec.getLsbD_ushiftRight]
    congr 2; omega
  · simp

theorem fromBe_append_singleton (s : List Byte) (b : Byte) :
    fromBe (s ++ [b]) = fromBe s * 256 + b.toNat := by simp [fromBe]

theorem fromBe_be (n : Nat) {w : Nat} (v : BitVec w) : fromBe (be n v) = v.toNat % 2 ^ (8 * n) := by
  induction n generalizing v with
  | zero => simp [be, fromBe, Nat.mod_one]
  | succ n ih =>
    rw [be_succ, fromBe_append_singleton, ih, BitVec.toNat_ushiftRight, BitVec.extractLsb'_toNat]
    have e : 2 ^ (8 * (n + 1)) = 256 * 2 ^ (8 * n) := by
      rw [show 8 * (n + 1) = 8 + 8 * n by omega, Nat.pow_add]
    rw [e, Nat.mod_mul, Nat.shiftRight_eq_div_pow]
    simp only [Nat.shiftRight_zero]
    norm_num; ring

theorem fromBe_lt (s : List Byte) : fromBe s < 256 ^ s.length := by
  induction s using List.reverseRecOn with
  | nil => simp [fromBe]
  | append_singleton s b ih =>
    rw [fromBe_append_singleton, List.length_append, List.length_singleton, Nat.pow_succ]
    have := b.isLt
    omega

/-! Header fields are big-endian in D2VFC (R8, R66). -/

@[simp] theorem fieldBytes_eq (n : Nat) {w : Nat} (v : BitVec w) : fieldBytes n v = be n v := rfl

@[simp] theorem fieldValue_eq (s : List Byte) : fieldValue s = fromBe s := rfl

theorem length_slice (s : List Byte) (a n : Nat) : (slice s a n).length = min n (s.length - a) := by
  simp [slice]

theorem getD_slice (s : List Byte) (a n i : Nat) (d : Byte) :
    (slice s a n).getD i d = if i < n then s.getD (a + i) d else d := by
  simp only [slice, List.getD_eq_getElem?_getD, List.getElem?_take, List.getElem?_drop]
  split <;> rfl

theorem slice_append_left {s : List Byte} (t : List Byte) {a n : Nat} (h : a + n ≤ s.length) :
    slice (s ++ t) a n = slice s a n := by
  unfold slice
  rw [List.drop_append_of_le_length (by omega), List.take_append_of_le_length (by simp; omega)]

theorem slice_append_right (s t : List Byte) (a n : Nat) :
    slice (s ++ t) (s.length + a) n = slice t a n := by
  unfold slice
  rw [List.drop_append, List.drop_eq_nil_of_le (by omega)]
  simp

theorem slice_self {s : List Byte} {n : Nat} (h : s.length = n) : slice s 0 n = s := by
  simp [slice, ← h]

theorem slice_take {s : List Byte} {a n k : Nat} (h : a + n ≤ k) : slice (s.take k) a n = slice s a n := by
  unfold slice
  rw [List.drop_take, List.take_take, Nat.min_eq_left (by omega)]

/-- Byte sequences of one length are equal when every byte is. -/
theorem ext_getD {s t : List Byte} (hl : s.length = t.length)
    (h : ∀ i, i < s.length → s.getD i 0#8 = t.getD i 0#8) : s = t := by
  apply List.ext_getElem hl
  intro i h1 h2
  simpa [List.getD_eq_getElem?_getD, h1, h2] using h i h1

@[simp] theorem length_byteBits (b : Byte) : (byteBits b).length = 8 := rfl

@[simp] theorem length_bitStream (s : List Byte) : (bitStream s).length = 8 * s.length := by
  induction s with
  | nil => rfl
  | cons b t ih => simp only [bitStream, List.flatMap_cons, List.length_append, length_byteBits,
      List.length_cons] at ih ⊢; omega

theorem bitStream_cons (b : Byte) (t : List Byte) : bitStream (b :: t) = byteBits b ++ bitStream t := rfl

theorem byteBits_getD (b : Byte) {p : Nat} (hp : p < 8) :
    (byteBits b).getD p 0#1 = BitVec.ofBool (b.getLsbD (7 - p)) := by
  interval_cases p <;> rfl

/-- The bit stream read at a position is the bit of R16. -/
theorem bitStream_getD (s : List Byte) {p : Nat} (hp : p < 8 * s.length) :
    (bitStream s).getD p 0#1 = bitAt s p := by
  induction s generalizing p with
  | nil => simp at hp
  | cons b t ih =>
    rw [bitStream_cons]
    by_cases h : p < 8
    · rw [List.getD_append _ _ _ _ (by simpa using h), byteBits_getD b h, bitAt,
        Nat.div_eq_of_lt h, Nat.mod_eq_of_lt h]
      rfl
    · rw [List.getD_append_right _ _ _ _ (by simpa using h), length_byteBits,
        ih (by simp at hp; omega), bitAt, bitAt]
      have e : p / 8 = (p - 8) / 8 + 1 := by omega
      have e2 : p % 8 = (p - 8) % 8 := by omega
      rw [e, e2, List.getD_cons_succ]

theorem packByte_byteBits (b : Byte) : packByte (byteBits b) = b := by
  revert b; decide +kernel

/-! The search `find` (R18). -/

theorem find_cons (m : List Byte) (b : Byte) (t : List Byte) :
    find m (b :: t) = if m.isPrefixOf (b :: t) then some 0 else (find m t).map (· + 1) := rfl

theorem find_of_prefix {m s : List Byte} (h : m <+: s) : find m s = some 0 := by
  have h' : m.isPrefixOf s = true := List.isPrefixOf_iff_prefix.mpr h
  cases s with
  | nil => rw [find, h']; rfl
  | cons b t => rw [find_cons, h']; rfl

/-- The marker stands at the offset `find` gives. -/
theorem prefix_drop_of_find {m s : List Byte} {i : Nat} (h : find m s = some i) : m <+: s.drop i := by
  induction s generalizing i with
  | nil =>
    unfold find at h
    split at h
    · rename_i hp
      simp at h; subst h
      exact List.isPrefixOf_iff_prefix.mp hp
    · simp at h
  | cons b t ih =>
    rw [find_cons] at h
    split at h
    · rename_i hp
      simp at h; subst h
      exact List.isPrefixOf_iff_prefix.mp hp
    · cases hf : find m t with
      | none => simp [hf] at h
      | some j =>
        simp [hf] at h; subst h
        simpa using ih hf

theorem find_le {m s : List Byte} {i : Nat} (h : find m s = some i) : i + m.length ≤ s.length ∨ m = [] := by
  have hp := (prefix_drop_of_find h).length_le
  rw [List.length_drop] at hp
  by_cases hm : m = []
  · exact Or.inr hm
  · have : 0 < m.length := List.length_pos_of_ne_nil hm
    left; omega

/-- No offset below the one `find` gives holds the marker. -/
theorem not_prefix_of_lt_find {m s : List Byte} {i j : Nat} (h : find m s = some i) (hj : j < i) :
    ¬ m <+: s.drop j := by
  induction s generalizing i j with
  | nil =>
    unfold find at h
    split at h
    · simp at h; omega
    · simp at h
  | cons b t ih =>
    rw [find_cons] at h
    split at h
    · simp at h; omega
    · rename_i hp
      cases hf : find m t with
      | none => simp [hf] at h
      | some k =>
        simp [hf] at h; subst h
        cases j with
        | zero => rw [List.drop_zero]; exact fun hc => hp (List.isPrefixOf_iff_prefix.mpr hc)
        | succ j => simpa using ih hf (by omega)

theorem not_prefix_of_find_none {m s : List Byte} (h : find m s = none) (j : Nat) : ¬ m <+: s.drop j := by
  induction s generalizing j with
  | nil =>
    unfold find at h
    split at h
    · simp at h
    · rename_i hp
      rw [List.drop_nil]; exact fun hc => hp (List.isPrefixOf_iff_prefix.mpr hc)
  | cons b t ih =>
    rw [find_cons] at h
    split at h
    · simp at h
    · rename_i hp
      cases hf : find m t with
      | some k => simp [hf] at h
      | none =>
        cases j with
        | zero => rw [List.drop_zero]; exact fun hc => hp (List.isPrefixOf_iff_prefix.mpr hc)
        | succ j => simpa using ih hf j

theorem find_eq_some {m s : List Byte} {i : Nat} (hp : m <+: s.drop i)
    (hl : ∀ j, j < i → ¬ m <+: s.drop j) : find m s = some i := by
  cases h : find m s with
  | none => exact absurd hp (not_prefix_of_find_none h i)
  | some k =>
    congr 1
    rcases Nat.lt_trichotomy k i with h1 | h1 | h1
    · exact absurd (prefix_drop_of_find h) (hl k h1)
    · exact h1
    · exact absurd hp (not_prefix_of_lt_find h h1)

theorem find_eq_none {m s : List Byte} (hl : ∀ j, ¬ m <+: s.drop j) : find m s = none := by
  cases h : find m s with
  | none => rfl
  | some k => exact absurd (prefix_drop_of_find h) (hl k)

/-- What is found stays found, at the same offset, when bytes are appended. -/
theorem find_append_of_some {m s : List Byte} (t : List Byte) {i : Nat} (h : find m s = some i) (hm : m ≠ []) :
    find m (s ++ t) = some i := by
  have hle : i + m.length ≤ s.length := (find_le h).resolve_right hm
  have hpos : 0 < m.length := List.length_pos_of_ne_nil hm
  refine find_eq_some ?_ ?_
  · rw [List.drop_append_of_le_length (by omega)]
    exact (prefix_drop_of_find h).trans (List.prefix_append _ _)
  · intro j hj hc
    rw [List.drop_append_of_le_length (by omega)] at hc
    refine not_prefix_of_lt_find h hj ?_
    exact List.prefix_of_prefix_length_le hc (List.prefix_append _ _) (by rw [List.length_drop]; omega)

/-- After the bytes before the marker are discarded the marker is at offset 0. -/
theorem find_drop_of_find {m s : List Byte} {i : Nat} (h : find m s = some i) : find m (s.drop i) = some 0 :=
  find_of_prefix (prefix_drop_of_find h)

theorem find_short {m s : List Byte} (h : s.length < m.length) : find m s = none :=
  find_eq_none fun j hp => by have := hp.length_le; rw [List.length_drop] at this; omega

end Sys2Proof.Machine
end

