-- ==== Sys2Proof/Laws/Checksum.lean ====
section
/-! SUPPORT. The checksum primitives. -/

namespace Sys2Proof.Machine

/-! The four XOR lanes (R110). -/

@[simp] theorem length_foldLanes (i : Nat) (sum s : List Byte) : (foldLanes i sum s).length = sum.length := by
  induction s generalizing i sum with
  | nil => rfl
  | cons b t ih => simp [foldLanes, ih]

@[simp] theorem length_headerChecksum (s : List Byte) : (headerChecksum s).length = 4 := by
  simp [headerChecksum]

@[simp] theorem length_storedChecksum (s : List Byte) : (storedChecksum s).length = 2 := by
  simp [storedChecksum]

theorem format_headerSize : format.headerSize = 32 := rfl
theorem format_hckStored : format.hckStored = 2 := rfl
theorem format_hckLanes : format.hckLanes = 4 := rfl

/-- Lane `k` after the loop from index `i`: its value before, xored with the bytes whose index is `k`
modulo 4. -/
theorem getD_foldLanes (s : List Byte) (i : Nat) (sum : List Byte) (hs : sum.length = 4) {k : Nat} (hk : k < 4) :
    (foldLanes i sum s).getD k 0#8 =
      ((List.range s.length).filter fun j => (i + j) % 4 = k).foldl (fun x j => x ^^^ s.getD j 0#8) (sum.getD k 0#8) := by
  induction s generalizing i sum with
  | nil => simp [foldLanes]
  | cons b t ih =>
    rw [foldLanes, ih _ _ (by simpa using hs), List.length_cons, List.range_succ_eq_map, List.filter_cons,
      format_hckLanes]
    have hmap : (List.map Nat.succ (List.range t.length)).filter (fun j => decide ((i + j) % 4 = k))
        = ((List.range t.length).filter fun j => decide ((i + 1 + j) % 4 = k)).map Nat.succ := by
      rw [List.filter_map]
      congr 1
      apply List.filter_congr
      intro j _
      simp only [Function.comp, Nat.succ_eq_add_one]
      rw [show i + (j + 1) = i + 1 + j by omega]
    rw [hmap]
    by_cases h : i % 4 = k
    · simp only [Nat.add_zero, h, decide_true, if_true, List.foldl_cons, List.foldl_map, List.getD_cons_zero,
        Nat.succ_eq_add_one, List.getD_cons_succ]
      congr 1
      have : k < sum.length := by omega
      simp [List.getD_eq_getElem?_getD, this]
    · simp only [Nat.add_zero, h, decide_false, Bool.false_eq_true, if_false, List.foldl_map, 
        Nat.succ_eq_add_one, List.getD_cons_succ]
      congr 1
      simp [List.getD_eq_getElem?_getD, h]

/-! The CRC register (R114, R115): linear, and one byte is injective. -/

theorem crcBit_xor (r r' : DWord) (d d' : Bool) :
    crcBit (r ^^^ r') (d ^^ d') = crcBit r d ^^^ crcBit r' d' := by
  unfold crcBit
  rw [BitVec.getLsbD_xor, BitVec.shiftLeft_xor_distrib]
  generalize r.getLsbD 63 = x
  generalize r'.getLsbD 63 = y
  generalize r <<< 1 = u
  generalize r' <<< 1 = v
  generalize format.crcPoly = p
  have h1 : u ^^^ v ^^^ p = u ^^^ p ^^^ v := by ac_rfl
  have h2 : u ^^^ v ^^^ p = u ^^^ (v ^^^ p) := by ac_rfl
  have h3 : u ^^^ v = u ^^^ p ^^^ (v ^^^ p) := by
    rw [show u ^^^ p ^^^ (v ^^^ p) = u ^^^ v ^^^ (p ^^^ p) by ac_rfl]; simp
  cases x <;> cases y <;> cases d <;> cases d' <;> simp <;> first | exact h1 | exact h2 | exact h3

theorem crcByte_xor (r r' : DWord) (b b' : Byte) :
    crcByte (r ^^^ r') (b ^^^ b') = crcByte r b ^^^ crcByte r' b' := by
  simp only [crcByte, List.foldl_cons, List.foldl_nil, BitVec.getLsbD_xor, crcBit_xor]

/-- One reduction of R115 is one bit of R114 with data bit 0. -/
theorem crcByteWhole_eq (r : DWord) (b : Byte) :
    crcByteWhole r b = crcByte (r ^^^ (b.setWidth 64 <<< 56)) 0#8 := by
  simp only [crcByteWhole, crcByte, crcBit, BitVec.getLsbD_zero, Bool.xor_false]
  rfl

theorem crcByteWhole_zero (b : Byte) : crcByte (b.setWidth 64 <<< 56) 0#8 = crcByte 0#64 b := by
  revert b; decide +kernel

/-- The two forms of one byte agree. -/
theorem crcByte_eq_whole (r : DWord) (b : Byte) : crcByte r b = crcByteWhole r b := by
  have h := crcByte_xor r 0#64 0#8 b
  have h2 := crcByte_xor r (b.setWidth 64 <<< 56) 0#8 0#8
  simp only [BitVec.xor_zero, BitVec.zero_xor] at h h2
  rw [crcByteWhole_eq, h2, crcByteWhole_zero, h]

theorem crcBit_zero_injective {r : DWord} (h : crcBit r false = 0#64) : r = 0#64 := by
  unfold crcBit at h
  have hb : ∀ i, i < 63 → r.getLsbD 63 = false → r.getLsbD i = false := by
    intro i hi hm
    rw [hm] at h
    have := congrArg (fun v => v.getLsbD (i + 1)) h
    rw [BitVec.getLsbD_eq_getElem (by omega)]
    simpa [BitVec.getLsbD_shiftLeft, show i + 1 < 64 by omega] using this
  by_cases hm : r.getLsbD 63 = true
  · rw [hm] at h
    have := congrArg (fun v => v.getLsbD 0) h
    simp at this
  · have hm : r.getLsbD 63 = false := by simpa using hm
    apply BitVec.eq_of_getLsbD_eq
    intro i hi
    rw [BitVec.getLsbD_zero]
    by_cases h63 : i = 63
    · rw [h63]; exact hm
    · exact hb i (by omega) hm

theorem crcByte_zero_injective {r : DWord} (h : crcByte r 0#8 = 0#64) : r = 0#64 := by
  simp only [crcByte, List.foldl_cons, List.foldl_nil, BitVec.getLsbD_zero] at h
  exact crcBit_zero_injective (crcBit_zero_injective (crcBit_zero_injective (crcBit_zero_injective
    (crcBit_zero_injective (crcBit_zero_injective (crcBit_zero_injective (crcBit_zero_injective h)))))))

/-- Different registers stay different over one byte. -/
theorem crcByte_injective {r r' : DWord} {b : Byte} (h : crcByte r b = crcByte r' b) : r = r' := by
  have hx := crcByte_xor r r' b b
  rw [h, BitVec.xor_self, BitVec.xor_self] at hx
  exact (BitVec.xor_eq_zero_iff).mp (crcByte_zero_injective hx)

theorem foldl_crcByte_injective (s : List Byte) {r r' : DWord} (h : s.foldl crcByte r = s.foldl crcByte r') :
    r = r' := by
  induction s generalizing r r' with
  | nil => exact h
  | cons b t ih => exact crcByte_injective (ih h)

end Sys2Proof.Machine
end

