-- ==== Sys2Proof/Laws/Flags.lean ====
section
/-! SUPPORT. The fields of STATUS and CTRL: what each update leaves in each field. Later proofs cite
these and do not unfold the masks. -/

namespace Sys2Proof.Machine

theorem getLsbD_bitMask {k i : Nat} : (1#32 <<< k).getLsbD i = (decide (i = k) && decide (k < 32)) := by
  rw [BitVec.getLsbD_shiftLeft, BitVec.getLsbD_one]
  by_cases h : i = k
  · subst h; simp
  · by_cases h1 : i < k
    · simp [h, h1]
    · have : i - k ≠ 0 := by omega
      simp [h, this]

theorem getLsbD_setBitField (k i : Nat) (b : Bool) (w : Word) :
    (setBitField k b w).getLsbD i = if i = k ∧ k < 32 then b else w.getLsbD i := by
  by_cases hi : i < 32
  · cases b
    · simp only [setBitField, Bool.false_eq_true, if_false, BitVec.getLsbD_and, BitVec.getLsbD_not,
        getLsbD_bitMask, hi, decide_true, Bool.true_and]
      by_cases h : i = k ∧ k < 32
      · simp [h.1, h.2]
      · rw [if_neg h]
        have : (decide (i = k) && decide (k < 32)) = false := by
          simpa using fun e => Nat.le_of_not_lt fun l => h ⟨e, l⟩
        simp [this]
    · simp only [setBitField, if_true, BitVec.getLsbD_or, getLsbD_bitMask]
      by_cases h : i = k ∧ k < 32
      · simp [h.1, h.2]
      · rw [if_neg h]
        have : (decide (i = k) && decide (k < 32)) = false := by
          simpa using fun e => Nat.le_of_not_lt fun l => h ⟨e, l⟩
        simp [this]
  · have h2 : ¬(i = k ∧ k < 32) := by omega
    rw [if_neg h2, BitVec.getLsbD_of_ge _ _ (by omega), BitVec.getLsbD_of_ge _ _ (by omega)]

theorem getLsbD_errMask (i : Nat) :
    (0xFFFFFFF0#32).getLsbD i = (decide (4 ≤ i) && decide (i < 32)) := by
  by_cases hi : i < 32
  · interval_cases i <;> rfl
  · rw [BitVec.getLsbD_of_ge _ _ (by omega)]; simp [hi]

theorem getLsbD_setErr (e : ErrCode) (w : Word) (i : Nat) :
    (setErr e w).getLsbD i = if i < 4 then (errNumber e).getLsbD i else w.getLsbD i := by
  simp only [setErr, BitVec.getLsbD_or, BitVec.getLsbD_and, getLsbD_errMask, BitVec.getLsbD_setWidth]
  by_cases h4 : i < 4
  · have : i < 32 := by omega
    simp [h4, this, Nat.not_le.mpr h4]
  · rw [BitVec.getLsbD_of_ge (errNumber e) _ (by omega)]
    by_cases hi : i < 32
    · simp [h4, hi, Nat.le_of_not_lt h4]
    · rw [BitVec.getLsbD_of_ge w _ (by omega)]; simp [h4]

/-- A word is known by its bits. -/
theorem word_ext {v w : Word} (h : ∀ i, i < 32 → v.getLsbD i = w.getLsbD i) : v = w :=
  BitVec.eq_of_getLsbD_eq h

theorem getLsbD_statusErr (w : Word) (i : Nat) :
    (statusErr w).getLsbD i = (decide (i < 4) && w.getLsbD i) := by
  rw [statusErr, BitVec.getLsbD_extractLsb', Nat.zero_add]

theorem statusErr_congr {v w : Word} (h : ∀ i, i < 4 → v.getLsbD i = w.getLsbD i) :
    statusErr v = statusErr w :=
  BitVec.eq_of_getLsbD_eq fun i hi => by rw [getLsbD_statusErr, getLsbD_statusErr, h i hi]

@[simp] theorem statusErr_setErr (e : ErrCode) (w : Word) : statusErr (setErr e w) = errNumber e :=
  BitVec.eq_of_getLsbD_eq fun i hi => by
    rw [getLsbD_statusErr, getLsbD_setErr, if_pos hi, decide_eq_true hi, Bool.true_and]

theorem statusErr_setBitField {k : Nat} (hk : 4 ≤ k) (b : Bool) (w : Word) :
    statusErr (setBitField k b w) = statusErr w :=
  statusErr_congr fun i hi => by rw [getLsbD_setBitField, if_neg (by omega)]

@[simp] theorem statusErr_setDvalid (b : Bool) (w : Word) : statusErr (setDvalid b w) = statusErr w :=
  statusErr_setBitField (by omega) b w
@[simp] theorem statusErr_setJob (b : Bool) (w : Word) : statusErr (setJob b w) = statusErr w :=
  statusErr_setBitField (by omega) b w
@[simp] theorem statusErr_setLast (b : Bool) (w : Word) : statusErr (setLast b w) = statusErr w :=
  statusErr_setBitField (by omega) b w
@[simp] theorem statusErr_setBusy (b : Bool) (w : Word) : statusErr (setBusy b w) = statusErr w :=
  statusErr_setBitField (by omega) b w
@[simp] theorem statusErr_setShort (b : Bool) (w : Word) : statusErr (setShort b w) = statusErr w :=
  statusErr_setBitField (by omega) b w
@[simp] theorem statusDvalid_setErr (e : ErrCode) (w : Word) : statusDvalid (setErr e w) = statusDvalid w := by
  rw [statusDvalid, bitField, getLsbD_setErr, if_neg (by omega)]; rfl
@[simp] theorem statusDvalid_setDvalid (b : Bool) (w : Word) : statusDvalid (setDvalid b w) = b := by
  rw [statusDvalid, bitField, setDvalid, getLsbD_setBitField, if_pos (by omega)]
@[simp] theorem statusDvalid_setJob (b : Bool) (w : Word) : statusDvalid (setJob b w) = statusDvalid w := by
  rw [statusDvalid, bitField, setJob, getLsbD_setBitField, if_neg (by omega)]; rfl
@[simp] theorem statusDvalid_setLast (b : Bool) (w : Word) : statusDvalid (setLast b w) = statusDvalid w := by
  rw [statusDvalid, bitField, setLast, getLsbD_setBitField, if_neg (by omega)]; rfl
@[simp] theorem statusDvalid_setBusy (b : Bool) (w : Word) : statusDvalid (setBusy b w) = statusDvalid w := by
  rw [statusDvalid, bitField, setBusy, getLsbD_setBitField, if_neg (by omega)]; rfl
@[simp] theorem statusDvalid_setShort (b : Bool) (w : Word) : statusDvalid (setShort b w) = statusDvalid w := by
  rw [statusDvalid, bitField, setShort, getLsbD_setBitField, if_neg (by omega)]; rfl
@[simp] theorem statusJob_setErr (e : ErrCode) (w : Word) : statusJob (setErr e w) = statusJob w := by
  rw [statusJob, bitField, getLsbD_setErr, if_neg (by omega)]; rfl
@[simp] theorem statusJob_setDvalid (b : Bool) (w : Word) : statusJob (setDvalid b w) = statusJob w := by
  rw [statusJob, bitField, setDvalid, getLsbD_setBitField, if_neg (by omega)]; rfl
@[simp] theorem statusJob_setJob (b : Bool) (w : Word) : statusJob (setJob b w) = b := by
  rw [statusJob, bitField, setJob, getLsbD_setBitField, if_pos (by omega)]
@[simp] theorem statusJob_setLast (b : Bool) (w : Word) : statusJob (setLast b w) = statusJob w := by
  rw [statusJob, bitField, setLast, getLsbD_setBitField, if_neg (by omega)]; rfl
@[simp] theorem statusJob_setBusy (b : Bool) (w : Word) : statusJob (setBusy b w) = statusJob w := by
  rw [statusJob, bitField, setBusy, getLsbD_setBitField, if_neg (by omega)]; rfl
@[simp] theorem statusJob_setShort (b : Bool) (w : Word) : statusJob (setShort b w) = statusJob w := by
  rw [statusJob, bitField, setShort, getLsbD_setBitField, if_neg (by omega)]; rfl
@[simp] theorem statusLast_setErr (e : ErrCode) (w : Word) : statusLast (setErr e w) = statusLast w := by
  rw [statusLast, bitField, getLsbD_setErr, if_neg (by omega)]; rfl
@[simp] theorem statusLast_setDvalid (b : Bool) (w : Word) : statusLast (setDvalid b w) = statusLast w := by
  rw [statusLast, bitField, setDvalid, getLsbD_setBitField, if_neg (by omega)]; rfl
@[simp] theorem statusLast_setJob (b : Bool) (w : Word) : statusLast (setJob b w) = statusLast w := by
  rw [statusLast, bitField, setJob, getLsbD_setBitField, if_neg (by omega)]; rfl
@[simp] theorem statusLast_setLast (b : Bool) (w : Word) : statusLast (setLast b w) = b := by
  rw [statusLast, bitField, setLast, getLsbD_setBitField, if_pos (by omega)]
@[simp] theorem statusLast_setBusy (b : Bool) (w : Word) : statusLast (setBusy b w) = statusLast w := by
  rw [statusLast, bitField, setBusy, getLsbD_setBitField, if_neg (by omega)]; rfl
@[simp] theorem statusLast_setShort (b : Bool) (w : Word) : statusLast (setShort b w) = statusLast w := by
  rw [statusLast, bitField, setShort, getLsbD_setBitField, if_neg (by omega)]; rfl
@[simp] theorem statusBusy_setErr (e : ErrCode) (w : Word) : statusBusy (setErr e w) = statusBusy w := by
  rw [statusBusy, bitField, getLsbD_setErr, if_neg (by omega)]; rfl
@[simp] theorem statusBusy_setDvalid (b : Bool) (w : Word) : statusBusy (setDvalid b w) = statusBusy w := by
  rw [statusBusy, bitField, setDvalid, getLsbD_setBitField, if_neg (by omega)]; rfl
@[simp] theorem statusBusy_setJob (b : Bool) (w : Word) : statusBusy (setJob b w) = statusBusy w := by
  rw [statusBusy, bitField, setJob, getLsbD_setBitField, if_neg (by omega)]; rfl
@[simp] theorem statusBusy_setLast (b : Bool) (w : Word) : statusBusy (setLast b w) = statusBusy w := by
  rw [statusBusy, bitField, setLast, getLsbD_setBitField, if_neg (by omega)]; rfl
@[simp] theorem statusBusy_setBusy (b : Bool) (w : Word) : statusBusy (setBusy b w) = b := by
  rw [statusBusy, bitField, setBusy, getLsbD_setBitField, if_pos (by omega)]
@[simp] theorem statusBusy_setShort (b : Bool) (w : Word) : statusBusy (setShort b w) = statusBusy w := by
  rw [statusBusy, bitField, setShort, getLsbD_setBitField, if_neg (by omega)]; rfl
@[simp] theorem statusShort_setErr (e : ErrCode) (w : Word) : statusShort (setErr e w) = statusShort w := by
  rw [statusShort, bitField, getLsbD_setErr, if_neg (by omega)]; rfl
@[simp] theorem statusShort_setDvalid (b : Bool) (w : Word) : statusShort (setDvalid b w) = statusShort w := by
  rw [statusShort, bitField, setDvalid, getLsbD_setBitField, if_neg (by omega)]; rfl
@[simp] theorem statusShort_setJob (b : Bool) (w : Word) : statusShort (setJob b w) = statusShort w := by
  rw [statusShort, bitField, setJob, getLsbD_setBitField, if_neg (by omega)]; rfl
@[simp] theorem statusShort_setLast (b : Bool) (w : Word) : statusShort (setLast b w) = statusShort w := by
  rw [statusShort, bitField, setLast, getLsbD_setBitField, if_neg (by omega)]; rfl
@[simp] theorem statusShort_setBusy (b : Bool) (w : Word) : statusShort (setBusy b w) = statusShort w := by
  rw [statusShort, bitField, setBusy, getLsbD_setBitField, if_neg (by omega)]; rfl
@[simp] theorem statusShort_setShort (b : Bool) (w : Word) : statusShort (setShort b w) = b := by
  rw [statusShort, bitField, setShort, getLsbD_setBitField, if_pos (by omega)]
/-- The reserved bits are not touched. -/
theorem reserved_setDvalid (b : Bool) (w : Word) {k : Nat} (hk : 9 ≤ k) :
    (setDvalid b w).getLsbD k = w.getLsbD k := by
  rw [setDvalid, getLsbD_setBitField, if_neg (by omega)]
/-- The reserved bits are not touched. -/
theorem reserved_setJob (b : Bool) (w : Word) {k : Nat} (hk : 9 ≤ k) :
    (setJob b w).getLsbD k = w.getLsbD k := by
  rw [setJob, getLsbD_setBitField, if_neg (by omega)]
/-- The reserved bits are not touched. -/
theorem reserved_setLast (b : Bool) (w : Word) {k : Nat} (hk : 9 ≤ k) :
    (setLast b w).getLsbD k = w.getLsbD k := by
  rw [setLast, getLsbD_setBitField, if_neg (by omega)]
/-- The reserved bits are not touched. -/
theorem reserved_setBusy (b : Bool) (w : Word) {k : Nat} (hk : 9 ≤ k) :
    (setBusy b w).getLsbD k = w.getLsbD k := by
  rw [setBusy, getLsbD_setBitField, if_neg (by omega)]
/-- The reserved bits are not touched. -/
theorem reserved_setShort (b : Bool) (w : Word) {k : Nat} (hk : 9 ≤ k) :
    (setShort b w).getLsbD k = w.getLsbD k := by
  rw [setShort, getLsbD_setBitField, if_neg (by omega)]
/-- The reserved bits are not touched. -/
theorem reserved_setErr (e : ErrCode) (w : Word) {k : Nat} (hk : 9 ≤ k) :
    (setErr e w).getLsbD k = w.getLsbD k := by
  rw [getLsbD_setErr, if_neg (by omega)]
theorem errNumber_injective {e f : ErrCode} (h : errNumber e = errNumber f) : e = f := by
  revert h; cases e <;> cases f <;> decide

@[simp] theorem errNumber_inj {e f : ErrCode} : errNumber e = errNumber f ↔ e = f :=
  ⟨errNumber_injective, fun h => h ▸ rfl⟩

theorem errNumber_eq_zero {e : ErrCode} : errNumber e = 0#4 ↔ e = .ok := by
  cases e <;> decide

theorem getLsbD_ctrlStored (v : Word) (k : Nat) :
    (ctrlStored v).getLsbD k = (decide (k = 0) && v.getLsbD 0) := by
  rw [ctrlStored, BitVec.getLsbD_and, BitVec.getLsbD_one]
  by_cases h : k = 0 <;> simp [h]

/-- BUSY already clear: clearing it changes nothing. -/
theorem setBusy_false_of_idle {w : Word} (h : statusBusy w = false) : setBusy false w = w :=
  word_ext fun i _ => by
    rw [setBusy, getLsbD_setBitField]
    split
    · rename_i hi; rw [hi.1]; exact h.symm
    · rfl

end Sys2Proof.Machine
end

