-- ==== Sys2Proof/Laws/Encode.lean ====
section
/-! SUPPORT. The mapper and the header: what an encoded frame holds. -/

namespace Sys2Proof.Machine

/-! The mapper (R134). -/

@[simp] theorem length_paintBits (w h p : Nat) (bits r : List (BitVec 1)) : (paintBits w h p bits r).length = r.length := by
  induction bits generalizing p r with
  | nil => rfl
  | cons b t ih =>
    unfold paintBits
    split
    · rfl
    · rw [ih]; split <;> simp

theorem bit_cases (b : BitVec 1) : b = 0#1 ∨ b = 1#1 := by revert b; decide

/-- The walk from bit position `p`: each pixel inside the raster gets its bit if that is 1, else keeps
what it holds. -/
theorem getD_paintBits {w h : Nat} (p : Nat) (bits : List (BitVec 1)) (r : List Ink) (hr : r.length = w * h)
    {q : Nat} (hq : q < w * h) :
    (paintBits w h p bits r).getD q 0#1 =
      if p ≤ q ∧ q - p < bits.length ∧ bits.getD (q - p) 0#1 = 1#1 then 1#1 else r.getD q 0#1 := by
  induction bits generalizing p r with
  | nil => simp [paintBits]
  | cons b t ih =>
    unfold paintBits
    have hpos : p / w * w + p % w = p := by rw [Nat.mul_comm]; exact Nat.div_add_mod p w
    split
    · rename_i hstop
      have : w * h ≤ p := by
        calc w * h ≤ w * (p / w) := Nat.mul_le_mul_left w hstop
          _ ≤ p := Nat.mul_div_le p w
      have : ¬p ≤ q := by omega
      simp [this]
    · rw [ih _ _ (by split <;> simp [hr]), hpos]
      by_cases he : q = p
      · subst he
        have hq' : q < r.length := by omega
        rcases bit_cases b with hb | hb <;> simp [hb, List.getD_eq_getElem?_getD, hq']
      · by_cases hlt : q < p
        · have h1 : ¬p ≤ q := by omega
          have h2 : ¬p + 1 ≤ q := by omega
          simp only [h1, h2, false_and, if_false]
          split
          · simp [List.getD_eq_getElem?_getD, show ¬p = q by omega]
          · rfl
        · have e : q - p = (q - (p + 1)) + 1 := by omega
          have h1 : p ≤ q := by omega
          have h2 : p + 1 ≤ q := by omega
          rw [e, List.getD_cons_succ, List.length_cons]
          simp only [h1, h2, true_and, Nat.add_lt_add_iff_right]
          congr 1
          split
          · simp [List.getD_eq_getElem?_getD, show ¬p = q by omega]
          · rfl

@[simp] theorem length_mapBits (fb : List Byte) (w h : Nat) : (mapBits fb w h).length = w * h := by
  simp [mapBits]

/-! The header (R89, R130): the slices of a built header and what they parse to. -/

theorem length_headerBody {magic : List Byte} (hm : magic.length = 6) (pl : List Byte) (q : Word) (tot : DWord) :
    (headerBody magic pl q tot).length = 30 := by simp [headerBody, hm]

theorem length_buildHeader {magic : List Byte} (hm : magic.length = 6) (pl : List Byte) (q : Word) (tot : DWord) :
    (buildHeader magic pl q tot).length = 32 := by simp [buildHeader, length_headerBody hm]

theorem length_frameBytes {magic : List Byte} (hm : magic.length = 6) (pl : List Byte) (q : Word) (tot : DWord) :
    (frameBytes magic pl q tot).length = 32 + pl.length := by simp [frameBytes, length_buildHeader hm]

theorem magic_prefix_buildHeader (magic pl : List Byte) (q : Word) (tot : DWord) : magic <+: buildHeader magic pl q tot :=
  ⟨_, by simp [buildHeader, headerBody, List.append_assoc]; rfl⟩

/-- A slice that starts where the first part ends. -/
theorem slice_at {a b c : List Byte} {k n : Nat} (ha : a.length = k) (hb : b.length = n) :
    slice (a ++ b ++ c) k n = b := by
  have := slice_append_right a (b ++ c) 0 n
  rw [Nat.add_zero, ← List.append_assoc, ha] at this
  rw [this, slice_append_left _ (by omega), slice_self hb]

section
variable {magic : List Byte} (hm : magic.length = 6) (pl : List Byte) (q : Word) (tot : DWord)
include hm

theorem slice_magic : slice (buildHeader magic pl q tot) 0 6 = magic := by
  have := slice_at (a := []) (b := magic) (c := be 8 tot ++ be 4 q ++ be 4 (BitVec.ofNat 32 pl.length)
    ++ be 8 (payloadChecksum pl) ++ storedChecksum (headerBody magic pl q tot)) rfl hm
  simpa [buildHeader, headerBody] using this

theorem slice_total : slice (buildHeader magic pl q tot) 6 8 = be 8 tot := by
  have := slice_at (a := magic) (b := be 8 tot) (c := be 4 q ++ be 4 (BitVec.ofNat 32 pl.length)
    ++ be 8 (payloadChecksum pl) ++ storedChecksum (headerBody magic pl q tot)) (n := 8) hm (by simp)
  simpa [buildHeader, headerBody] using this

theorem slice_seq : slice (buildHeader magic pl q tot) 14 4 = be 4 q := by
  have := slice_at (a := magic ++ be 8 tot) (b := be 4 q) (c := be 4 (BitVec.ofNat 32 pl.length)
    ++ be 8 (payloadChecksum pl) ++ storedChecksum (headerBody magic pl q tot)) (k := 14) (n := 4) (by simp [hm]) (by simp)
  simpa [buildHeader, headerBody] using this

theorem slice_chunk : slice (buildHeader magic pl q tot) 18 4 = be 4 (BitVec.ofNat 32 pl.length) := by
  have := slice_at (a := magic ++ be 8 tot ++ be 4 q) (b := be 4 (BitVec.ofNat 32 pl.length))
    (c := be 8 (payloadChecksum pl) ++ storedChecksum (headerBody magic pl q tot)) (k := 18) (n := 4) (by simp [hm]) (by simp)
  simpa [buildHeader, headerBody] using this

theorem slice_pay : slice (buildHeader magic pl q tot) 22 8 = be 8 (payloadChecksum pl) := by
  have := slice_at (a := magic ++ be 8 tot ++ be 4 q ++ be 4 (BitVec.ofNat 32 pl.length)) (b := be 8 (payloadChecksum pl))
    (c := storedChecksum (headerBody magic pl q tot)) (k := 22) (n := 8) (by simp [hm]) (by simp)
  simpa [buildHeader, headerBody] using this

theorem slice_body : slice (buildHeader magic pl q tot) 0 30 = headerBody magic pl q tot := by
  rw [buildHeader, slice_append_left _ (by rw [length_headerBody hm])]
  exact slice_self (length_headerBody hm pl q tot)

theorem slice_stored : slice (buildHeader magic pl q tot) 30 2 = storedChecksum (headerBody magic pl q tot) := by
  have := slice_at (a := headerBody magic pl q tot) (b := storedChecksum (headerBody magic pl q tot)) (c := [])
    (k := 30) (n := 2) (length_headerBody hm pl q tot) (by simp)
  simpa [buildHeader] using this

theorem hdrValid_buildHeader : hdrValid (buildHeader magic pl q tot) = true := by
  have h1 : slice (buildHeader magic pl q tot) 0 offHck = _ := slice_body hm pl q tot
  have h2 : slice (buildHeader magic pl q tot) offHck format.hckStored = _ := slice_stored hm pl q tot
  simp [hdrValid, h1, h2]

theorem hdrTotal_buildHeader : hdrTotal (buildHeader magic pl q tot) = tot.toNat := by
  rw [hdrTotal, show offTotal = 6 from rfl, slice_total hm, fieldValue_eq, fromBe_be]
  exact Nat.mod_eq_of_lt tot.isLt

theorem hdrSeq_buildHeader : hdrSeq (buildHeader magic pl q tot) = q.toNat := by
  rw [hdrSeq, show offSeq = 14 from rfl, slice_seq hm, fieldValue_eq, fromBe_be]
  exact Nat.mod_eq_of_lt q.isLt

theorem hdrChunk_buildHeader (hp : pl.length < 2 ^ 32) : hdrChunk (buildHeader magic pl q tot) = pl.length := by
  rw [hdrChunk, show offChunk = 18 from rfl, slice_chunk hm, fieldValue_eq, fromBe_be, BitVec.toNat_ofNat]
  omega

theorem hdrPayloadCk_buildHeader : hdrPayloadCk (buildHeader magic pl q tot) = (payloadChecksum pl).toNat := by
  rw [hdrPayloadCk, show offPay = 22 from rfl, slice_pay hm, fieldValue_eq, fromBe_be]
  exact Nat.mod_eq_of_lt (payloadChecksum pl).isLt
end

end Sys2Proof.Machine
end

