-- ==== Sys2Proof/Laws/FrameDecode.lean ====
section
/-! SUPPORT. The byte stream of a raster and the scan. -/

namespace Sys2Proof.Machine

/-! The byte stream of a raster (R165). -/

theorem bytesOf_cons8 (a b c d e f g h : Sample) (rest : List Sample) :
    bytesOf (a :: b :: c :: d :: e :: f :: g :: h :: rest) =
      packByte ([a, b, c, d, e, f, g, h].map classify) :: bytesOf rest := by rw [bytesOf]

theorem bytesOf_short {d : List Sample} (h : d.length < 8) : bytesOf d = [] := by
  match d with
  | [] => rfl
  | [_] => rfl
  | [_, _] => rfl
  | [_, _, _] => rfl
  | [_, _, _, _] => rfl
  | [_, _, _, _, _] => rfl
  | [_, _, _, _, _, _] => rfl
  | [_, _, _, _, _, _, _] => rfl
  | _ :: _ :: _ :: _ :: _ :: _ :: _ :: _ :: _ => simp at h; omega

/-- A raster is eight samples and a rest, or shorter than eight. -/
theorem eight_or_short (d : List Sample) :
    (∃ a b c d' e f g h rest, d = a :: b :: c :: d' :: e :: f :: g :: h :: rest) ∨ d.length < 8 := by
  match d with
  | a :: b :: c :: d' :: e :: f :: g :: h :: rest => exact .inl ⟨a, b, c, d', e, f, g, h, rest, rfl⟩
  | [] | [_] | [_, _] | [_, _, _] | [_, _, _, _] | [_, _, _, _, _] | [_, _, _, _, _, _] | [_, _, _, _, _, _, _] =>
    exact .inr (by simp)

/-- Induction over a raster, eight samples at a time. -/
theorem raster_induction {P : List Sample → Prop} (short : ∀ d, d.length < 8 → P d)
    (byte : ∀ a b c d e f g h rest, P rest → P (a :: b :: c :: d :: e :: f :: g :: h :: rest)) (d : List Sample) : P d := by
  induction hn : d.length using Nat.strongRecOn generalizing d with
  | ind n ih =>
    rcases eight_or_short d with ⟨a, b, c, d', e, f, g, h, rest, rfl⟩ | h
    · exact byte _ _ _ _ _ _ _ _ _ (ih rest.length (by simp at hn; omega) rest rfl)
    · exact short d h

theorem length_bytesOf (d : List Sample) : (bytesOf d).length = d.length / 8 := by
  induction d using raster_induction with
  | short d h => rw [bytesOf_short h]; simp; omega
  | byte a b c d e f g h rest ih => rw [bytesOf_cons8]; simp [ih]; omega

/-- Only the classified bits of a raster matter. -/
theorem bytesOf_congr {d d' : List Sample} (heq : d.map classify = d'.map classify) : bytesOf d = bytesOf d' := by
  induction d using raster_induction generalizing d' with
  | short d hs =>
    have hl : d.length = d'.length := by simpa using congrArg List.length heq
    rw [bytesOf_short hs, bytesOf_short (by omega)]
  | byte a b c d e f g h rest ih =>
    rcases eight_or_short d' with ⟨a', b', c', d'', e', f', g', h', rest', rfl⟩ | hs
    · simp only [List.map_cons, List.cons.injEq] at heq
      obtain ⟨h1, h2, h3, h4, h5, h6, h7, h8, hr⟩ := heq
      rw [bytesOf_cons8, bytesOf_cons8, ih hr]
      simp [h1, h2, h3, h4, h5, h6, h7, h8]
    · have hl := congrArg List.length heq
      simp at hl; omega

/-- A raster whose bits begin with the bit stream of `s` has a byte stream that begins with `s`. -/
theorem bytesOf_bitStream (s : List Byte) {d : List Sample} {t : List (BitVec 1)}
    (h : d.map classify = bitStream s ++ t) : ∃ d', d'.map classify = t ∧ bytesOf d = s ++ bytesOf d' := by
  induction s generalizing d with
  | nil => exact ⟨d, by simpa [bitStream] using h, rfl⟩
  | cons b s ih =>
    rw [bitStream_cons, List.append_assoc] at h
    rcases eight_or_short d with ⟨a, b1, c, d', e, f, g, h', rest, rfl⟩ | hs
    · have hb : ([a, b1, c, d', e, f, g, h'] : List Sample).map classify = byteBits b := by
        have := congrArg (List.take 8) h
        rw [List.take_left' (length_byteBits b)] at this; simpa using this
      have hr : rest.map classify = bitStream s ++ t := by
        have := congrArg (List.drop 8) h
        rw [List.drop_left' (length_byteBits b)] at this; simpa using this
      obtain ⟨d2, h1, h2⟩ := ih hr
      exact ⟨d2, h1, by rw [bytesOf_cons8, hb, packByte_byteBits, h2, List.cons_append]⟩
    · have hl := congrArg List.length h
      simp at hl; omega

/-! The scan (R164 to R174). -/

/-- What the scan's buffer is after the bytes `b`: all of them while the marker has not occurred, then
the bytes from the first marker on, with the number of bytes before it. -/
def Tracks (magic b : List Byte) (hd : Hidden) : Prop :=
  (find magic b = none ∧ hd.fbuf = b ∧ hd.skip = 0) ∨
  ∃ i, find magic b = some i ∧ hd.fbuf = b.drop i ∧ hd.skip = i

/-- The buffer starts with a whole valid header and holds the payload it announces (R171, R172). -/
def Captured (w : List Byte) : Prop :=
  32 ≤ w.length ∧ hdrValid (w.take 32) = true ∧ 32 + hdrChunk (w.take 32) ≤ w.length

/-- The buffer starts with a whole header whose checksum is wrong (R173). -/
def HeaderWrong (w : List Byte) : Prop := 32 ≤ w.length ∧ hdrValid (w.take 32) = false

theorem checkWindow_frame (strict : Bool) (hd : Hidden) :
    (checkWindow strict hd).1.fbuf = hd.fbuf ∧ (checkWindow strict hd).1.skip = hd.skip ∧
    (checkWindow strict hd).1.acc = hd.acc ∧ (checkWindow strict hd).1.nb = hd.nb := by
  unfold checkWindow; dsimp only; repeat' split
  all_goals exact ⟨rfl, rfl, rfl, rfl⟩

theorem checkWindow_leave {strict : Bool} {hd : Hidden} :
    (checkWindow strict hd).2 = .leave → Captured hd.fbuf := by
  unfold checkWindow; dsimp only
  split; · intro h; cases h
  rename_i h1
  split
  · rename_i h2
    split
    · rename_i h3; exact fun _ => ⟨Nat.le_of_not_lt h1, h2, h3⟩
    · intro h; cases h
  · split <;> intro h <;> cases h

theorem checkWindow_mismatch {strict : Bool} {hd : Hidden} :
    (checkWindow strict hd).2 = .mismatch → strict = true ∧ HeaderWrong hd.fbuf := by
  unfold checkWindow; dsimp only
  split; · intro h; cases h
  rename_i h1
  split
  · split <;> intro h <;> cases h
  · rename_i h2
    split
    · rename_i h3; exact fun _ => ⟨h3, Nat.le_of_not_lt h1, by simpa [format_headerSize] using h2⟩
    · intro h; cases h

/-- One search after an appended byte. -/
theorem searchMarker_spec {magic : List Byte} (hm : magic.length = 6) (strict : Bool) {hd : Hidden} {b : List Byte}
    (h : (hd.fbuf = b ∧ hd.skip = 0) ∨ ∃ i, find magic b = some i ∧ hd.fbuf = b.drop i ∧ hd.skip = i) :
    Tracks magic b (searchMarker magic strict hd).1 ∧ (searchMarker magic strict hd).1.acc = hd.acc ∧
    (searchMarker magic strict hd).1.nb = hd.nb ∧
    ((searchMarker magic strict hd).2 = .leave →
      find magic b ≠ none ∧ Captured (searchMarker magic strict hd).1.fbuf) ∧
    ((searchMarker magic strict hd).2 = .mismatch →
      strict = true ∧ find magic b ≠ none ∧ HeaderWrong (searchMarker magic strict hd).1.fbuf) := by
  have hne : magic ≠ [] := by rintro rfl; simp at hm
  unfold searchMarker
  split
  · rename_i hs
    have hs : hd.fbuf.length < 6 := hs
    rcases h with ⟨hb, h0⟩ | ⟨i, hi, hb, -⟩
    · exact ⟨.inl ⟨by rw [← hb]; exact find_short (by omega), hb, h0⟩, rfl, rfl, by simp, by simp⟩
    · have := (prefix_drop_of_find hi).length_le
      rw [← hb] at this; omega
  · rcases h with ⟨hb, h0⟩ | ⟨i, hi, hb, hsk⟩
    · cases hf : find magic hd.fbuf with
      | none => exact ⟨.inl ⟨by rw [← hb]; exact hf, hb, h0⟩, rfl, rfl, by simp, by simp⟩
      | some i =>
        obtain ⟨f1, f2, f3, f4⟩ := checkWindow_frame strict (discard hd i)
        have hfb : find magic b = some i := hb ▸ hf
        refine ⟨.inr ⟨i, hfb, ?_, ?_⟩, f3, f4, fun hl => ⟨by simp [hfb], ?_⟩, fun hl => ⟨(checkWindow_mismatch hl).1, by simp [hfb], ?_⟩⟩
        · rw [f1, ← hb]; rfl
        · rw [f2]; simp [discard, h0]
        · rw [f1]; exact checkWindow_leave hl
        · rw [f1]; exact (checkWindow_mismatch hl).2
    · have hf : find magic hd.fbuf = some 0 := hb ▸ find_drop_of_find hi
      rw [hf]
      obtain ⟨f1, f2, f3, f4⟩ := checkWindow_frame strict (discard hd 0)
      refine ⟨.inr ⟨i, hi, ?_, ?_⟩, f3, f4, fun hl => ⟨by simp [hi], ?_⟩, fun hl => ⟨(checkWindow_mismatch hl).1, by simp [hi], ?_⟩⟩
      · rw [f1, ← hb]; simp [discard]
      · rw [f2]; simp [discard, hsk]
      · rw [f1]; exact checkWindow_leave hl
      · rw [f1]; exact (checkWindow_mismatch hl).2

theorem scanLoop_short (magic : List Byte) (strict : Bool) (ds : List Sample) {hd : Hidden}
    (h : hd.nb + ds.length < 8) : (scanLoop magic strict hd ds).2 = false ∧
      (scanLoop magic strict hd ds).1.fbuf = hd.fbuf ∧ (scanLoop magic strict hd ds).1.skip = hd.skip := by
  induction ds generalizing hd with
  | nil => exact ⟨rfl, rfl, rfl⟩
  | cons d t ih =>
    have hn : (takeSample hd d).nb ≠ 8 := by simp [takeSample]; simp at h; omega
    have hs : scanSample magic strict hd d = (takeSample hd d, .more) := if_neg hn
    rw [scanLoop, hs]
    exact ih (hd := takeSample hd d) (by simp [takeSample]; simp at h; omega)

/-- Eight samples at a byte boundary: one byte is appended, then the search. -/
theorem scanLoop_eight (magic : List Byte) (strict : Bool) {hd : Hidden} (ha : hd.acc = 0#8) (hn : hd.nb = 0)
    (a b c d e f g h : Sample) (rest : List Sample) :
    scanLoop magic strict hd (a :: b :: c :: d :: e :: f :: g :: h :: rest) =
      match searchMarker magic strict { hd with
          fbuf := hd.fbuf ++ [packByte ([a, b, c, d, e, f, g, h].map classify)], acc := 0#8, nb := 0, p := hd.p + 8 } with
      | (hd', .more) => scanLoop magic strict hd' rest
      | (hd', .leave) => (hd', false)
      | (hd', .mismatch) => (hd', true) := by
  simp only [scanLoop, scanSample, takeSample, hn, ha, appendByte]
  norm_num [packByte] <;> rfl

/-- What the scan ends with: it has consumed the bytes `c`, whose marker it tracks, and it has either
taken every byte, or captured a whole frame, or met a wrong header under the strict policy. -/
theorem scanLoop_spec {magic : List Byte} (hm : magic.length = 6) (strict : Bool) (ds : List Sample) {hd : Hidden}
    {b : List Byte} (ha : hd.acc = 0#8) (hn : hd.nb = 0) (ht : Tracks magic b hd) :
    ∃ c rest, b ++ bytesOf ds = c ++ rest ∧ Tracks magic c (scanLoop magic strict hd ds).1 ∧
      (((scanLoop magic strict hd ds).2 = false ∧ rest = []) ∨
       ((scanLoop magic strict hd ds).2 = false ∧ find magic c ≠ none ∧ Captured (scanLoop magic strict hd ds).1.fbuf) ∨
       ((scanLoop magic strict hd ds).2 = true ∧ strict = true ∧ find magic c ≠ none ∧
          HeaderWrong (scanLoop magic strict hd ds).1.fbuf)) := by
  have hne : magic ≠ [] := by rintro rfl; simp at hm
  induction ds using raster_induction generalizing hd b with
  | short ds hs =>
    obtain ⟨h1, h2, h3⟩ := scanLoop_short magic strict ds (hd := hd) (by omega)
    refine ⟨b, [], by rw [bytesOf_short hs], ?_, .inl ⟨h1, rfl⟩⟩
    simpa [Tracks, h2, h3] using ht
  | byte a1 a2 a3 a4 a5 a6 a7 a8 rest ih =>
    rw [scanLoop_eight magic strict ha hn, bytesOf_cons8]
    generalize packByte _ = x
    generalize hhd : ({ hd with fbuf := hd.fbuf ++ [x], acc := 0#8, nb := 0, p := hd.p + 8 } : Hidden) = hd1
    have hpre : (hd1.fbuf = b ++ [x] ∧ hd1.skip = 0) ∨
        ∃ i, find magic (b ++ [x]) = some i ∧ hd1.fbuf = (b ++ [x]).drop i ∧ hd1.skip = i := by
      subst hhd
      rcases ht with ⟨-, h1, h2⟩ | ⟨i, hi, h1, h2⟩
      · exact .inl ⟨by simp [h1], h2⟩
      · refine .inr ⟨i, find_append_of_some _ hi hne, ?_, h2⟩
        have := (find_le hi).resolve_right hne
        rw [List.drop_append_of_le_length (by omega), ← h1]
    obtain ⟨s1, s2, s3, s4, s5⟩ := searchMarker_spec hm strict hpre
    have e : b ++ x :: bytesOf rest = (b ++ [x]) ++ bytesOf rest := by simp
    rcases hr : searchMarker magic strict hd1 with ⟨hd2, v⟩
    rw [hr] at s1 s2 s3 s4 s5
    cases v with
    | more =>
      rw [e]
      exact ih (by rw [s2, ← hhd]) (by rw [s3, ← hhd]) s1
    | leave => exact ⟨b ++ [x], bytesOf rest, e, s1, .inr (.inl ⟨rfl, s4 rfl⟩)⟩
    | mismatch => exact ⟨b ++ [x], bytesOf rest, e, s1, .inr (.inr ⟨rfl, (s5 rfl).1, (s5 rfl).2⟩)⟩

theorem take_append_of_le {α : Type} (w r : List α) {n : Nat} (h : n ≤ w.length) : (w ++ r).take n = w.take n :=
  List.take_append_of_le_length h

/-- Bytes after a captured frame change nothing. -/
theorem decodeWindow_append {w : List Byte} (r : List Byte) (skip : Nat) (h : Captured w) :
    decodeWindow (w ++ r) skip = decodeWindow w skip := by
  obtain ⟨h1, h2, h3⟩ := h
  unfold decodeWindow
  rw [format_headerSize, take_append_of_le w r h1]
  simp only [List.length_append, h2, if_true, show ¬w.length + r.length < 32 by omega, show ¬w.length < 32 by omega, if_false]
  unfold decodePayload
  simp only [take_append_of_le w r h1, slice_append_left r h3, List.length_append, show ¬w.length + r.length - 32 < hdrChunk (w.take 32) by omega,
    show ¬w.length - 32 < hdrChunk (w.take 32) by omega, if_false]

theorem decodeWindow_wrong {w : List Byte} (r : List Byte) (skip : Nat) (h : HeaderWrong w) :
    decodeWindow (w ++ r) skip = headerMismatch (w.take 32) := by
  obtain ⟨h1, h2⟩ := h
  unfold decodeWindow
  rw [format_headerSize, take_append_of_le w r h1]
  simp [h2, show ¬w.length + r.length < 32 by omega]

/-- The scan and the steps after it are `decodeBytes` of the raster's byte stream. -/
theorem decode_scan {magic : List Byte} (hm : magic.length = 6) (strict : Bool) (hd : Hidden) (ds : List Sample) :
    (if (scan magic strict hd ds).2 then headerMismatch ((scan magic strict hd ds).1.fbuf.take 32)
     else decodeBuffer magic (bytesOf ds).length (scan magic strict hd ds).1.fbuf (scan magic strict hd ds).1.skip) =
    decodeBytes magic (bytesOf ds) := by
  have hne : magic ≠ [] := by rintro rfl; simp at hm
  unfold scan
  obtain ⟨c, rest, hc, ht, ho⟩ := scanLoop_spec hm strict ds
    (hd := { hd with fbuf := [], acc := 0#8, nb := 0, p := 0, skip := 0 }) (b := []) rfl rfl
    (.inl ⟨find_short (by simp [hm]), rfl, rfl⟩)
  generalize scanLoop magic strict _ ds = r at ht ho
  rw [List.nil_append] at hc
  rcases ho with ⟨h2, rfl⟩ | ⟨h2, hf, hcap⟩ | ⟨h2, -, hf, hw⟩
  · rw [List.append_nil] at hc
    rw [h2, if_neg (by simp), hc, decodeBytes]
    rcases ht with ⟨hf, hb, hs⟩ | ⟨i, hf, hb, hs⟩
    · rw [hb, hs]
    · unfold decodeBuffer
      rw [hb, hs, hf, find_drop_of_find hf]; simp
  · rw [h2, if_neg (by simp), hc, decodeBytes]
    rcases ht with ⟨hf', -, -⟩ | ⟨i, hf', hb, hs⟩
    · exact absurd hf' hf
    · unfold decodeBuffer
      have hi := (find_le hf').resolve_right hne
      rw [hb] at hcap
      rw [hb, hs, find_append_of_some rest hf' hne, find_drop_of_find hf']
      simp only [List.drop_zero, Nat.add_zero, Nat.zero_add]
      rw [List.drop_append_of_le_length (by omega), decodeWindow_append _ _ hcap]
  · rw [h2, if_pos rfl, hc, decodeBytes]
    rcases ht with ⟨hf', -, -⟩ | ⟨i, hf', hb, hs⟩
    · exact absurd hf' hf
    · unfold decodeBuffer
      have hi := (find_le hf').resolve_right hne
      rw [find_append_of_some rest hf' hne]
      dsimp only
      rw [List.drop_append_of_le_length (by omega), ← hb, decodeWindow_wrong _ _ hw]

end Sys2Proof.Machine
end

