-- ==== Sys2Proof/Laws/Memory.lean ====
section
/-! SUPPORT. The laws of the memories: what a read gives after a write of one cell and after a write of
a prefix, and that every operation keeps the canonical form. -/

namespace Sys2Proof.Machine

variable {w : Nat}

/-! One cell. -/

theorem get?_write (m : Memory w) (a b : Nat) (v : BitVec w) :
    Memory.get? (Memory.write m a v) b = if b = a then some v else Memory.get? m b := by
  induction m with
  | nil => by_cases h : a = b <;> simp [Memory.write, Memory.get?, h, eq_comm]
  | cons c t ih =>
    obtain ⟨k, x⟩ := c
    simp only [Memory.write]
    split
    · by_cases h : a = b <;> simp [Memory.get?, h, eq_comm]
    · split
      · rename_i h; subst h
        by_cases h : a = b <;> simp [Memory.get?, h, eq_comm]
      · rename_i h1 h2
        simp only [Memory.get?, ih]
        by_cases hb : b = a
        · subst hb; simp [show k ≠ b by omega]
        · simp [hb]

theorem read_write (free : Nat → BitVec w) (m : Memory w) (a b : Nat) (v : BitVec w) :
    Memory.read free (Memory.write m a v) b = if b = a then v else Memory.read free m b := by
  simp only [Memory.read, get?_write]
  split <;> simp

theorem wfFrom_write {size lo : Nat} {m : Memory w} {a : Nat} (v : BitVec w) (hlo : lo ≤ a)
    (ha : a < size) (h : Memory.wfFrom size lo m = true) :
    Memory.wfFrom size lo (Memory.write m a v) = true := by
  induction m generalizing lo with
  | nil => simp [Memory.write, Memory.wfFrom, hlo, ha]
  | cons c t ih =>
    obtain ⟨k, x⟩ := c
    simp only [Memory.wfFrom, Bool.and_eq_true, decide_eq_true_eq] at h
    simp only [Memory.write]
    split
    · simp only [Memory.wfFrom, Bool.and_eq_true, decide_eq_true_eq]
      exact ⟨⟨hlo, ha⟩, ⟨by omega, h.1.2⟩, h.2⟩
    · split
      · rename_i _ e; subst e
        simp only [Memory.wfFrom, Bool.and_eq_true, decide_eq_true_eq]
        exact ⟨⟨hlo, ha⟩, h.2⟩
      · simp only [Memory.wfFrom, Bool.and_eq_true, decide_eq_true_eq]
        exact ⟨h.1, ih (by omega) h.2⟩

/-- A write of an existing cell keeps the canonical form. -/
theorem wf_write {size : Nat} {m : Memory w} {a : Nat} (v : BitVec w) (ha : a < size)
    (h : Memory.wf size m = true) : Memory.wf size (Memory.write m a v) = true :=
  wfFrom_write v (Nat.zero_le a) ha h

@[simp] theorem wf_nil (size : Nat) : Memory.wf size ([] : Memory w) = true := rfl

/-! A prefix. -/

theorem get?_cellsFrom (k : Nat) (vs : List (BitVec w)) (a : Nat) :
    Memory.get? (Memory.cellsFrom k vs) a = if k ≤ a then vs[a - k]? else none := by
  induction vs generalizing k with
  | nil => simp [Memory.cellsFrom, Memory.get?]
  | cons v t ih =>
    simp only [Memory.cellsFrom, Memory.get?, ih]
    by_cases h : k = a
    · simp [h]
    · by_cases h2 : k ≤ a
      · have e : a - k = (a - (k + 1)) + 1 := by omega
        have h3 : k + 1 ≤ a := by omega
        simp [h, h2, h3, e]
      · have h3 : ¬k + 1 ≤ a := by omega
        simp [h, h2, h3]

theorem get?_append (m n : Memory w) (a : Nat) :
    Memory.get? (m ++ n) a = (Memory.get? m a).or (Memory.get? n a) := by
  induction m with
  | nil => simp [Memory.get?]
  | cons c t ih =>
    obtain ⟨k, x⟩ := c
    simp only [List.cons_append, Memory.get?, ih]
    split <;> simp

theorem get?_filter_ge (m : Memory w) (n a : Nat) :
    Memory.get? (m.filter fun c => decide (n ≤ c.1)) a = if n ≤ a then Memory.get? m a else none := by
  induction m with
  | nil => simp [Memory.get?]
  | cons c t ih =>
    obtain ⟨k, x⟩ := c
    by_cases h : n ≤ k
    · simp only [h, decide_true, List.filter_cons_of_pos, Memory.get?, ih]
      by_cases h2 : k = a
      · subst h2; simp [h]
      · simp [h2]
    · rw [List.filter_cons_of_neg (by simpa using h), ih]
      simp only [Memory.get?]
      by_cases h2 : k = a
      · subst h2; simp [h]
      · simp [h2]

theorem get?_writePrefix (m : Memory w) (vs : List (BitVec w)) (a : Nat) :
    Memory.get? (Memory.writePrefix m vs) a =
      if h : a < vs.length then some vs[a] else Memory.get? m a := by
  simp only [Memory.writePrefix, get?_append, get?_cellsFrom, get?_filter_ge, Nat.zero_le, if_true,
    Nat.sub_zero]
  by_cases h : a < vs.length
  · simp [h]
  · simp [h, Nat.le_of_not_lt h]

theorem read_writePrefix (free : Nat → BitVec w) (m : Memory w) (vs : List (BitVec w)) (a : Nat) :
    Memory.read free (Memory.writePrefix m vs) a =
      if h : a < vs.length then vs[a] else Memory.read free m a := by
  simp only [Memory.read, get?_writePrefix]
  split <;> simp

theorem wfFrom_mono {size lo lo' : Nat} {m : Memory w} (h : lo' ≤ lo)
    (hm : Memory.wfFrom size lo m = true) : Memory.wfFrom size lo' m = true := by
  cases m with
  | nil => rfl
  | cons c t =>
    simp only [Memory.wfFrom, Bool.and_eq_true, decide_eq_true_eq] at hm ⊢
    exact ⟨⟨by omega, hm.1.2⟩, hm.2⟩

theorem wfFrom_filter {size lo n : Nat} {m : Memory w} (hm : Memory.wfFrom size lo m = true) :
    Memory.wfFrom size (max lo n) (m.filter fun c => decide (n ≤ c.1)) = true := by
  induction m generalizing lo with
  | nil => rfl
  | cons c t ih =>
    obtain ⟨k, x⟩ := c
    simp only [Memory.wfFrom, Bool.and_eq_true, decide_eq_true_eq] at hm
    by_cases h : n ≤ k
    · rw [List.filter_cons_of_pos (by simpa using h)]
      simp only [Memory.wfFrom, Bool.and_eq_true, decide_eq_true_eq]
      refine ⟨⟨by omega, hm.1.2⟩, ?_⟩
      simpa [Nat.max_eq_left (show n ≤ k + 1 by omega)] using ih hm.2
    · rw [List.filter_cons_of_neg (by simpa using h)]
      exact wfFrom_mono (by omega) (ih hm.2)

theorem wfFrom_cellsFrom_append {size lo : Nat} {vs : List (BitVec w)} {m : Memory w}
    (hs : vs = [] ∨ lo + vs.length ≤ size) (hm : Memory.wfFrom size (lo + vs.length) m = true) :
    Memory.wfFrom size lo (Memory.cellsFrom lo vs ++ m) = true := by
  induction vs generalizing lo with
  | nil => simpa [Memory.cellsFrom] using hm
  | cons v t ih =>
    have hs' : lo + (t.length + 1) ≤ size := by simpa using hs
    simp only [Memory.cellsFrom, List.cons_append, Memory.wfFrom, Bool.and_eq_true, decide_eq_true_eq]
    refine ⟨⟨Nat.le_refl _, by omega⟩, ih (Or.inr (by omega)) ?_⟩
    simpa [Nat.add_assoc, Nat.add_comm 1] using hm

/-- A write of a prefix that fits keeps the canonical form. -/
theorem wf_writePrefix {size : Nat} {m : Memory w} {vs : List (BitVec w)} (hs : vs.length ≤ size)
    (h : Memory.wf size m = true) : Memory.wf size (Memory.writePrefix m vs) = true := by
  unfold Memory.wf Memory.writePrefix
  refine wfFrom_cellsFrom_append (Or.inr (by omega)) ?_
  simpa using wfFrom_filter (n := vs.length) h

/-! Two memories in canonical form are equal when every cell is. -/

theorem get?_none_of_wfFrom {size lo : Nat} {m : Memory w} (h : Memory.wfFrom size lo m = true) {a : Nat}
    (ha : a < lo) : Memory.get? m a = none := by
  induction m generalizing lo with
  | nil => rfl
  | cons c t ih =>
    simp only [Memory.wfFrom, Bool.and_eq_true, decide_eq_true_eq] at h
    simp only [Memory.get?, show c.1 ≠ a by omega, if_false]
    exact ih h.2 (by omega)

theorem wfFrom_ext {size lo : Nat} {m n : Memory w} (hm : Memory.wfFrom size lo m = true)
    (hn : Memory.wfFrom size lo n = true) (h : ∀ a, Memory.get? m a = Memory.get? n a) : m = n := by
  induction m generalizing lo n with
  | nil =>
    cases n with
    | nil => rfl
    | cons c t => simpa [Memory.get?] using h c.1
  | cons c t ih =>
    cases n with
    | nil => simpa [Memory.get?] using h c.1
    | cons d u =>
      obtain ⟨k, x⟩ := c
      obtain ⟨l, y⟩ := d
      simp only [Memory.wfFrom, Bool.and_eq_true, decide_eq_true_eq] at hm hn
      have hk := h k
      have hl := h l
      simp only [Memory.get?, if_true] at hk hl
      have e : k = l := by
        by_contra hne
        rcases Nat.lt_or_gt_of_ne hne with hlt | hgt
        · simp [show ¬l = k by omega, get?_none_of_wfFrom hn.2 (show k < l + 1 by omega)] at hk
        · simp [hne, get?_none_of_wfFrom hm.2 (show l < k + 1 by omega)] at hl
      subst e
      have ex : x = y := by simpa using hk
      subst ex
      have : t = u := ih hm.2 hn.2 fun a => by
        by_cases ha : a = k
        · subst ha
          rw [get?_none_of_wfFrom hm.2 (by omega), get?_none_of_wfFrom hn.2 (by omega)]
        · simpa [Memory.get?, Ne.symm ha] using h a
      rw [this]

/-- The canonical form is canonical: equal cells, equal lists. -/
theorem wf_ext {size : Nat} {m n : Memory w} (hm : Memory.wf size m = true)
    (hn : Memory.wf size n = true) (h : ∀ a, Memory.get? m a = Memory.get? n a) : m = n :=
  wfFrom_ext hm hn h

end Sys2Proof.Machine
end

