-- ==== Sys2Proof/Laws/Commands.lean ====
section
/-! SUPPORT. What the shared parts of the commands do: the prologue and raise, the geometry check, the
prefixes of the memories, the closed form of a decode, DECF, the painted raster, a host access. -/

namespace Sys2Proof.Machine

/-! The prologue and raise (R201, R247). -/

/-- The status fields after the prologue. -/
theorem statusIs_prologue (s : State) :
    StatusIs (prologue s).status s.status .ok false (statusDvalid s.status) (statusJob s.status)
      (statusLast s.status) := by
  refine ⟨by simp, by simp, by simp, by simp, by simp, by simp, fun k hk => ?_⟩
  rw [prologue_status, reserved_setShort _ _ hk, reserved_setErr _ _ hk]

/-- Everything an error leaves, in every command but DECF. -/
theorem raised_raise (e : ErrCode) {a b : Nat} (ha : a < 2 ^ 64) (hb : b < 2 ^ 64) (s : State) :
    Raised (raise e a b (prologue s)) s e false (statusDvalid s.status) a b := by
  refine ⟨⟨by simp, by simp, by simp, by simp, by simp, by simp, fun k hk => ?_⟩, ?_, ?_, rfl⟩
  · simp only [raise_status, prologue_status]
    rw [reserved_setErr _ _ hk, reserved_setShort _ _ hk, reserved_setErr _ _ hk]
  · exact (BitVec.toNat_ofNat ..).trans (Nat.mod_eq_of_lt ha)
  · exact (BitVec.toNat_ofNat ..).trans (Nat.mod_eq_of_lt hb)

/-- The state of a DECF after its prologue (R180). -/
def decfStart (s : State) : State :=
  { prologue s with status := setDvalid false (prologue s).status }

/-- Everything an error leaves in DECF. -/
theorem raised_recordDecode (e : ErrCode) (short : Bool) {a b : Nat} (ha : a < 2 ^ 64) (hb : b < 2 ^ 64)
    (s : State) (hd : Hidden) :
    Raised (recordDecode (.fail e short a b) { decfStart s with hidden := hd }).visible s.visible e short
      false a b := by
  refine ⟨⟨?_, ?_, ?_, ?_, ?_, ?_, fun k hk => ?_⟩, ?_, ?_, rfl⟩
  case refine_7 =>
    simp only [recordDecode, decfStart, visible_status, raise_status, prologue_status]
    rw [reserved_setErr _ _ hk, reserved_setShort _ _ hk, reserved_setDvalid _ _ hk, reserved_setShort _ _ hk,
      reserved_setErr _ _ hk]
  case refine_8 => exact (BitVec.toNat_ofNat ..).trans (Nat.mod_eq_of_lt ha)
  case refine_9 => exact (BitVec.toNat_ofNat ..).trans (Nat.mod_eq_of_lt hb)
  all_goals simp [recordDecode, decfStart]

/-! Geometry (R11). -/

/-- BUF_BYTES is `MAX_PIXELS div 8` (R10). -/
theorem bufBytes_eq_div (c : Config.Params) : bufBytes c = c.maxPixels / 8 := c.bufBytes_eq

/-- What a valid geometry gives. -/
theorem geomValid_bounds {c : Config.Params} {w h : Nat} (hg : geomValid c w h = true) :
    w * h ≤ c.maxPixels ∧ 32 + maxPayload w h = capBytes w h ∧ 0 < maxPayload w h ∧
      capBytes w h ≤ bufBytes c ∧ 8 * capBytes w h ≤ w * h := by
  simp only [geomValid, Bool.and_eq_true, decide_eq_true_eq] at hg
  simp only [maxPayload, capBytes, bufBytes_eq_div] at hg ⊢
  generalize w * h = n at hg ⊢
  omega

theorem withGeometry_of_valid {s : State} (k : Nat → Nat → State)
    (hg : geomValid s.cfg s.width.toNat s.height.toNat = true) :
    withGeometry s k = k s.width.toNat s.height.toNat := by rw [withGeometry, if_pos hg]

theorem withGeometry_of_invalid {s : State} (k : Nat → Nat → State)
    (hg : geomValid s.cfg s.width.toNat s.height.toNat = false) :
    withGeometry s k = raise .invalidGeometry (packDims s.width.toNat s.height.toNat)
      (capBytes s.width.toNat s.height.toNat) s := by
  rw [withGeometry, if_neg (by rw [hg]; decide)]

theorem capBytes_lt (w h : BitVec 16) : capBytes w.toNat h.toNat < 2 ^ 29 := by
  have : w.toNat * h.toNat < 2 ^ 16 * 2 ^ 16 := Nat.mul_lt_mul'' w.isLt h.isLt
  simp only [capBytes]; omega

theorem packDims_lt (w h : BitVec 16) : packDims w.toNat h.toNat < 2 ^ 32 := by
  have := w.isLt; have := h.isLt
  simp only [packDims]; omega

/-! Prefixes of the memories (R63). -/

@[simp] theorem length_ibufPrefix (s : State) (n : Nat) : (ibufPrefix s n).length = n := by simp [ibufPrefix]
@[simp] theorem length_obufPrefix (s : State) (n : Nat) : (obufPrefix s n).length = n := by simp [obufPrefix]
@[simp] theorem length_erastPrefix (s : State) (n : Nat) : (erastPrefix s n).length = n := by simp [erastPrefix]
@[simp] theorem length_drastPrefix (s : State) (n : Nat) : (drastPrefix s n).length = n := by simp [drastPrefix]

/-- A prefix read back after it was written is what was written. -/
theorem prefix_writePrefix {w : Nat} (free : Nat → BitVec w) (m : Memory w) (vs : List (BitVec w)) :
    (List.range vs.length).map (Memory.read free (Memory.writePrefix m vs)) = vs := by
  apply List.ext_getElem (by simp)
  intro i h1 h2
  simp [read_writePrefix, h2]

/-! What `decodeBytes` can answer. -/

/-- A chunk's sizes: it lies inside the byte stream, and every field fits its register. -/
theorem decodeBytes_chunk {magic b payload : List Byte} {q total size skip : Nat}
    (h : decodeBytes magic b = .chunk payload q total size skip) :
    payload.length = size ∧ size + skip + 32 ≤ b.length ∧ q < 2 ^ 32 ∧ total < 2 ^ 64 := by
  unfold decodeBytes decodeBuffer at h
  cases hf : find magic b with
  | none => rw [hf] at h; cases h
  | some i =>
    rw [hf] at h
    simp only [decodeWindow] at h
    split at h
    · cases h
    · rename_i hl
      split at h
      · simp only [decodePayload] at h
        split at h
        · cases h
        · rename_i hc
          split at h
          · injection h with h1 h2 h3 h4 h5
            subst h1 h2 h3 h4 h5
            simp only [List.length_drop] at hl hc ⊢
            refine ⟨?_, by omega, ?_, ?_⟩
            · rw [length_slice, List.length_drop]; omega
            · exact Nat.lt_of_lt_of_le (fromBe_lt _) (by
                rw [length_slice]; exact Nat.pow_le_pow_right (by decide) (Nat.min_le_left _ _) |>.trans (by decide))
            · exact Nat.lt_of_lt_of_le (fromBe_lt _) (by
                rw [length_slice]; exact Nat.pow_le_pow_right (by decide) (Nat.min_le_left _ _) |>.trans (by decide))
          · cases h
      · cases h

theorem pairValue_lt (s : List Byte) : pairValue s < 2 ^ 64 :=
  Nat.lt_of_lt_of_le (fromBe_lt _) (by
    rw [List.length_take]; exact Nat.pow_le_pow_right (by decide) (Nat.min_le_left _ _) |>.trans (by decide))

theorem fromBe_slice_lt (s : List Byte) (a : Nat) {n : Nat} (hn : n ≤ 8) : fromBe (slice s a n) < 2 ^ 64 :=
  Nat.lt_of_lt_of_le (fromBe_lt _) (by
    rw [length_slice]
    exact Nat.pow_le_pow_right (by decide) ((Nat.min_le_left _ _).trans hn) |>.trans (by decide))

/-- A failure is a real error, SHORT is set only with HeaderChecksumMismatch, and the context fits EINFO. -/
theorem decodeBytes_fail {magic b : List Byte} {e : ErrCode} {short : Bool} {x y : Nat}
    (hb : b.length < 2 ^ 64) (h : decodeBytes magic b = .fail e short x y) :
    e ≠ .ok ∧ (short = true → e = .headerChecksumMismatch) ∧ x < 2 ^ 64 ∧ y < 2 ^ 64 := by
  unfold decodeBytes decodeBuffer at h
  cases hf : find magic b with
  | none =>
    rw [hf] at h
    injection h with h1 h2 h3 h4
    subst h1 h2 h3 h4
    exact ⟨by decide, by decide, hb, by decide⟩
  | some i =>
    rw [hf] at h
    simp only [decodeWindow] at h
    split at h
    · rename_i hl
      injection h with h1 h2 h3 h4
      subst h1 h2 h3 h4
      exact ⟨by decide, fun _ => rfl, by decide, by omega⟩
    · split at h
      · simp only [decodePayload] at h
        split at h
        · injection h with h1 h2 h3 h4
          subst h1 h2 h3 h4
          refine ⟨by decide, by decide, fromBe_slice_lt _ _ (by decide), ?_⟩
          rw [List.length_drop]; omega
        · split at h
          · cases h
          · injection h with h1 h2 h3 h4
            subst h1 h2 h3 h4
            exact ⟨by decide, by decide, fromBe_slice_lt _ _ (by decide), (payloadChecksum _).isLt⟩
      · injection h with h1 h2 h3 h4
        subst h1 h2 h3 h4
        exact ⟨by decide, by decide, pairValue_lt _, pairValue_lt _⟩

/-- DECF on a valid, matching geometry: the recorded result of the closed form, and some hidden state. -/
theorem execDecf_of_match {s : State} (hg : geomValid s.cfg s.width.toNat s.height.toNat = true)
    (hw : s.rwidth = s.width) (hh : s.rheight = s.height) :
    ∃ hd, execDecf s = .next (recordDecode
      (decodeBytes s.cfg.magic.toList (bytesOf (drastPrefix s (s.width.toNat * s.height.toNat))))
      { decfStart s with hidden := hd }) := by
  have hm : s.cfg.magic.toList.length = 6 := by simp
  have hs := decode_scan hm (ctrlStrict s.ctrl) s.hidden (drastPrefix s (s.width.toNat * s.height.toNat))
  have hl : (bytesOf (drastPrefix s (s.width.toNat * s.height.toNat))).length =
      capBytes s.width.toNat s.height.toNat := by rw [length_bytesOf, length_drastPrefix]; rfl
  have hc : s.rwidth = s.width ∧ s.rheight = s.height := ⟨hw, hh⟩
  have e : execDecf s = .next (withGeometry (decfStart s) fun w h =>
    if s.rwidth = s.width ∧ s.rheight = s.height then
      if (scan s.cfg.magic.toList (ctrlStrict s.ctrl) s.hidden (drastPrefix s (w * h))).2 then
        recordDecode (headerMismatch ((scan s.cfg.magic.toList (ctrlStrict s.ctrl) s.hidden
          (drastPrefix s (w * h))).1.fbuf.take format.headerSize))
          { decfStart s with hidden := (scan s.cfg.magic.toList (ctrlStrict s.ctrl) s.hidden (drastPrefix s (w * h))).1 }
      else
        recordDecode (decodeBuffer s.cfg.magic.toList (capBytes w h) (scan s.cfg.magic.toList (ctrlStrict s.ctrl) s.hidden
          (drastPrefix s (w * h))).1.fbuf (scan s.cfg.magic.toList (ctrlStrict s.ctrl) s.hidden (drastPrefix s (w * h))).1.skip)
          { decfStart s with hidden := settleHidden s.cfg.magic.toList (scan s.cfg.magic.toList (ctrlStrict s.ctrl) s.hidden (drastPrefix s (w * h))).1 }
    else raise .dimensionMismatch (packDims w h) (packDims s.rwidth.toNat s.rheight.toNat) (decfStart s)) := rfl
  rw [e, withGeometry_of_valid (s := decfStart s) _ hg]
  dsimp only
  rw [if_pos hc, show (decfStart s).width = s.width from rfl, show (decfStart s).height = s.height from rfl]
  rw [hl] at hs
  by_cases h2 : (scan s.cfg.magic.toList (ctrlStrict s.ctrl) s.hidden (drastPrefix s (s.width.toNat * s.height.toNat))).2 = true
  · rw [if_pos h2] at hs ⊢
    exact ⟨_, by rw [← hs]⟩
  · rw [if_neg h2] at hs ⊢
    exact ⟨_, by rw [← hs]⟩

/-- Everything DECF can do (R180, R183). -/
theorem execDecf_cases (s : State) : ∃ hd, execDecf s = .next (
    if geomValid s.cfg s.width.toNat s.height.toNat = true then
      if s.rwidth = s.width ∧ s.rheight = s.height then
        recordDecode (decodeBytes s.cfg.magic.toList (bytesOf (drastPrefix s (s.width.toNat * s.height.toNat))))
          { decfStart s with hidden := hd }
      else raise .dimensionMismatch (packDims s.width.toNat s.height.toNat)
        (packDims s.rwidth.toNat s.rheight.toNat) (decfStart s)
    else raise .invalidGeometry (packDims s.width.toNat s.height.toNat)
      (capBytes s.width.toNat s.height.toNat) (decfStart s)) := by
  by_cases hg : geomValid s.cfg s.width.toNat s.height.toNat = true
  · by_cases hd : s.rwidth = s.width ∧ s.rheight = s.height
    · obtain ⟨h, e⟩ := execDecf_of_match hg hd.1 hd.2
      exact ⟨h, by rw [if_pos hg, if_pos hd, e]⟩
    · refine ⟨s.hidden, ?_⟩
      rw [if_pos hg, if_neg hd]
      show Host.Outcome.next (withGeometry (decfStart s) _) = _
      rw [withGeometry_of_valid (s := decfStart s) _ hg]
      dsimp only
      rw [if_neg (by exact hd)]
      rfl
  · refine ⟨s.hidden, ?_⟩
    rw [if_neg hg]
    show Host.Outcome.next (withGeometry (decfStart s) _) = _
    rw [withGeometry_of_invalid (s := decfStart s) _ (by exact Bool.eq_false_iff.mpr hg)]
    rfl

/-! The raster a frame command writes (R132, R134). -/

/-- Every cell of ERAST after a frame was painted. -/
theorem readErast_paintFrame (s : State) (pl : List Byte) (q : Word) (t : DWord) (w h p : Nat) :
    readErast (paintFrame s pl q t w h) p = if p < w * h then (if p < 8 * (32 + pl.length) then bitAt (frameBytes s.cfg.magic.toList pl q t) p else 0#1) else readErast s p := by
  have hm : s.cfg.magic.toList.length = 6 := by simp
  show Memory.read _ (Memory.writePrefix s.erast (encodeFrame _ _ _ _ _ _)) p = _
  rw [read_writePrefix]
  have hl : (encodeFrame s.cfg.magic.toList pl q t w h).length = w * h := length_mapBits _ _ _
  by_cases hp : p < w * h
  · rw [dif_pos (by omega), if_pos hp]
    have := getD_paintBits (w := w) (h := h) 0 (bitStream (frameBytes s.cfg.magic.toList pl q t)) (List.replicate (w * h) 0#1) (by simp) hp
    have e : (encodeFrame s.cfg.magic.toList pl q t w h)[p]'(by omega) = (encodeFrame s.cfg.magic.toList pl q t w h).getD p 0#1 := by simp [List.getD_eq_getElem?_getD, hl, hp]
    rw [e, encodeFrame, mapBits, this]
    simp only [Nat.zero_le, Nat.sub_zero, true_and, length_bitStream, length_frameBytes hm]
    have hz : (List.replicate (w * h) 0#1).getD p 0#1 = 0#1 := by simp [List.getD_eq_getElem?_getD, hp]
    rw [hz]
    by_cases hlt : p < 8 * (32 + pl.length)
    · rw [bitStream_getD _ (by rw [length_frameBytes hm]; exact hlt), if_pos hlt]
      rcases bit_cases (bitAt (frameBytes s.cfg.magic.toList pl q t) p) with h | h <;> simp [h, hlt]
    · simp [hlt]
  · rw [dif_neg (by omega), if_neg hp]; rfl

/-! Host accesses (R21, R61, R280). -/

theorem ofNum_num (r : Reg) : Reg.ofNum r.num = some r := by cases r <;> rfl

/-- A well-formed access on a block that can take it is performed. -/
theorem nextEvent_of_wf {s : State} {x : Access} {rest : List Access} (hs : s.script = x :: rest) (hb : statusBusy s.status = false ∨ allowedWhileBusy x = true) (hx : x.malformed s.cfg = none) :
    nextEvent s = plainAccess x { s with script := rest } := by
  rw [nextEvent, hs]
  simp only [portAccess, hx]
  rw [if_neg]
  rcases hb with h | h <;> simp [h]

end Sys2Proof.Machine
end

