-- ==== Sys2Proof/Laws/HostJob.lean ====
section
/-! SUPPORT. What the host's accesses do one after another: a list of them, the loading of IBUF and of DRAST,
the geometry, and a command at the end. -/

namespace Sys2Proof.Machine

/-- A well-formed access on an idle block is performed. -/
theorem runAccesses_cons {s : State} {x : Access} (rest : List Access) (hb : statusBusy s.status = false)
    (hx : x.malformed s.cfg = none) {t : State} (ht : plainAccess x { s with script := [] } = .done t) :
    runAccesses (x :: rest) s = runAccesses rest t := by
  have h : step { s with script := [x] } = .next t := by
    rw [step, nextEvent_of_wf (s := { s with script := [x] }) (x := x) (rest := []) rfl (.inl hb) hx, ht]
  rw [runAccesses, h]

/-- Accesses after accesses that none refuses. -/
theorem runAccesses_append {xs : List Access} {s t : State} (h : runAccesses xs s = (t, none))
    (ys : List Access) : runAccesses (xs ++ ys) s = runAccesses ys t := by
  induction xs generalizing s with
  | nil => cases h; rfl
  | cons x rest ih =>
    rw [List.cons_append]
    simp only [runAccesses] at h ⊢
    cases hs : step { s with script := [x] } with
    | next u => rw [hs] at h; exact ih h
    | fault f => exact nomatch f
    | refused r => rw [hs] at h; cases h

/-- A command on an idle block is its `exec`. -/
theorem runAccesses_cmd {i : Instr} {s t : State} (hb : statusBusy s.status = false)
    (h : exec i { s with script := [] } = .next t) : runAccesses [cmd i] s = (t, none) := by
  have hs : step { s with script := [cmd i] } = .next t := by
    rw [step, nextEvent_of_wf (s := { s with script := [cmd i] }) (x := cmd i) (rest := []) rfl (.inl hb)
      (by cases i <;> rfl)]
    cases i <;> exact h
  simp only [runAccesses, hs]

/-- Loading IBUF from cell `a` on: those cells hold the bytes, the others what they held. -/
theorem runAccesses_ibuf (vs : List Byte) (a : Nat) (s : State) (hb : statusBusy s.status = false)
    (ha : a + vs.length ≤ bufBytes s.cfg) :
    ∃ t, runAccesses (writeCells .ibuf a vs) s = (t, none) ∧
      t = { s with ibuf := t.ibuf, script := t.script } ∧
      ∀ b, readIbuf t b = if a ≤ b ∧ b < a + vs.length then vs.getD (b - a) 0#8 else readIbuf s b := by
  induction vs generalizing a s with
  | nil => exact ⟨s, rfl, rfl, fun b => by rw [if_neg (by simp)]⟩
  | cons v rest ih =>
    rw [List.length_cons] at ha
    have hv : (v.setWidth 64).toNat < 2 ^ Space.bits .ibuf := by
      have h8 : 2 ^ Space.bits .ibuf = 256 := rfl
      have := v.isLt
      rw [BitVec.toNat_setWidth]; omega
    obtain ⟨t, h1, h2, h3⟩ := ih (a + 1) { s with script := [], ibuf := Memory.write s.ibuf a v } hb
      (by simp only; omega)
    refine ⟨t, ?_, by rw [h2], fun b => ?_⟩
    · rw [writeCells, runAccesses_cons _ hb (t := { s with script := [], ibuf := Memory.write s.ibuf a v }), h1]
      · have h : a < Space.size s.cfg .ibuf := by show a < bufBytes s.cfg; omega
        simp only [Access.malformed, h, hv, if_true]
      · simp [plainAccess, writeCell]
    · rw [h3, List.length_cons]
      simp only [readIbuf, read_write]
      by_cases e : b = a
      · subst e
        rw [if_neg (by omega), if_pos rfl, if_pos (by omega)]; simp
      · by_cases h : a + 1 ≤ b ∧ b < a + 1 + rest.length
        · rw [if_pos h, if_pos (by omega), show b - a = (b - (a + 1)) + 1 by omega, List.getD_cons_succ]
        · rw [if_neg h, if_neg e, if_neg (by omega)]

/-- Loading DRAST from cell `a` on: those cells hold the samples, the others what they held. -/
theorem runAccesses_drast (vs : List Sample) (a : Nat) (s : State) (hb : statusBusy s.status = false)
    (ha : a + vs.length ≤ s.cfg.maxPixels) :
    ∃ t, runAccesses (writeCells .drast a vs) s = (t, none) ∧
      t = { s with drast := t.drast, script := t.script } ∧
      ∀ b, readDrast t b = if a ≤ b ∧ b < a + vs.length then vs.getD (b - a) 0#8 else readDrast s b := by
  induction vs generalizing a s with
  | nil => exact ⟨s, rfl, rfl, fun b => by rw [if_neg (by simp)]⟩
  | cons v rest ih =>
    rw [List.length_cons] at ha
    have hv : (v.setWidth 64).toNat < 2 ^ Space.bits .drast := by
      have h8 : 2 ^ Space.bits .drast = 256 := rfl
      have : v.toNat < 256 := v.isLt
      rw [BitVec.toNat_setWidth]; omega
    obtain ⟨t, h1, h2, h3⟩ := ih (a + 1) { s with script := [], drast := Memory.write s.drast a v } hb
      (by simp only; omega)
    refine ⟨t, ?_, by rw [h2], fun b => ?_⟩
    · rw [writeCells, runAccesses_cons _ hb (t := { s with script := [], drast := Memory.write s.drast a v }), h1]
      · have h : a < Space.size s.cfg .drast := by show a < s.cfg.maxPixels; omega
        simp only [Access.malformed, h, hv, if_true]
      · simp only [plainAccess, writeCell]
        rw [BitVec.setWidth_setWidth_of_le _ (by decide), BitVec.setWidth_eq]
    · rw [h3, List.length_cons]
      simp only [readDrast, read_write]
      by_cases e : b = a
      · subst e
        rw [if_neg (by omega), if_pos rfl, if_pos (by omega)]; simp
      · by_cases h : a + 1 ≤ b ∧ b < a + 1 + rest.length
        · rw [if_pos h, if_pos (by omega), show b - a = (b - (a + 1)) + 1 by omega, List.getD_cons_succ]
        · rw [if_neg h, if_neg e, if_neg (by omega)]

/-- `WR NAME, v` of a register but CMD, when the value fits it. -/
theorem runAccesses_wr {r : Reg} {w : Nat} (v : BitVec w) {s : State} (rest : List Access)
    (hb : statusBusy s.status = false) (hr : r ≠ .cmd) (hv : v.toNat < 2 ^ r.bits) :
    runAccesses (wr r v :: rest) s =
      runAccesses rest (writeRegister r (v.setWidth 64) { s with script := [] }) := by
  apply runAccesses_cons _ hb
  · simp only [wr, Access.malformed, ofNum_num]
    refine if_pos ?_
    exact Nat.lt_of_le_of_lt (by rw [BitVec.toNat_setWidth]; exact Nat.mod_le _ _) hv
  · simp only [wr, plainAccess, ofNum_num]

/-- `GEOM w, h`. -/
theorem runAccesses_geom (w h : BitVec 16) {s : State} (rest : List Access) (hb : statusBusy s.status = false) :
    runAccesses (geom w h ++ rest) s = runAccesses rest { s with width := w, height := h, script := [] } := by
  refine (runAccesses_wr (r := .width) w (wr .height h :: rest) hb (by decide) w.isLt).trans
    ((runAccesses_wr (r := .height) (s := writeRegister .width (w.setWidth 64) { s with script := [] }) h rest
      hb (by decide) h.isLt).trans ?_)
  congr 1
  apply State.ext_fields <;> first | rfl | simp [writeRegister]

/-! The encode job (R218). -/

/-- Accesses that none refuses, ending in a command that succeeds. -/
theorem issue_of_ok {xs : List Access} {s t : State} (h : runAccesses xs s = (t, none))
    (he : statusErr t.status = 0#4) : issue xs s = (t, none) := by simp only [issue, h, he, if_true]

/-- Accesses that none refuses, ending in a command that fails. -/
theorem issue_of_error {xs : List Access} {s t : State} (h : runAccesses xs s = (t, none))
    (he : statusErr t.status ≠ 0#4) : issue xs s = (t, some (.command (statusErr t.status))) := by
  simp only [issue, h, he, if_false]

/-- After a failure of the host's own the block is as CLR leaves it. -/
theorem abandon_of_idle {s t : State} (hb : statusBusy s.status = false)
    (h : exec .clr { s with script := [] } = .next t) : abandon s = t := by
  rw [abandon, runAccesses_cmd hb h]

/-- One frame of an encode job whose bytes can be read and whose command succeeds. -/
theorem encodeOne_of_ok {io : Collaborators} {k : Word} {xs : List Access} {s t : State} (n : Nat)
    (number : State → Word) (hr : io.readable k = true) (h : runAccesses xs s = (t, none))
    (he : statusErr t.status = 0#4) :
    encodeOne io k xs n number s =
      if io.writable (number t) then (.ok ⟨number t, erastPrefix t n⟩, t)
      else (.error .rasterError, abandon t) := by
  simp only [encodeOne, hr, if_true, issue_of_ok h he]

/-- One frame of an encode job whose bytes cannot be read. -/
theorem encodeOne_of_unreadable {io : Collaborators} {k : Word} (xs : List Access) (n : Nat)
    (number : State → Word) (s : State) (hr : io.readable k = false) :
    encodeOne io k xs n number s = (.error .pathError, abandon s) := by
  simp [encodeOne, hr]

/-! The host's checks of a decoded chunk (R286). -/

/-- With neither check on, a feed is `asm_feed`. -/
theorem feedChecked_of_unchecked {o : HostOptions} (m : Nat) (a : Assembler) (c : Chunk)
    (hs : o.sequenceCheck = false) (ht : o.totalCheck = false) : feedChecked o m a c = .ok (asmFeed a c) := by
  simp [feedChecked, hs, ht]

/-- Everything a feed that ends without an error can do: drop an implausible chunk, or be `asm_feed` on a chunk
that passed the checks. -/
theorem feedChecked_ok {o : HostOptions} {m : Nat} {a b : Assembler} {c : Chunk}
    (h : feedChecked o m a c = .ok b) :
    (o.sequenceCheck = true ∧ plausibleSequence m c = false ∧ b = a) ∨
    ((o.sequenceCheck = true → plausibleSequence m c = true) ∧
      (o.totalCheck = true → ∀ t, a.totalSize = some t → t = c.totalSize) ∧ b = asmFeed a c) := by
  unfold feedChecked at h
  split at h
  · rename_i hs
    simp only [Bool.and_eq_true, Bool.not_eq_true'] at hs
    cases h
    exact .inl ⟨hs.1, hs.2, rfl⟩
  · rename_i hs
    simp only [Bool.and_eq_true, Bool.not_eq_true', not_and, Bool.not_eq_false] at hs
    split at h
    · cases h
    · rename_i ht
      cases h
      refine .inr ⟨hs, fun hc t he => ?_, rfl⟩
      rw [if_pos hc, otherTotal, he] at ht
      simpa [Option.filter] using ht

end Sys2Proof.Machine
end

