-- ==== Sys2Proof/Laws/PerInstr.lean ====
section
/-! SUPPORT. What holds of every command as syntax, one lemma a constructor (family Format of LAWS.json). -/

namespace Sys2Proof.Laws.Format

/-- R85, R87: a command is well formed, its word has a zero ZERO field and its own OPCODE, and the
decoder reads it back. -/
def Statement (i : Instr) : Prop :=
  i.wf = true ∧ zeroField (encode i) = 0#24 ∧ opcodeField (encode i) = opcodeOf i ∧
    decode (encode i) = .ok i

theorem hck : Statement .hck := by unfold Statement; decide
theorem crc : Statement .crc := by unfold Statement; decide
theorem encf : Statement .encf := by unfold Statement; decide
theorem encb : Statement .encb := by unfold Statement; decide
theorem encn : Statement .encn := by unfold Statement; decide
theorem decf : Statement .decf := by unfold Statement; decide
theorem clr : Statement .clr := by unfold Statement; decide

end Sys2Proof.Laws.Format
end

