-- ==== Sys2Proof/Tests/Slice0.lean ====
section
/-! SUPPORT. The tests: command words written out from spec/30_encoding.md R85 and R87, ill-formed terms that
the checks refuse, one-step tests whose expected values are the vectors of spec/95_test_vectors.md (V
numbers), and a witness for the hypotheses of every statement that has some. -/

set_option Elab.async false

namespace Sys2Proof.Tests

open Sys2Proof.Machine

/-! ## Helpers -/

/-- MAGIC_T of R9, "44 32 56 46 52 4D". -/
def magicT : Vector Byte 6 := #v[0x44, 0x32, 0x56, 0x46, 0x52, 0x4D]

/-- The test instance at its default size (R9, R10). -/
def testParams : Config.Params := { magic := magicT, maxPixels := 921600 }

/-- The conventions of 95_test_vectors.md at geometry 24 x 12, everything else as after reset. -/
def base : State :=
  { State.reset with cfg := testParams, width := 24, height := 12, rwidth := 24, rheight := 12 }

/-- `LOAD b`, done at once. -/
def withInputBytes (s : State) (b : List Byte) : State :=
  { s with ibuf := Memory.cellsFrom 0 b, len := BitVec.ofNat 32 b.length }

/-- `RAST b, WIDTH, HEIGHT`, done at once: `b` as ideal samples, then white. -/
def withRaster (s : State) (b : List Byte) : State :=
  let white := List.replicate (s.width.toNat * s.height.toNat - 8 * b.length) 0#1
  { s with drast := Memory.cellsFrom 0 (ideal (bitStream b ++ white)) }

/-- The state a step of `s` that writes `w` to CMD ends in; `s` if it stops. -/
def after (s : State) (w : Nat) : State :=
  match step (s.withFetchWord 32 w) with
  | .next t => t
  | .fault f => nomatch f
  | .refused _ => s

/-- The listed pixels of ERAST, eight a byte. -/
def inkBytes (s : State) : List Byte := bytesOf (ideal (s.erast.map (·.2)))

/-- A next state. -/
def isNext (o : Host.Outcome State Fault Refusal) : Bool :=
  match o with
  | .next _ => true
  | .fault f => nomatch f
  | .refused _ => false

theorem exists_of_isNext {o : Host.Outcome State Fault Refusal} (h : isNext o = true) :
    ∃ t, o = .next t := by
  cases o with
  | next t => exact ⟨t, rfl⟩
  | fault f => exact nomatch f
  | refused r => cases h

/-! ## Decoding: the words of R87, bit by bit -/

theorem test_word_hck : decode 0b00000000000000000000000000000001#32 = .ok .hck := by decide
theorem test_word_crc : decode 0b00000000000000000000000000000010#32 = .ok .crc := by decide
theorem test_word_encf : decode 0b00000000000000000000000000000011#32 = .ok .encf := by decide
theorem test_word_encb : decode 0b00000000000000000000000000000100#32 = .ok .encb := by decide
theorem test_word_encn : decode 0b00000000000000000000000000000101#32 = .ok .encn := by decide
theorem test_word_decf : decode 0b00000000000000000000000000000110#32 = .ok .decf := by decide
theorem test_word_clr : decode 0b00000000000000000000000000000111#32 = .ok .clr := by decide

theorem test_reserved_words :
    decode 0x00000000#32 = .error (.reservedOpcode 0) ∧
    decode 0x00000008#32 = .error (.reservedOpcode 8) ∧
    decode 0x000000FF#32 = .error (.reservedOpcode 0xFF) ∧
    decode 0x00000106#32 = .error (.zeroFieldNotZero 0x106) ∧
    decode 0xFFFFFFFF#32 = .error (.zeroFieldNotZero 0xFFFFFFFF) := by decide

theorem test_decode_table_word :
    decodeTableWord 32 6 = some .decf ∧ decodeTableWord 32 0x106 = none ∧
    decodeTableWord 8 6 = some .decf := by decide

/-! ## WellFormed: one ill-formed term a check -/

theorem test_params_too_small : Config.Params.wf { magic := magicT, maxPixels := 263 } = false := by decide
theorem test_params_too_big : Config.Params.wf { magic := magicT, maxPixels := 2 ^ 32 } = false := by decide
theorem test_params_ok : Config.Params.wf { magic := magicT, maxPixels := 264 } = true := by decide
theorem test_register_value_too_wide :
    Access.malformed base.cfg (.writeReg Reg.width.num 65536) = some .valueTooWide := by decide
theorem test_cell_value_too_wide :
    Access.malformed base.cfg (.writeCell .erast 0 2) = some .valueTooWide := by decide
theorem test_written_cell_does_not_exist :
    Access.malformed base.cfg (.writeCell .ibuf 115200 0) = some .noSuchCell := by decide
theorem test_read_cell_does_not_exist :
    Access.malformed base.cfg (.readCell .drast 921600) = some .noSuchCell := by decide
theorem test_reserved_register_is_well_formed :
    Access.wf base.cfg (.writeReg 0x40 0xFFFFFFFF) = true := by decide

/-! ## Checksums -/

/-- V7, V9c and V1. -/
theorem test_payload_checksum :
    payloadChecksum [0x41, 0x42, 0x43] = 0x7147575CCA04D660#64 ∧
    payloadChecksumByBytes [0xDE, 0xAD] = 0x1B87216D3C455793#64 ∧ payloadChecksum [] = 0#64 := by
  decide +kernel

/-- V12 and V15. -/
theorem test_header_checksum :
    headerChecksum [1, 2, 3, 4, 5] = [4, 2, 3, 4] ∧
    headerChecksum [1, 2, 3, 4, 1, 2, 3, 4] = [0, 0, 0, 0] := by decide

/-! ## One step a command -/

/-- V16. -/
theorem test_hck :
    (after (withInputBytes base [1, 2, 3, 4, 5]) 1).ck4 = 0x04020304#32 ∧
    (after (withInputBytes base [1, 2, 3, 4, 5]) 1).status = 0#32 := by decide +kernel

/-- V19. -/
theorem test_hck_too_long :
    (after { base with len := 115201, ck4 := 0x04020304 } 1).status = 10#32 ∧
    (after { base with len := 115201, ck4 := 0x04020304 } 1).einfoA = 115201#64 ∧
    (after { base with len := 115201, ck4 := 0x04020304 } 1).einfoB = 115200#64 ∧
    (after { base with len := 115201, ck4 := 0x04020304 } 1).ck4 = 0x04020304#32 := by decide +kernel

/-- V17. -/
theorem test_crc :
    (after (withInputBytes base [0x31, 0x32, 0x33, 0x34, 0x35, 0x36, 0x37, 0x38, 0x39]) 2).crc =
      0x62EC59E3F1A4F00A#64 := by decide +kernel

/-- V73: the status is not sticky. -/
theorem test_crc_clears_status :
    (after { base with status := 0x103, einfoA := 32, einfoB := 6 } 2).status = 0#32 ∧
    (after { base with status := 0x103, einfoA := 32, einfoB := 6 } 2).einfoA = 0#64 := by
  decide +kernel

/-- V20: the raster, three bytes a row. -/
theorem test_encf :
    inkBytes (after { withInputBytes base [0x41, 0x42, 0x43] with total := 3 } 3) =
      [0x44, 0x32, 0x56, 0x46, 0x52, 0x4D, 0, 0, 0, 0, 0, 0, 0, 3, 0, 0, 0, 0, 0, 0, 0, 3,
       0x71, 0x47, 0x57, 0x5C, 0xCA, 0x04, 0xD6, 0x60, 0x97, 0x43, 0x41, 0x42, 0x43, 0] := by
  decide +kernel

/-- V23: one byte above maxPayload. -/
theorem test_encf_too_long :
    (after (withInputBytes base [0xFF, 0, 0xA5, 1, 5]) 3).status = 10#32 ∧
    (after (withInputBytes base [0xFF, 0, 0xA5, 1, 5]) 3).einfoA = 5#64 ∧
    (after (withInputBytes base [0xFF, 0, 0xA5, 1, 5]) 3).einfoB = 4#64 := by decide +kernel

/-- P2: ENCB of a 9-byte job. -/
theorem test_encb :
    (after { base with total := 9 } 4).status = 0x20#32 ∧
    (after { base with total := 9 } 4).jRemain = 9#64 ∧
    readRegister .jNext (after { base with total := 9 } 4) = 4#64 := by decide +kernel

/-- P4: geometry 16 x 16 is invalid. -/
theorem test_encb_invalid_geometry :
    (after { base with width := 16, height := 16 } 4).status = 9#32 ∧
    (after { base with width := 16, height := 16 } 4).einfoA = 0x00100010#64 ∧
    (after { base with width := 16, height := 16 } 4).einfoB = 32#64 := by decide +kernel

/-- The job of P2 with one byte left, before its third ENCN. -/
def lastChunk : State :=
  { withInputBytes base [0x18] with
    status := 0x20
    jWidth := 24
    jHeight := 12
    jTotal := 9
    jRemain := 1
    jSeq := 2 }

/-- P2, frame C: the last chunk ends the job. -/
theorem test_encn_last :
    inkBytes (after lastChunk 5) =
      [0x44, 0x32, 0x56, 0x46, 0x52, 0x4D, 0, 0, 0, 0, 0, 0, 0, 9, 0, 0, 0, 2, 0, 0, 0, 1,
       0x6E, 0xA7, 0x52, 0x53, 0x42, 0xE1, 0xE9, 0xA9, 0xAD, 0x8F, 0x18, 0, 0, 0] ∧
    (after lastChunk 5).status = 0x40#32 ∧ (after lastChunk 5).jSeq = 3#32 := by decide +kernel

/-- P2: ENCN once more. -/
theorem test_encn_no_job : (after { base with status := 0x40 } 5).status = 0x4B#32 := by
  decide +kernel

/-- The frame of V40, `H7 ++ DE AD`. -/
def frame7 : List Byte := frameBytes magicT.toList [0xDE, 0xAD] 7 1000

/-- V40: two noise bytes, then the frame. -/
theorem test_decf_skips_noise :
    obufPrefix (after (withRaster base ([0x5A, 0xC3] ++ frame7)) 6) 2 = [0xDE, 0xAD] ∧
    (after (withRaster base ([0x5A, 0xC3] ++ frame7)) 6).dSkip = 2#32 ∧
    (after (withRaster base ([0x5A, 0xC3] ++ frame7)) 6).dTotal = 1000#64 ∧
    (after (withRaster base ([0x5A, 0xC3] ++ frame7)) 6).status = 0x10#32 := by decide +kernel

/-- V46, strict: a header byte of lane 0 corrupted. -/
theorem test_decf_header_mismatch :
    (after (withRaster { base with ctrl := 1 }
      ((frameBytes magicT.toList [0x41, 0x42, 0x43] 0 3).modify 8 (· ^^^ 0x10))) 6).status = 3#32 ∧
    (after (withRaster { base with ctrl := 1 }
      ((frameBytes magicT.toList [0x41, 0x42, 0x43] 0 3).modify 8 (· ^^^ 0x10))) 6).einfoA = 0x9743#64 ∧
    (after (withRaster { base with ctrl := 1 }
      ((frameBytes magicT.toList [0x41, 0x42, 0x43] 0 3).modify 8 (· ^^^ 0x10))) 6).einfoB = 0x8743#64 := by
  decide +kernel

/-- V74. -/
theorem test_clr :
    (after { base with status := 0x30, jSeq := 1, jRemain := 5, dSeq := 7, ck4 := 0x04020304 } 7) =
      { base with status := 0 } := by decide +kernel

/-- V71: an illegal word. -/
theorem test_illegal :
    (after { base with status := 0x30 } 0x106).status = 0x38#32 ∧
    (after { base with status := 0x30 } 0x106).einfoA = 0x106#64 := by decide +kernel

/-! ## The host contract -/

/-- V81 and V80: the three chunks of P2, one missing, and shuffled with a duplicate. -/
def chunk0 : Chunk := ⟨0, [0x10, 0x11, 0x12, 0x13], 9⟩
/-- The second chunk of P2. -/
def chunk1 : Chunk := ⟨1, [0x14, 0x15, 0x16, 0x17], 9⟩
/-- The third chunk of P2. -/
def chunk2 : Chunk := ⟨2, [0x18], 9⟩

theorem test_missing_chunk :
    asmFinish false ([chunk0, chunk2].foldl asmFeed .empty) = .error (.incompleteReconstruction 9 5) := by
  decide +kernel

theorem test_shuffled_chunks :
    asmFinish true ([chunk2, chunk0, chunk0, chunk1].foldl asmFeed .empty) =
      .ok [0x10, 0x11, 0x12, 0x13, 0x14, 0x15, 0x16, 0x17, 0x18] := by decide +kernel

/-- V84: the stray first. -/
theorem test_stray_first :
    asmFinish false ([⟨3, [0xEE, 0xEE, 0xEE, 0xEE], 4⟩, chunk0, chunk1, chunk2].foldl asmFeed .empty) =
      .ok [0x10, 0x11, 0x12, 0x13] := by decide +kernel

/-! ## Witnesses: a state and operands that meet the hypotheses of each statement -/

theorem witness_ReservedWordsAreIllegal :
    reservedWord 0x00000000#32 ∧ reservedWord 0x00000008#32 ∧ reservedWord 0x000000FF#32 ∧
    reservedWord 0x00000106#32 ∧ reservedWord 0xFFFFFFFF#32 ∧ ¬reservedWord 0x00000007#32 ∧
    ¬reservedWord 0x00000001#32 := by unfold reservedWord; decide

/-- `base` with `x` as the host's next access. -/
def scripted (x : Access) : State := { base with script := [x, .reset] }

/-- `scripted` on a block that shows BUSY = 1, which no run reaches. -/
def busyScripted (x : Access) : State := { base with script := [x, .reset], status := 0x80 }

theorem witness_StepRunsDecodedCommand :
    ((scripted (cmdAccess ((6#32).setWidth 64))).script = cmdAccess ((6#32).setWidth 64) :: [.reset] ∧
      statusBusy (scripted (cmdAccess ((6#32).setWidth 64))).status = false ∧
      decode 6#32 = .ok .decf) ∧
    ((scripted (cmdAccess ((0x106#32).setWidth 64))).script =
        cmdAccess ((0x106#32).setWidth 64) :: [.reset] ∧
      decode 0x106#32 = .error (.zeroFieldNotZero 0x106)) ∧
    base.script = [] := by decide +kernel

/-- Idle, and STATUS while busy; the last cell of a memory. -/
theorem witness_HostReadsHaveNoSideEffect :
    ((scripted (.readReg 0x18)).script = .readReg 0x18 :: [.reset] ∧
      statusBusy (scripted (.readReg 0x18)).status = false) ∧
    ((busyScripted (.readReg 0x01)).script = .readReg 0x01 :: [.reset] ∧
      statusBusy (busyScripted (.readReg 0x01)).status = true ∧ 0x01#8 = Reg.num .status) ∧
    ((scripted (.readCell .ibuf 115199)).script = .readCell .ibuf 115199 :: [.reset] ∧
      115199 < Space.size (scripted (.readCell .ibuf 115199)).cfg .ibuf) := by decide +kernel

/-- CTRL and WIDTH at the greatest values they take. -/
theorem witness_HostWritesRegister :
    ((scripted (.writeReg (Reg.num .ctrl) 0xFFFFFFFF)).script =
        .writeReg (Reg.num .ctrl) 0xFFFFFFFF :: [.reset] ∧
      statusBusy base.status = false ∧ Reg.hostWritable .ctrl = true ∧
      (0xFFFFFFFF#64).toNat < 2 ^ Reg.bits .ctrl) ∧
    ((scripted (.writeReg (Reg.num .width) 65535)).script =
        .writeReg (Reg.num .width) 65535 :: [.reset] ∧
      Reg.hostWritable .width = true ∧ (65535#64).toNat < 2 ^ Reg.bits .width) := by decide +kernel

theorem witness_IgnoredRegisterWrites :
    ((scripted (.writeReg (Reg.num .maxpay) 7)).script = .writeReg (Reg.num .maxpay) 7 :: [.reset] ∧
      statusBusy base.status = false ∧ Reg.hostWritable .maxpay = false ∧ Reg.maxpay ≠ .cmd ∧
      (7#64).toNat < 2 ^ Reg.bits .maxpay) ∧
    ((scripted (.writeReg 0x19 7)).script = .writeReg 0x19 7 :: [.reset] ∧ 0x19 ≤ (0x19#8).toNat) ∧
    0x19 ≤ (0xFF#8).toNat ∧ 0x00#8 = Reg.num .cmd := by decide +kernel

/-- The last cell of OBUF and of ERAST, at the greatest values they take. -/
theorem witness_HostWritesOneCell :
    ((scripted (.writeCell .obuf 115199 255)).script = .writeCell .obuf 115199 255 :: [.reset] ∧
      statusBusy base.status = false ∧ 115199 < Space.size base.cfg .obuf ∧
      (255#64).toNat < 2 ^ Space.bits .obuf) ∧
    ((scripted (.writeCell .erast 921599 1)).script = .writeCell .erast 921599 1 :: [.reset] ∧
      921599 < Space.size base.cfg .erast ∧ (1#64).toNat < 2 ^ Space.bits .erast) := by decide +kernel

/-- The first cell that does not exist, the first value too wide, an access while busy. -/
theorem witness_InexpressibleAccessesStop :
    ((scripted (.writeCell .ibuf 115200 0)).script = .writeCell .ibuf 115200 0 :: [.reset] ∧
      statusBusy base.status = false ∧ Space.size base.cfg .ibuf ≤ 115200) ∧
    ((scripted (.readCell .drast 921600)).script = .readCell .drast 921600 :: [.reset] ∧
      Space.size base.cfg .drast ≤ 921600) ∧
    ((scripted (.writeCell .erast 921599 2)).script = .writeCell .erast 921599 2 :: [.reset] ∧
      921599 < Space.size base.cfg .erast ∧ 2 ^ Space.bits .erast ≤ (2#64).toNat) ∧
    ((scripted (.writeReg (Reg.num .width) 65536)).script =
        .writeReg (Reg.num .width) 65536 :: [.reset] ∧
      2 ^ Reg.bits .width ≤ (65536#64).toNat) ∧
    ((busyScripted (.readReg 0x02)).script = .readReg 0x02 :: [.reset] ∧
      statusBusy (busyScripted (.readReg 0x02)).status = true ∧ Access.readReg 0x02 ≠ .reset ∧
      Access.readReg 0x02 ≠ .readReg (Reg.num .status)) := by decide +kernel

theorem witness_HardwareReset : (busyScripted .reset).script = .reset :: [.reset] := by decide +kernel

/-- Reserved bits of a small word are 0. -/
theorem reserved_bits_zero {w : Word} {n : Nat} (h : w.toNat < 2 ^ n) (k : Nat) (hk : n ≤ k) :
    w.getLsbD k = false :=
  Nat.testBit_lt_two_pow (Nat.lt_of_lt_of_le h (Nat.pow_le_pow_right (by decide) hk))

/-- The invariant in the middle of a job, and a step from there: ENCN. -/
theorem witness_StepKeepsInvariant :
    lastChunk.Inv ∧ ∃ t, step (lastChunk.withFetchWord 32 5) = .next t := by
  refine ⟨⟨⟨by decide +kernel, by decide +kernel, by decide +kernel, by decide +kernel⟩,
    ⟨by decide +kernel, by decide +kernel, by decide +kernel, by decide +kernel, by decide +kernel,
      by decide +kernel, by decide +kernel⟩,
    ⟨by decide +kernel, by decide +kernel, ⟨.ok, by decide +kernel⟩, by decide +kernel, ?_, ?_⟩,
    by decide +kernel⟩, exists_of_isNext (by decide +kernel)⟩
  · exact reserved_bits_zero (by decide +kernel)
  · exact reserved_bits_zero (by decide +kernel)

theorem witness_NoCommandWritesOperands : ∃ t, runCommand 6#32 base = .next t :=
  exists_of_isNext (by decide +kernel)

theorem witness_ErrorsChangeNothingElse :
    ∃ t, runCommand 6#32 { base with rwidth := 12 } = .next t ∧ statusErr t.status ≠ errNumber .ok :=
  ⟨_, rfl, by decide +kernel⟩

theorem witness_HeaderChecksumCoverage :
    ∃ h h' : List Byte, h.length = 32 ∧ h'.length = 32 ∧ h ≠ h' ∧
      (∀ i, i < 32 → i % 4 < 2 → h.getD i 0#8 = h'.getD i 0#8) ∧
      h.getD 30 0#8 = h'.getD 30 0#8 ∧ h.getD 31 0#8 = h'.getD 31 0#8 ∧ hdrValid h = true ∧
      0xFF#8 ≠ h.getD 0 0#8 ∧ 0xFF#8 ≠ h.getD 29 0#8 ∧ 0xFF#8 ≠ h.getD 30 0#8 ∧
      0xFF#8 ≠ h.getD 31 0#8 :=
  ⟨buildHeader magicT.toList [0x41, 0x42, 0x43] 0 3,
    (buildHeader magicT.toList [0x41, 0x42, 0x43] 0 3).modify 7 (· ^^^ 0xFF), by decide +kernel⟩

theorem witness_CrcDetectsSingleBitErrors : 2 < ([0x41, 0x42, 0x43] : List Byte).length ∧ 7 < 8 := by
  decide

theorem witness_HckResult :
    (base.len.toNat ≤ bufBytes base.cfg ∧
      ({ base with len := 115200 } : State).len.toNat ≤ bufBytes base.cfg) ∧
    bufBytes base.cfg < ({ base with len := 115201 } : State).len.toNat := by decide +kernel

theorem witness_CrcResult :
    (base.len.toNat ≤ bufBytes base.cfg ∧
      ({ base with len := 115200 } : State).len.toNat ≤ bufBytes base.cfg) ∧
    bufBytes base.cfg < ({ base with len := 115201 } : State).len.toNat := by decide +kernel

theorem witness_BuiltHeaderParsesBack : ([0x41, 0x42, 0x43] : List Byte).length < 2 ^ 32 := by decide

theorem witness_AcceptedFramesFit :
    geomValid base.cfg 24 12 = true ∧ 4 ≤ maxPayload 24 12 ∧ geomValid base.cfg 264 1 = true ∧
    1 ≤ maxPayload 264 1 ∧ geomValid base.cfg 1280 720 = true ∧ 115168 ≤ maxPayload 1280 720 := by
  decide +kernel

theorem witness_MapBitsClosedForm : 15 < 4 * 4 ∧ 7 < 8 * ([0xA5] : List Byte).length := by decide

theorem witness_EncfPaintsFrame :
    geomValid base.cfg base.width.toNat base.height.toNat = true ∧
    (withInputBytes base [1, 2, 3, 4]).len.toNat ≤ maxPayload base.width.toNat base.height.toNat := by
  decide +kernel

theorem witness_EncfRefusesLongPayload :
    geomValid base.cfg base.width.toNat base.height.toNat = true ∧
    maxPayload base.width.toNat base.height.toNat < (withInputBytes base [1, 2, 3, 4, 5]).len.toNat := by
  decide +kernel

theorem witness_InvalidGeometryIsReported :
    geomValid base.cfg 263 1 = false ∧ geomValid base.cfg 1281 720 = false ∧
    geomValid base.cfg 0 0 = false := by decide +kernel

theorem witness_EncbBeginsJob :
    geomValid base.cfg base.width.toNat base.height.toNat = true ∧
    (17179869184 + maxPayload base.width.toNat base.height.toNat - 1) /
      maxPayload base.width.toNat base.height.toNat ≤ 2 ^ 32 ∧
    (17179869184#64).toNat = 17179869184 := by decide +kernel

theorem witness_EncbRefusesOverflow :
    geomValid base.cfg base.width.toNat base.height.toNat = true ∧
    2 ^ 32 < (17179869185 + maxPayload base.width.toNat base.height.toNat - 1) /
      maxPayload base.width.toNat base.height.toNat ∧
    (17179869185#64).toNat = 17179869185 := by decide +kernel

theorem witness_EncnEncodesNextChunk :
    statusJob lastChunk.status = true ∧
    geomValid lastChunk.cfg lastChunk.jWidth.toNat lastChunk.jHeight.toNat = true ∧
    1 = min (maxPayload lastChunk.jWidth.toNat lastChunk.jHeight.toNat) lastChunk.jRemain.toNat := by
  decide +kernel

theorem witness_EncnNeedsActiveJob : statusJob base.status = false := by decide +kernel

theorem witness_ChunksReproduceInput :
    0 < 4 ∧ 2 < jobFrames ([1, 2, 3, 4, 5, 6, 7, 8, 9] : List Byte).length 4 := by decide

theorem witness_JobLaw :
    statusBusy base.status = false ∧ geomValid base.cfg (24#16).toNat (12#16).toNat = true ∧
    jobFrames ([1, 2, 3, 4, 5] : List Byte).length (maxPayload (24#16).toNat (12#16).toNat) ≤ 2 ^ 32 ∧
    jobFrames 0 (maxPayload (24#16).toNat (12#16).toNat) = 0 := by decide +kernel

theorem witness_ClassifierThreshold :
    (0#8).toNat ≤ 127 ∧ (127#8).toNat ≤ 127 ∧ 128 ≤ (128#8).toNat ∧ 128 ≤ (255#8).toNat := by decide

theorem witness_ByteStreamOfRaster :
    1 < (List.replicate 23 black).length / 8 ∧ 7 ≤ 7 := by decide +kernel

/-- A raster that decodes and one that does not (all white). -/
theorem witness_DecfIsDecodeBytes :
    (geomValid base.cfg base.width.toNat base.height.toNat = true ∧
      base.rwidth = base.width ∧ base.rheight = base.height) ∧
    decodeBytes magicT.toList (bytesOf (drastPrefix (withRaster base frame7) 288)) =
      .chunk [0xDE, 0xAD] 7 1000 2 0 ∧
    decodeBytes magicT.toList (bytesOf (drastPrefix (withRaster base []) 288)) =
      .fail .magicNotFound false 36 0 := by decide +kernel

theorem witness_DecfRejectsOtherDimensions :
    geomValid base.cfg base.width.toNat base.height.toNat = true ∧
    ({ base with rwidth := 12 } : State).rwidth ≠ base.width ∧
    ({ base with rheight := 24 } : State).rheight ≠ base.height := by decide +kernel

theorem frame7_decodes :
    ∃ t, exec .decf (withRaster base frame7) = .next t ∧ statusErr t.status = errNumber .ok ∧
      statusDvalid t.status = true :=
  ⟨_, rfl, by decide +kernel⟩

/-- Two states that differ in what a DECF does not read, one of which decodes. -/
theorem witness_DecfIsIndependentOfTheRest :
    ∃ s r : State, s ≠ r ∧ r.width = s.width ∧ r.height = s.height ∧ r.rwidth = s.rwidth ∧
      r.rheight = s.rheight ∧ r.ctrl = s.ctrl ∧ r.drast = s.drast ∧ r.draw = s.draw ∧ r.cfg = s.cfg ∧
      ∃ t, exec .decf s = .next t ∧ statusErr t.status = errNumber .ok :=
  ⟨withRaster base frame7, { withRaster base frame7 with ck4 := 5, obuf := [(9, 1)], dSkip := 3 },
    fun h => absurd (congrArg State.ck4 h) (by decide +kernel), rfl, rfl, rfl, rfl, rfl, rfl, rfl, rfl,
    frame7_decodes.imp fun _ h => ⟨h.1, h.2.1⟩⟩

theorem witness_DecodedFrameFitsRaster :
    ∃ t, exec .decf (withRaster base frame7) = .next t ∧ statusDvalid t.status = true :=
  frame7_decodes.imp fun _ h => ⟨h.1, h.2.2⟩

theorem witness_SingleFrameRoundTrip :
    let s := withRaster base (frameBytes magicT.toList [1, 2, 3, 4] 7 1000)
    geomValid s.cfg s.width.toNat s.height.toNat = true ∧ s.rwidth = s.width ∧ s.rheight = s.height ∧
    ([1, 2, 3, 4] : List Byte).length ≤ maxPayload s.width.toNat s.height.toNat ∧
    drastPrefix s (s.width.toNat * s.height.toNat) =
      ideal (encodeFrame s.cfg.magic.toList [1, 2, 3, 4] 7 1000 s.width.toNat s.height.toNat) := by
  decide +kernel

/-- V40 and V43: displacement 2 still fits a capacity of 36 bytes, displacement 3 does not. -/
theorem witness_DisplacedFrameDecodesIfItFits :
    (36 ≤ (([0x5A, 0xC3] : List Byte) ++ frame7 ++ []).length ∧ 2 + 32 ≤ 36 ∧ 2 + 32 + 2 ≤ 36 ∧
      find magicT.toList ([0x5A, 0xC3] ++ frame7) = some 2) ∧
    (36 ≤ (([0x5A, 0xC3, 0x11] : List Byte) ++ frame7 ++ []).length ∧ 3 + 32 ≤ 36 ∧ ¬3 + 32 + 2 ≤ 36 ∧
      find magicT.toList ([0x5A, 0xC3, 0x11] ++ frame7) = some 3) := by decide +kernel

theorem witness_UncoveredHeaderBytesPass :
    ∃ h : List Byte, h.length = 32 ∧ h ≠ buildHeader magicT.toList [0xDE, 0xAD] 7 1000 ∧
      ∀ i, i < 32 → i ∉ [6, 7, 10, 11, 14, 15] →
        h.getD i 0#8 = (buildHeader magicT.toList [0xDE, 0xAD] 7 1000).getD i 0#8 :=
  ⟨(buildHeader magicT.toList [0xDE, 0xAD] 7 1000).modify 15 (· ^^^ 1), by decide +kernel⟩

theorem witness_TolerableChannelLosesNothing :
    tolerable [1#1, 0#1] [127#8, 128#8] = true ∧ tolerable [1#1, 0#1] [128#8, 128#8] = false := by
  decide +kernel

theorem witness_AssemblyIsOrderIndependent :
    (∀ c, c ∈ [chunk0, chunk1, chunk2] ↔ c ∈ [chunk2, chunk0, chunk0, chunk1]) ∧
    (∀ c ∈ [chunk0, chunk1, chunk2], ∀ d ∈ [chunk0, chunk1, chunk2], c.totalSize = d.totalSize) ∧
    (∀ c ∈ [chunk0, chunk1, chunk2], ∀ d ∈ [chunk0, chunk1, chunk2],
      c.sequence = d.sequence → c = d) := by
  refine ⟨fun c => ?_, by decide +kernel, by decide +kernel⟩
  simp only [List.mem_cons, List.not_mem_nil, or_false]
  tauto

theorem witness_MissingFrameFails :
    0 < 4 ∧ jobFrames ([1, 2, 3, 4, 5, 6, 7, 8, 9] : List Byte).length 4 = 3 ∧ [2, 0] ≠ [] ∧
    (∀ k ∈ [2, 0], k < 3) ∧ ∃ k, k < 3 ∧ k ∉ [2, 0] :=
  ⟨by decide, by decide, by decide, by decide, 1, by decide, by decide⟩

/-- A raster of base's geometry that DECF rejects (all white), and one of other dimensions. -/
def strays : List Raster := [⟨24, 12, List.replicate 288 white⟩, ⟨12, 24, [black]⟩]

/-- Stray rasters around the ideal copies of a job's frames, the frames in reverse order and one twice. -/
def delivery (frames : List (List Ink)) : List Raster :=
  let copies := frames.reverse.map fun f => (⟨24, 12, ideal f⟩ : Raster)
  strays ++ copies ++ strays ++ copies.take 1

/-- The frames of a job, none if it fails. -/
def framesOf (r : Except EncodeError (List EncodedFrame) × State) : List EncodedFrame :=
  match r.1 with
  | .ok fs => fs
  | .error _ => []

/-- The frame of a job of one byte, delivered in among strays, and the empty job with strays only. -/
theorem witness_ByteStreamRoundTrip :
    statusBusy base.status = false ∧ geomValid base.cfg (24#16).toNat (12#16).toNat = true ∧
    jobFrames 1 (maxPayload (24#16).toNat (12#16).toNat) ≤ 2 ^ 32 ∧
    (∃ frames, frames = (framesOf (encodeJob .reliable [0x23] 24 12 base)).map (·.ink) ∧ frames.length = 1 ∧
      tolerableChannel base.cfg.magic.toList 24 12 frames (delivery frames)) ∧
    tolerableChannel base.cfg.magic.toList 24 12 [] (delivery []) :=
  ⟨by decide +kernel, by decide +kernel, by decide +kernel,
    ⟨_, rfl, by decide +kernel, by unfold tolerableChannel; decide +kernel⟩,
    by unfold tolerableChannel; decide +kernel⟩

/-- Failing collaborators: no input, frame 1 unreadable, frame 1 unwritable. -/
def noInput : Collaborators := ⟨false, fun _ => true, fun _ => true⟩
/-- Frame 1 cannot be read. -/
def noRead : Collaborators := ⟨true, fun k => k ≠ 1#32, fun _ => true⟩
/-- Frame 1 cannot be written. -/
def noWrite : Collaborators := ⟨true, fun _ => true, fun k => k ≠ 1#32⟩

theorem witness_EncodeJobFailures :
    statusBusy base.status = false ∧ noInput.inputFound = false ∧ noRead.inputFound = true ∧
    noWrite.inputFound = true ∧ geomValid base.cfg (16#16).toNat (16#16).toNat = false ∧
    geomValid base.cfg (24#16).toNat (12#16).toNat = true ∧
    1 < jobFrames ([1, 2, 3, 4, 5] : List Byte).length (maxPayload (24#16).toNat (12#16).toNat) ∧
    jobFrames ([1, 2, 3, 4, 5] : List Byte).length (maxPayload (24#16).toNat (12#16).toNat) ≤ 2 ^ 32 ∧
    noRead.readable (BitVec.ofNat 32 0) = true ∧ noRead.readable (BitVec.ofNat 32 1) = false ∧
    noWrite.writable (BitVec.ofNat 32 0) = true ∧ noWrite.readable (BitVec.ofNat 32 1) = true ∧
    noWrite.writable (BitVec.ofNat 32 1) = false := by decide +kernel

/-- A stream of more than 2^32 frames of 4 bytes exists. -/
theorem witness_EncodeJobFailures_overflow :
    ∃ data : List Byte, data.length < 2 ^ 64 ∧
      2 ^ 32 < jobFrames data.length (maxPayload (24#16).toNat (12#16).toNat) :=
  ⟨List.replicate 17179869185 0, by rw [List.length_replicate]; decide,
    by rw [List.length_replicate]; decide +kernel⟩

theorem witness_BothEncodersAgree :
    (∃ frames u, encodeJob .reliable [1, 2, 3, 4, 5] 24 12 base = (.ok frames, u) ∧
      ∀ k ∈ [1, 0, 1], k < frames.length) ∧ statusBusy base.status = false :=
  ⟨⟨framesOf (encodeJob .reliable [1, 2, 3, 4, 5] 24 12 base),
    (encodeJob .reliable [1, 2, 3, 4, 5] 24 12 base).2, Prod.ext (by decide +kernel) rfl,
    by decide +kernel⟩, by decide +kernel⟩

/-- A chunk whose sequence no job of 9 bytes in chunks of 4 has, and one with another totalSize (R189, R286). -/
def farChunk : Chunk := ⟨0x10001, [0xEE], 9⟩
/-- A chunk with a corrupted totalSize. -/
def otherTotalChunk : Chunk := ⟨1, [0x14], 0x10009⟩

/-- R286: each check, on its own, excludes what the literal contract takes. -/
theorem test_host_checks :
    feedChecked .literal 4 .empty farChunk = .ok (asmFeed .empty farChunk) ∧
    feedChecked { sequenceCheck := true } 4 .empty farChunk = .ok .empty ∧
    feedChecked { totalCheck := true } 4 (asmFeed .empty chunk0) otherTotalChunk =
      .error (.totalSizeMismatch 9 0x10009) := by decide +kernel

/-- Both checks on: the implausible chunk is dropped and the feeds end without an error; neither on. -/
theorem witness_HostChecksExclude :
    HostOptions.literal.sequenceCheck = false ∧ HostOptions.literal.totalCheck = false ∧
    ∃ a, [chunk2, farChunk, chunk0, chunk1, chunk0].foldlM
        (feedChecked { sequenceCheck := true, totalCheck := true } 4) Assembler.empty = .ok a ∧
      a.seen = [0, 1, 2] ∧ a.totalSize = some chunk0.totalSize ∧
      chunk0.sequence.toNat < (chunk0.totalSize.toNat + 4 - 1) / 4 :=
  ⟨rfl, rfl, _, rfl, by decide +kernel⟩

/-- The empty input as one frame, and its ideal delivery among strays. -/
theorem witness_EmptyFrameOption :
    ({ emptyFrame := true } : HostOptions).emptyFrame = true ∧ ([0x23] : List Byte) ≠ [] ∧
    statusBusy base.status = false ∧ geomValid base.cfg (24#16).toNat (12#16).toNat = true ∧
    ∃ f, [f] = (framesOf (encodeJobWith { emptyFrame := true } .reliable [] 24 12 base)).map (·.ink) ∧
      tolerableChannel base.cfg.magic.toList 24 12 [f] (delivery [f]) := by
  refine ⟨rfl, by decide, by decide +kernel, by decide +kernel,
    encodeFrame magicT.toList [] 0 0 24 12, by decide +kernel, ?_⟩
  unfold tolerableChannel
  decide +kernel

end Sys2Proof.Tests
end

section
/-! PROOFS. Scope, the outcome of a command (spec/00_scope.md R14): the code in STATUS.ERR after the shared
parts of the commands, then after each command. -/

namespace Sys2Proof.Machine

/-! What the shared checks can answer, as a rule for any property of the resulting state. -/

/-- The geometry check (R203) runs its continuation on a valid geometry, and raises InvalidGeometry otherwise. -/
theorem withGeometry_induction {P : State → Prop} {s : State} {k : Nat → Nat → State}
    (valid : geomValid s.cfg s.width.toNat s.height.toNat = true → P (k s.width.toNat s.height.toNat))
    (invalid : geomValid s.cfg s.width.toNat s.height.toNat = false →
      P (raise .invalidGeometry (packDims s.width.toNat s.height.toNat)
        (capBytes s.width.toNat s.height.toNat) s)) :
    P (withGeometry s k) := by
  cases hg : geomValid s.cfg s.width.toNat s.height.toNat with
  | true => rw [withGeometry_of_valid k hg]; exact valid hg
  | false => rw [withGeometry_of_invalid k hg]; exact invalid hg

/-- The length check of HCK and CRC (R204) runs its continuation on `IBUF[0 : LEN]`, and raises
LengthOutOfRange when LEN exceeds the buffer. -/
theorem withInput_induction {P : State → Prop} {s : State} {k : List Byte → State}
    (fits : s.len.toNat ≤ bufBytes s.cfg → P (k (ibufPrefix s s.len.toNat)))
    (exceeds : bufBytes s.cfg < s.len.toNat →
      P (raise .lengthOutOfRange s.len.toNat (bufBytes s.cfg) s)) :
    P (withInput s k) := by
  unfold withInput
  split
  next hl => exact fits hl
  next hl => exact exceeds (Nat.lt_of_not_le hl)

/-! A defined code in STATUS.ERR (R241, R242). -/

/-- STATUS.ERR holds OK or one code of R241. -/
def HasDefinedErr (s : State) : Prop := ∃ e, statusErr s.status = errNumber e

/-- The prologue leaves OK (R201). -/
theorem hasDefinedErr_prologue (s : State) : HasDefinedErr (prologue s) := ⟨.ok, (statusIs_prologue s).err⟩

/-- An error leaves its own code (R247). -/
theorem hasDefinedErr_raise (e : ErrCode) (a b : Nat) (s : State) : HasDefinedErr (raise e a b s) :=
  ⟨e, statusErr_setErr e s.status⟩

/-- The code is defined still after a change that keeps the field ERR. -/
theorem HasDefinedErr.of_statusErr_eq {s t : State} (hs : HasDefinedErr s)
    (h : statusErr t.status = statusErr s.status) : HasDefinedErr t := by
  obtain ⟨e, he⟩ := hs
  exact ⟨e, h.trans he⟩

/-- DECF starts with OK (R180). -/
theorem hasDefinedErr_decfStart (s : State) : HasDefinedErr (decfStart s) :=
  (hasDefinedErr_prologue s).of_statusErr_eq (statusErr_setDvalid false _)

/-- Recording a decode leaves the code of its failure, or on success the one before (R180, R181). -/
theorem hasDefinedErr_recordDecode (r : DecodeResult) {s : State} (hs : HasDefinedErr s) :
    HasDefinedErr (recordDecode r s) := by
  cases r with
  | fail e short a b => exact hasDefinedErr_raise e a b _
  | chunk payload q total size skip => exact hs.of_statusErr_eq (statusErr_setDvalid true _)

/-- The geometry check keeps the code defined when its continuation does. -/
theorem hasDefinedErr_withGeometry {s : State} {k : Nat → Nat → State}
    (hk : ∀ w h, HasDefinedErr (k w h)) : HasDefinedErr (withGeometry s k) :=
  withGeometry_induction (fun _ => hk _ _) fun _ => hasDefinedErr_raise _ _ _ _

/-- The length check keeps the code defined when its continuation does. -/
theorem hasDefinedErr_withInput {s : State} {k : List Byte → State}
    (hk : ∀ bytes, HasDefinedErr (k bytes)) : HasDefinedErr (withInput s k) :=
  withInput_induction (fun _ => hk _) fun _ => hasDefinedErr_raise _ _ _ _

/-! Every command ends (R14). -/

/-- An outcome that is a next state with OK or one code of R241 in STATUS.ERR. -/
def Completes (o : Host.Outcome State Fault Refusal) : Prop := ∃ t, o = .next t ∧ HasDefinedErr t

/-- An outcome completes when it is a next state whose code is defined. -/
theorem completes_next {t : State} (ht : HasDefinedErr t) : Completes (.next t) := ⟨t, rfl, ht⟩

/-- HCK changes no status bit after its prologue (R118). -/
theorem execHck_completes (s : State) : Completes (execHck s) :=
  completes_next <| hasDefinedErr_withInput fun _ => (hasDefinedErr_prologue s).of_statusErr_eq rfl

/-- CRC changes no status bit after its prologue (R120). -/
theorem execCrc_completes (s : State) : Completes (execCrc s) :=
  completes_next <| hasDefinedErr_withInput fun _ => (hasDefinedErr_prologue s).of_statusErr_eq rfl

/-- ENCF paints the frame, or raises LengthOutOfRange (R138). -/
theorem execEncf_completes (s : State) : Completes (execEncf s) := by
  refine completes_next <| hasDefinedErr_withGeometry fun w h => ?_
  split
  · exact (hasDefinedErr_prologue s).of_statusErr_eq rfl
  · exact hasDefinedErr_raise _ _ _ _

/-- ENCB sets JOB and LAST only, or raises SequenceOverflow (R142). -/
theorem execEncb_completes (s : State) : Completes (execEncb s) := by
  refine completes_next <| hasDefinedErr_withGeometry fun w h => ?_
  split
  · exact (hasDefinedErr_prologue s).of_statusErr_eq (by simp only [statusErr_setLast, statusErr_setJob])
  · exact hasDefinedErr_raise _ _ _ _

/-- ENCN sets JOB and LAST only, or raises NoActiveJob (R144, R145). -/
theorem execEncn_completes (s : State) : Completes (execEncn s) := by
  refine completes_next ?_
  split
  · exact (hasDefinedErr_prologue s).of_statusErr_eq (by simp only [statusErr_setLast, statusErr_setJob])
  · exact hasDefinedErr_raise _ _ _ _

/-- DECF records a decode, or raises one of its two dimension errors (R180). -/
theorem execDecf_completes (s : State) : Completes (execDecf s) := by
  obtain ⟨hd, he⟩ := execDecf_cases s
  rw [he]
  refine completes_next ?_
  split
  · split
    · exact hasDefinedErr_recordDecode _ ((hasDefinedErr_decfStart s).of_statusErr_eq rfl)
    · exact hasDefinedErr_raise _ _ _ _
  · exact hasDefinedErr_raise _ _ _ _

/-- CLR leaves STATUS at 0 (R200). -/
theorem execClr_completes (s : State) : Completes (execClr s) :=
  completes_next ⟨.ok, show statusErr 0#32 = errNumber .ok by decide⟩

/-- An illegal word leaves IllegalCommand (R202). -/
theorem execIllegal_completes (c : Word) (s : State) : Completes (execIllegal c s) :=
  completes_next <| hasDefinedErr_raise _ _ _ _

/-- Every command ends in a next state with a defined code, in every state. -/
theorem exec_completes (i : Instr) (s : State) : Completes (exec i s) := by
  cases i with
  | hck => exact execHck_completes s
  | crc => exact execCrc_completes s
  | encf => exact execEncf_completes s
  | encb => exact execEncb_completes s
  | encn => exact execEncn_completes s
  | decf => exact execDecf_completes s
  | clr => exact execClr_completes s

/-- What holds of the meaning of every command and of the illegal command holds of a write of CMD (R86). -/
theorem runCommand_induction {P : Host.Outcome State Fault Refusal → Prop} {c : Word} {s : State}
    (legal : ∀ i, decode c = .ok i → P (exec i s))
    (illegal : ∀ e, decode c = .error e → P (execIllegal c s)) : P (runCommand c s) := by
  unfold runCommand
  split
  next i hi => exact legal i hi
  next e he => exact illegal e he

/-- Settles O4: each command word selects a command or the illegal command, and each of those ends in a next
state whose code is that of its prologue or of the error it raised. -/
theorem everyCommandCompletes : Obligations.EveryCommandCompletes := by
  unfold Obligations.EveryCommandCompletes
  exact fun c s =>
    runCommand_induction (P := Completes) (fun i _ => exec_completes i s) fun _ _ => execIllegal_completes c s

end Sys2Proof.Machine
end

section
/-! PROOFS. Scope, the marker search (spec/00_scope.md R18, spec/42_decode.md R168): the occurrences of a
marker as slices, and `find` characterised by them. -/

namespace Sys2Proof.Machine

/-- The marker stands at an offset, as a slice or at the head of what follows. -/
theorem slice_eq_iff_prefix_drop {m s : List Byte} {i : Nat} : slice s i m.length = m ↔ m <+: s.drop i :=
  eq_comm.trans List.prefix_iff_eq_take.symm

/-- What `find` gives lies inside the sequence; for the empty marker it is offset 0. -/
theorem find_add_length_le {m s : List Byte} {i : Nat} (h : find m s = some i) : i + m.length ≤ s.length := by
  rcases find_le h with hle | rfl
  · exact hle
  · have h0 : find [] s = some 0 := find_of_prefix List.nil_prefix
    obtain rfl : 0 = i := Option.some.inj (h0.symm.trans h)
    exact Nat.zero_le _

/-- `find` gives the lowest offset at which the marker occurs. -/
theorem find_eq_some_iff_lowest (m s : List Byte) (i : Nat) :
    find m s = some i ↔
      i + m.length ≤ s.length ∧ slice s i m.length = m ∧ ∀ j, j < i → slice s j m.length ≠ m := by
  simp only [ne_eq, slice_eq_iff_prefix_drop]
  constructor
  · exact fun h => ⟨find_add_length_le h, prefix_drop_of_find h, fun j hj => not_prefix_of_lt_find h hj⟩
  · rintro ⟨-, hp, hlow⟩
    exact find_eq_some hp hlow

/-- `find` gives nothing exactly when the marker occurs nowhere. -/
theorem find_eq_none_iff_no_occurrence (m s : List Byte) :
    find m s = none ↔ ∀ i, i + m.length ≤ s.length → slice s i m.length ≠ m := by
  simp only [ne_eq, slice_eq_iff_prefix_drop]
  constructor
  · exact fun h i _ => not_prefix_of_find_none h i
  · intro h
    cases hf : find m s with
    | none => rfl
    | some i => exact absurd (prefix_drop_of_find hf) (h i (find_add_length_le hf))

/-- Settles O43: by the two characterisations of `find`. -/
theorem findIsLowestOccurrence : Obligations.FindIsLowestOccurrence := by
  unfold Obligations.FindIsLowestOccurrence
  exact fun m s => ⟨find_eq_some_iff_lowest m s, find_eq_none_iff_no_occurrence m s⟩

end Sys2Proof.Machine
end

section
/-! PROOFS. State, the host port (spec/10_state.md R21 to R23, R39, spec/20_memory.md R61, spec/70_reset_and_hazards.md
R280): what a step is for each access, then the statements about register writes and refusals. -/

namespace Sys2Proof.Machine

/-! One access as a step. -/

/-- A well-formed access other than a CMD write, on a block that can take it, is the whole step. -/
theorem step_of_done {s t : State} {x : Access} {rest : List Access} (hs : s.script = x :: rest)
    (hb : statusBusy s.status = false) (hx : x.malformed s.cfg = none)
    (ht : plainAccess x { s with script := rest } = .done t) : step s = .next t := by
  rw [step, nextEvent_of_wf hs (.inl hb) hx, ht]

/-- A malformed access on an idle block is refused by the name of what is wrong with it (U8). -/
theorem step_of_malformed {s : State} {x : Access} {rest : List Access} (hs : s.script = x :: rest)
    (hb : statusBusy s.status = false) {m : Malformed} (hx : x.malformed s.cfg = some m) :
    step s = .refused (match m with | .noSuchCell => .noSuchCell | .valueTooWide => .valueTooWide) := by
  cases m <;> simp [step, nextEvent, hs, portAccess, hb, hx]

/-- Every access but a STATUS read and reset is refused while BUSY = 1 (R280, U7). -/
theorem step_of_busy {s : State} {x : Access} {rest : List Access} (hs : s.script = x :: rest)
    (hb : statusBusy s.status = true) (hx : allowedWhileBusy x = false) :
    step s = .refused .busyAccess := by
  simp [step, nextEvent, hs, portAccess, hb, hx]

/-- Only a STATUS read and reset are allowed while BUSY = 1. -/
theorem allowedWhileBusy_eq_false {x : Access} (hreset : x ≠ .reset)
    (hread : x ≠ .readReg (Reg.num .status)) : allowedWhileBusy x = false := by
  cases x with
  | readReg n => exact decide_eq_false fun h => hread (congrArg Access.readReg h)
  | reset => exact absurd rfl hreset
  | writeReg n v => rfl
  | writeCell sp a v => rfl
  | readCell sp a => rfl

/-! Register numbers and values (R21, R22, R39). -/

/-- A value that fits a register is a well-formed write of it. -/
theorem malformed_writeReg_of_fits (c : Config.Params) {r : Reg} {v : DWord} (hv : v.toNat < 2 ^ r.bits) :
    (Access.writeReg r.num v).malformed c = none := by
  simp only [Access.malformed, ofNum_num, if_pos hv]

/-- A value that does not fit a register is too wide for it. -/
theorem malformed_writeReg_of_wide (c : Config.Params) {r : Reg} {v : DWord} (hv : 2 ^ r.bits ≤ v.toNat) :
    (Access.writeReg r.num v).malformed c = some .valueTooWide := by
  simp only [Access.malformed, ofNum_num, if_neg (Nat.not_lt.mpr hv)]

/-- The numbers from 0x19 on name no register (R39). -/
theorem ofNum_of_absent {n : BitVec 8} (hn : 0x19 ≤ n.toNat) : Reg.ofNum n = none := by
  revert n
  decide

/-- A write of a register other than CMD, of a value that fits it, is `writeRegister`. -/
theorem step_writeReg {s : State} {rest : List Access} {r : Reg} {v : DWord}
    (hs : s.script = .writeReg r.num v :: rest) (hb : statusBusy s.status = false) (hr : r ≠ .cmd)
    (hv : v.toNat < 2 ^ r.bits) : step s = .next (writeRegister r v { s with script := rest }) :=
  step_of_done hs hb (malformed_writeReg_of_fits _ hv) (by simp only [plainAccess, ofNum_num])

/-- A command word, as the host writes it, fits CMD. -/
theorem commandWord_fits (c : Word) : (c.setWidth 64).toNat < 2 ^ Reg.bits .cmd := by
  rw [BitVec.toNat_setWidth]
  exact (Nat.mod_le _ _).trans_lt c.isLt

/-- A CMD write on an idle block runs the command its word selects (R23). -/
theorem step_cmdAccess {s : State} {c : Word} {rest : List Access}
    (hs : s.script = cmdAccess (c.setWidth 64) :: rest) (hb : statusBusy s.status = false) :
    step s = runCommand c { s with script := rest } := by
  have hc : (c.setWidth 64).setWidth 32 = c := by
    rw [BitVec.setWidth_setWidth_of_le _ (by decide), BitVec.setWidth_eq]
  rw [step, nextEvent_of_wf hs (.inl hb) (malformed_writeReg_of_fits _ (commandWord_fits c))]
  simp only [cmdAccess, plainAccess, ofNum_num, hc]

/-! What a register write does to the registers (R21, R22, R25). -/

/-- A value that fits `k` bits survives the passage through a `k`-bit register. -/
theorem setWidth_setWidth_of_fits {v : DWord} {k : Nat} (hv : v.toNat < 2 ^ k) :
    (v.setWidth k).setWidth 64 = v := by
  apply BitVec.eq_of_toNat_eq
  rw [BitVec.toNat_setWidth, BitVec.toNat_setWidth, Nat.mod_eq_of_lt hv, Nat.mod_eq_of_lt v.isLt]

/-- What CTRL stores, as a host read gives it: bit 0 of what was written (R25). -/
theorem setWidth_ctrlStored (v : DWord) : (ctrlStored (v.setWidth 32)).setWidth 64 = v &&& 1#64 := by
  apply BitVec.eq_of_getLsbD_eq
  intro i hi
  rw [BitVec.getLsbD_setWidth, getLsbD_ctrlStored, BitVec.getLsbD_and, BitVec.getLsbD_one]
  by_cases h : i = 0 <;> simp [h, hi]

/-- A writable register reads what was written, of CTRL only bit 0. -/
theorem readRegister_writeRegister_same {r : Reg} {v : DWord} (s : State) (hr : r.hostWritable = true)
    (hv : v.toNat < 2 ^ r.bits) :
    readRegister r (writeRegister r v s) = if r = .ctrl then v &&& 1#64 else v := by
  cases r
  case ctrl => exact setWidth_ctrlStored v
  case total => rfl
  case width | height | rwidth | rheight | len | seq => exact setWidth_setWidth_of_fits hv
  all_goals cases hr

/-- A register write leaves every other register but the derived MAXPAY. -/
theorem readRegister_writeRegister_of_ne {q r : Reg} (v : DWord) (s : State) (hq : q ≠ r)
    (hm : q ≠ .maxpay) : readRegister q (writeRegister r v s) = readRegister q s := by
  cases q
  case maxpay => exact absurd rfl hm
  all_goals cases r
  case ctrl.ctrl | width.width | height.height | rwidth.rwidth | rheight.rheight | len.len | seq.seq
      | total.total => exact absurd rfl hq
  all_goals rfl

/-- A register write changes the host-written registers only. -/
theorem writeRegister_frame (r : Reg) (v : DWord) (s : State) :
    writeRegister r v s = { s with
      ctrl := (writeRegister r v s).ctrl, width := (writeRegister r v s).width,
      height := (writeRegister r v s).height, rwidth := (writeRegister r v s).rwidth,
      rheight := (writeRegister r v s).rheight, len := (writeRegister r v s).len,
      seq := (writeRegister r v s).seq, total := (writeRegister r v s).total } := by
  cases r <;> rfl

/-- A write of a register that is not writable is ignored (R21). -/
theorem writeRegister_of_not_writable {r : Reg} (v : DWord) (s : State) (hr : r.hostWritable = false) :
    writeRegister r v s = s := by
  cases r
  case ctrl | width | height | rwidth | rheight | len | seq | total => cases hr
  all_goals rfl

/-! The statements. -/

/-- Settles O5: a CMD write is `runCommand`, which follows `decode`. -/
theorem stepRunsDecodedCommand : Obligations.StepRunsDecodedCommand := by
  unfold Obligations.StepRunsDecodedCommand
  refine ⟨fun s c rest i hs hb hc => ?_, fun s c rest e hs hb hc => ?_, fun s hs => ?_⟩
  · rw [step_cmdAccess hs hb, runCommand, hc]
  · rw [step_cmdAccess hs hb, runCommand, hc]
  · rw [step, nextEvent, hs]

/-- Settles O7: the step is `writeRegister`, whose effect on each register is known. -/
theorem hostWritesRegister : Obligations.HostWritesRegister := by
  unfold Obligations.HostWritesRegister
  intro s rest r v hs hb hr hv
  have hcmd : r ≠ .cmd := by rintro rfl; cases hr
  exact ⟨_, step_writeReg hs hb hcmd hv, readRegister_writeRegister_same _ hr hv,
    fun q hq hm => readRegister_writeRegister_of_ne v { s with script := rest } hq hm,
    writeRegister_frame r v { s with script := rest }⟩

/-- Settles O8: `writeRegister` ignores what is not writable, and an absent number names no register. -/
theorem ignoredRegisterWrites : Obligations.IgnoredRegisterWrites := by
  unfold Obligations.IgnoredRegisterWrites
  refine ⟨fun s rest r v hs hb hr hcmd hv => ?_, fun s rest n v hs hb hn => ?_, fun s n hn => ?_⟩
  · rw [step_writeReg hs hb hcmd hv, writeRegister_of_not_writable _ _ hr]
  · exact step_of_done hs hb (by simp only [Access.malformed, ofNum_of_absent hn])
      (by simp only [plainAccess, ofNum_of_absent hn])
  · rcases hn with hn | rfl
    · simp only [readRegNum, ofNum_of_absent hn]
    · rfl

/-- Settles O10: an idle block refuses a malformed access by its name, a busy one every access it may not take. -/
theorem inexpressibleAccessesStop : Obligations.InexpressibleAccessesStop := by
  unfold Obligations.InexpressibleAccessesStop
  refine fun s rest => ⟨fun hb => ⟨fun sp a v hs ha => ?_, fun sp a hs ha => ?_, fun sp a v hs ha hv => ?_,
    fun r v hs hv => ?_⟩, fun hb x hs hreset hread => ?_⟩
  · exact step_of_malformed hs hb (m := .noSuchCell) (if_neg (Nat.not_lt.mpr ha))
  · exact step_of_malformed hs hb (m := .noSuchCell) (if_neg (Nat.not_lt.mpr ha))
  · exact step_of_malformed hs hb (m := .valueTooWide)
      ((if_pos ha).trans (if_neg (Nat.not_lt.mpr hv)))
  · exact step_of_malformed hs hb (malformed_writeReg_of_wide s.cfg hv)
  · exact step_of_busy hs hb (allowedWhileBusy_eq_false hreset hread)

/-! The derived registers and the reset values (R22, R31, R37, R49). -/

/-- A geometry is valid when its raster fits and its capacity exceeds the header (R11). -/
theorem geomValid_iff {c : Config.Params} {w h : Nat} :
    geomValid c w h = true ↔ w * h ≤ c.maxPixels ∧ 32 < w * h / 8 := by
  rw [geomValid, Bool.and_eq_true, decide_eq_true_iff, decide_eq_true_iff]
  rfl

/-- MAXPAY fits its register. -/
theorem maxpayValue_lt (s : State) : maxpayValue s < 2 ^ 64 := by
  have := capBytes_lt s.width s.height
  unfold maxpayValue maxPayload
  split <;> omega

/-- J_NEXT fits its register. -/
theorem jnextValue_lt (s : State) : jnextValue s < 2 ^ 64 := by
  have := s.jRemain.isLt
  unfold jnextValue nextChunkLen
  split <;> omega

/-- Settles O11: neither value is cut by its register, so each reads as it is defined. -/
theorem derivedRegistersFollow : Obligations.DerivedRegistersFollow := by
  unfold Obligations.DerivedRegistersFollow
  intro s
  constructor
  · calc (readRegister .maxpay s).toNat
      _ = maxpayValue s := Nat.mod_eq_of_lt (maxpayValue_lt s)
      _ = _ := by simp only [maxpayValue, geomValid_iff, maxPayload, capBytes]
  · calc (readRegister .jNext s).toNat
      _ = jnextValue s := Nat.mod_eq_of_lt (jnextValue_lt s)
      _ = _ := rfl

/-- Settles O12: register by register; no cell is listed after reset, so each reads as its free value. -/
theorem resetRegisterValues : Obligations.ResetRegisterValues := by
  unfold Obligations.ResetRegisterValues
  refine ⟨fun r => ?_, fun a => ⟨rfl, rfl, rfl, rfl⟩⟩
  cases r <;> rfl

end Sys2Proof.Machine
end

section
/-! PROOFS. State, what no command touches and what no command reads (spec/10_state.md R40, R47, R48). -/

namespace Sys2Proof.Machine

/-! The operands of the commands (R40). -/

/-- The state with every field that a command may write at its reset value: the host-written registers, IBUF,
DRAST, the parameters and the host's own fields are what is left (R40, R48). -/
def State.operands (s : State) : State :=
  { State.reset with
    ctrl := s.ctrl, width := s.width, height := s.height, rwidth := s.rwidth, rheight := s.rheight
    len := s.len, seq := s.seq, total := s.total, ibuf := s.ibuf, drast := s.drast
    cfg := s.cfg, draw := s.draw, script := s.script, rdata := s.rdata }

/-- An outcome that, as a next state, has the operands of `s`. -/
def KeepsOperands (s : State) (o : Host.Outcome State Fault Refusal) : Prop :=
  ∃ t, o = .next t ∧ t.operands = s.operands

/-- A next state with the same operands keeps them. -/
theorem keepsOperands_next {s t : State} (h : t.operands = s.operands) : KeepsOperands s (.next t) :=
  ⟨t, rfl, h⟩

/-- A recorded decode writes no operand (R180, R181). -/
theorem operands_recordDecode (r : DecodeResult) (s : State) : (recordDecode r s).operands = s.operands := by
  cases r <;> rfl

/-- DECF writes no operand. -/
theorem execDecf_keepsOperands (s : State) : KeepsOperands s (execDecf s) := by
  obtain ⟨hd, he⟩ := execDecf_cases s
  rw [he]
  refine keepsOperands_next ?_
  split
  · split
    · exact operands_recordDecode _ _
    · rfl
  · rfl

/-- No command writes an operand: in each arm every check leads to an error or to the arm's own results. -/
theorem exec_keepsOperands (i : Instr) (s : State) : KeepsOperands s (exec i s) := by
  cases i with
  | hck | crc =>
    exact keepsOperands_next <| withInput_induction (P := fun t => t.operands = s.operands)
      (fun _ => rfl) fun _ => rfl
  | encf | encb =>
    refine keepsOperands_next <| withGeometry_induction (P := fun t => t.operands = s.operands)
      (fun _ => ?_) fun _ => rfl
    split <;> rfl
  | encn =>
    refine keepsOperands_next ?_
    split <;> rfl
  | decf => exact execDecf_keepsOperands s
  | clr => exact keepsOperands_next rfl

/-- Settles O16: neither a command nor the illegal command writes an operand. -/
theorem noCommandWritesOperands : Obligations.NoCommandWritesOperands := by
  unfold Obligations.NoCommandWritesOperands
  intro c s t ht
  have hkeeps : KeepsOperands s (runCommand c s) :=
    runCommand_induction (fun i _ => exec_keepsOperands i s) fun _ _ => keepsOperands_next rfl
  obtain ⟨u, hu, heq⟩ := hkeeps
  obtain rfl : t = u := by simpa [ht] using hu
  simpa [State.operands] using heq

/-! The hidden state (R47). -/

/-- Two outcomes that are next states with the same visible part. -/
def VisiblyAgree (o o' : Host.Outcome State Fault Refusal) : Prop :=
  ∃ t u, o = .next t ∧ o' = .next u ∧ t.visible = u.visible

/-- Next states that are visibly equal agree visibly. -/
theorem visiblyAgree_next {t u : State} (h : t.visible = u.visible) : VisiblyAgree (.next t) (.next u) :=
  ⟨t, u, rfl, rfl, h⟩

section
variable (s : State) (hd : Hidden)

/-- A branch on what both sides see alike agrees visibly when each branch does. -/
theorem visible_ite {c : Prop} [Decidable c] {t t' u u' : State} (ht : t.visible = t'.visible)
    (hu : u.visible = u'.visible) : (if c then t else u).visible = (if c then t' else u').visible := by
  split
  · exact ht
  · exact hu

/-- The geometry check (R203) looks at no hidden state. -/
theorem visible_withGeometry {k k' : Nat → Nat → State}
    (hk : ∀ w h, (k w h).visible = (k' w h).visible) :
    (withGeometry s k).visible = (withGeometry { s with hidden := hd } k').visible :=
  visible_ite (hk _ _) rfl

/-- The length check of HCK and CRC (R204) looks at no hidden state. -/
theorem visible_withInput {k k' : List Byte → State} (hk : ∀ bytes, (k bytes).visible = (k' bytes).visible) :
    (withInput s k).visible = (withInput { s with hidden := hd } k').visible :=
  visible_ite (hk _) rfl

/-- Recording a decode looks at no hidden state. -/
theorem visible_recordDecode (r : DecodeResult) :
    (recordDecode r s).visible = (recordDecode r { s with hidden := hd }).visible := by
  cases r <;> rfl

/-- DECF initialises the hidden state before it reads it: its result is the closed form, of the visible state. -/
theorem execDecf_visiblyAgree : VisiblyAgree (execDecf s) (execDecf { s with hidden := hd }) := by
  obtain ⟨hd₁, h₁⟩ := execDecf_cases s
  obtain ⟨hd₂, h₂⟩ := execDecf_cases { s with hidden := hd }
  rw [h₁, h₂]
  exact visiblyAgree_next <|
    visible_ite (visible_ite (visible_recordDecode { decfStart s with hidden := hd₁ } hd₂ _) rfl) rfl

/-- No command reads hidden state that it has not initialised. -/
theorem exec_visiblyAgree (i : Instr) : VisiblyAgree (exec i s) (exec i { s with hidden := hd }) := by
  cases i with
  | hck | crc => exact visiblyAgree_next <| visible_withInput (prologue s) hd fun _ => rfl
  | encf | encb =>
    exact visiblyAgree_next <| visible_withGeometry (prologue s) hd fun w h => visible_ite rfl rfl
  | encn => exact visiblyAgree_next <| visible_ite rfl rfl
  | decf => exact execDecf_visiblyAgree s hd
  | clr => exact visiblyAgree_next rfl

end

/-- Settles O17: neither a command nor the illegal command lets a hidden value through. -/
theorem hiddenStateIsDead : Obligations.HiddenStateIsDead := by
  unfold Obligations.HiddenStateIsDead
  intro c s hd
  show VisiblyAgree (runCommand c s) (runCommand c { s with hidden := hd })
  unfold runCommand
  split
  · exact exec_visiblyAgree s hd _
  · exact visiblyAgree_next rfl

/-! The result of a decode (R50 (d)). -/

/-- A chunk decoded from a raster lies, with the header and what was skipped, inside the raster's capacity. -/
theorem decodeBytes_chunk_fits {s : State} {magic payload : List Byte} {w h q total size skip : Nat}
    (hr : decodeBytes magic (bytesOf (drastPrefix s (w * h))) = .chunk payload q total size skip) :
    payload.length = size ∧ size + skip + 32 ≤ capBytes w h := by
  obtain ⟨hlen, hfit, -, -⟩ := decodeBytes_chunk hr
  rw [length_bytesOf, length_drastPrefix] at hfit
  exact ⟨hlen, hfit⟩

/-- A register holds at most the number stored in it. -/
theorem toNat_ofNat_le (w n : Nat) : (BitVec.ofNat w n).toNat ≤ n :=
  (BitVec.toNat_ofNat n w).trans_le (Nat.mod_le n _)

/-- DECF starts with DVALID clear (R180). -/
theorem statusDvalid_decfStart (s : State) : statusDvalid (decfStart s).status = false :=
  statusDvalid_setDvalid false _

/-- Settles O48: DVALID is set only by a decoded chunk, and that lies inside the raster's capacity. -/
theorem decodedFrameFitsRaster : Obligations.DecodedFrameFitsRaster := by
  unfold Obligations.DecodedFrameFitsRaster
  intro s t ht hv
  obtain ⟨hd, he⟩ := execDecf_cases s
  have hclear := statusDvalid_decfStart s
  have heq := Host.Outcome.next.inj (ht.symm.trans he)
  split at heq
  · split at heq
    · cases hr : decodeBytes s.cfg.magic.toList (bytesOf (drastPrefix s (s.width.toNat * s.height.toNat))) with
      | fail e short a b => simp [heq, hr, recordDecode, hclear] at hv
      | chunk payload q total size skip =>
        obtain ⟨-, hfit⟩ := decodeBytes_chunk_fits hr
        have hsize := toNat_ofNat_le 32 size
        have hskip := toNat_ofNat_le 32 skip
        simp only [heq, hr, recordDecode]
        omega
    · simp [heq, hclear] at hv
  · simp [heq, hclear] at hv

end Sys2Proof.Machine
end

section
/-! PROOFS. State, the invariant (spec/10_state.md R49, R50): one rule for each update of STATUS and of the state,
then each command, each host access, a step. -/

namespace Sys2Proof.Machine

/-! The fields of STATUS after one more update of a word that is known field by field. -/

namespace StatusIs
variable {v w : Word} {e : ErrCode} {short dvalid job last : Bool}

theorem after_setErr (h : StatusIs v w e short dvalid job last) (e' : ErrCode) :
    StatusIs (setErr e' v) w e' short dvalid job last :=
  ⟨by simp, by simp [h.short], by simp [h.dvalid], by simp [h.job], by simp [h.last], by simp [h.busy],
    fun k hk => (reserved_setErr e' v hk).trans (h.rest k hk)⟩

theorem after_setShort (h : StatusIs v w e short dvalid job last) (b : Bool) :
    StatusIs (setShort b v) w e b dvalid job last :=
  ⟨by simp [h.err], by simp, by simp [h.dvalid], by simp [h.job], by simp [h.last], by simp [h.busy],
    fun k hk => (reserved_setShort b v hk).trans (h.rest k hk)⟩

theorem after_setDvalid (h : StatusIs v w e short dvalid job last) (b : Bool) :
    StatusIs (setDvalid b v) w e short b job last :=
  ⟨by simp [h.err], by simp [h.short], by simp, by simp [h.job], by simp [h.last], by simp [h.busy],
    fun k hk => (reserved_setDvalid b v hk).trans (h.rest k hk)⟩

theorem after_setJob (h : StatusIs v w e short dvalid job last) (b : Bool) :
    StatusIs (setJob b v) w e short dvalid b last :=
  ⟨by simp [h.err], by simp [h.short], by simp [h.dvalid], by simp, by simp [h.last], by simp [h.busy],
    fun k hk => (reserved_setJob b v hk).trans (h.rest k hk)⟩

theorem after_setLast (h : StatusIs v w e short dvalid job last) (b : Bool) :
    StatusIs (setLast b v) w e short dvalid job b :=
  ⟨by simp [h.err], by simp [h.short], by simp [h.dvalid], by simp [h.job], by simp, by simp [h.busy],
    fun k hk => (reserved_setLast b v hk).trans (h.rest k hk)⟩

end StatusIs

/-- A word known by its own fields. -/
theorem statusIs_refl {w : Word} {e : ErrCode} (h : statusErr w = errNumber e) :
    StatusIs w w e (statusShort w) (statusDvalid w) (statusJob w) (statusLast w) :=
  ⟨h, rfl, rfl, rfl, rfl, rfl, fun _ _ => rfl⟩

/-- DECF starts with OK, SHORT and DVALID clear, the job flags as they were (R180). -/
theorem statusIs_decfStart (s : State) :
    StatusIs (decfStart s).status s.status .ok false false (statusJob s.status) (statusLast s.status) :=
  (statusIs_prologue s).after_setDvalid false

/-! What each update of the state does to the invariant. -/

/-- The state with every field at its reset value that the invariant does not read. -/
def State.checked (s : State) : State :=
  { State.reset with
    status := s.status, ctrl := s.ctrl, dChunk := s.dChunk, dSkip := s.dSkip
    jSeq := s.jSeq, jTotal := s.jTotal, jRemain := s.jRemain, jWidth := s.jWidth, jHeight := s.jHeight
    einfoA := s.einfoA, einfoB := s.einfoB
    ibuf := s.ibuf, obuf := s.obuf, erast := s.erast, drast := s.drast, cfg := s.cfg }

/-- The invariant is a statement about the fields in `State.checked`. -/
theorem inv_checked {s : State} : s.checked.Inv ↔ s.Inv :=
  ⟨fun h => ⟨{ h.memories with }, { h.job with }, { h.status with }, h.result⟩,
    fun h => ⟨{ h.memories with }, { h.job with }, { h.status with }, h.result⟩⟩

/-- The job clauses speak of STATUS through the flags JOB and LAST only. -/
theorem JobInv.with_flags {s : State} (h : JobInv s) {v : Word} (hjob : statusJob v = statusJob s.status)
    (hlast : statusLast v = statusLast s.status) : JobInv { s with status := v } := by
  obtain ⟨hactive, hbounded, hgeometry, hsequence, hwhole, hfits, hnotLast⟩ := h
  rw [← hjob] at hactive hgeometry hsequence hwhole hfits hnotLast
  rw [← hlast] at hnotLast
  exact ⟨hactive, hbounded, hgeometry, hsequence, hwhole, hfits, hnotLast⟩

/-- The status clauses after an update of STATUS and EINFO that agrees with R50 (e) and (f). -/
theorem StatusInv.with_status {s : State} (h : StatusInv s) {v : Word} {a b : DWord} {e : ErrCode}
    {short dvalid job last : Bool} (hv : StatusIs v s.status e short dvalid job last)
    (hshort : short = true → e = .headerChecksumMismatch) (hquiet : e = .ok → a = 0#64 ∧ b = 0#64) :
    StatusInv { s with status := v, einfoA := a, einfoB := b } where
  short := fun hs => by rw [hv.err, hshort (hv.short.symm.trans hs)]
  quiet := fun he => hquiet (errNumber_injective (hv.err.symm.trans he))
  code := ⟨e, hv.err⟩
  idle := hv.busy.trans h.idle
  reserved := fun k hk => (hv.rest k hk).trans (h.reserved k hk)
  ctrlReserved := h.ctrlReserved

/-- The status clauses after an update of DVALID, JOB and LAST. -/
theorem StatusInv.with_flags {s : State} (h : StatusInv s) {v : Word} {dvalid job last : Bool}
    (hv : ∀ e, statusErr s.status = errNumber e →
      StatusIs v s.status e (statusShort s.status) dvalid job last) :
    StatusInv { s with status := v } := by
  obtain ⟨e, he⟩ := h.code
  exact h.with_status (hv e he) (fun hs => errNumber_injective (he.symm.trans (h.short hs)))
    fun hok => h.quiet (by rw [he, hok])

namespace State.Inv
variable {s t : State}

/-- A change of what the invariant does not read keeps it. -/
theorem of_checked_eq (hs : s.Inv) (h : t.checked = s.checked) : t.Inv := by
  rw [← inv_checked, h, inv_checked]
  exact hs

/-- An update of STATUS and EINFO that agrees with R50 (e) and (f) and leaves the flags JOB and LAST. -/
theorem with_status (hs : s.Inv) {v : Word} {a b : DWord} {e : ErrCode} {short dvalid : Bool}
    (hv : StatusIs v s.status e short dvalid (statusJob s.status) (statusLast s.status))
    (hshort : short = true → e = .headerChecksumMismatch) (hquiet : e = .ok → a = 0#64 ∧ b = 0#64)
    (hdvalid : dvalid = true → statusDvalid s.status = true) :
    State.Inv { s with status := v, einfoA := a, einfoB := b } :=
  ⟨{ hs.memories with }, { hs.job.with_flags hv.job hv.last with }, hs.status.with_status hv hshort hquiet,
    fun h => hs.result (hdvalid (hv.dvalid.symm.trans h))⟩

/-- An update of CTRL that keeps its reserved bits 0 (R25). -/
theorem with_ctrl (hs : s.Inv) {v : Word} (hv : ∀ k, 1 ≤ k → v.getLsbD k = false) :
    State.Inv { s with ctrl := v } :=
  ⟨{ hs.memories with }, { hs.job with }, { hs.status with ctrlReserved := hv }, hs.result⟩

/-! An update of a memory that keeps its canonical form (R43 to R46). -/

theorem with_ibuf (hs : s.Inv) {m : Memory 8} (hm : Memory.wf (bufBytes s.cfg) m = true) :
    State.Inv { s with ibuf := m } :=
  ⟨{ hs.memories with ibuf := hm }, { hs.job with }, { hs.status with }, hs.result⟩

theorem with_obuf (hs : s.Inv) {m : Memory 8} (hm : Memory.wf (bufBytes s.cfg) m = true) :
    State.Inv { s with obuf := m } :=
  ⟨{ hs.memories with obuf := hm }, { hs.job with }, { hs.status with }, hs.result⟩

theorem with_erast (hs : s.Inv) {m : Memory 1} (hm : Memory.wf s.cfg.maxPixels m = true) :
    State.Inv { s with erast := m } :=
  ⟨{ hs.memories with erast := hm }, { hs.job with }, { hs.status with }, hs.result⟩

theorem with_drast (hs : s.Inv) {m : Memory Config.lumaBits} (hm : Memory.wf s.cfg.maxPixels m = true) :
    State.Inv { s with drast := m } :=
  ⟨{ hs.memories with drast := hm }, { hs.job with }, { hs.status with }, hs.result⟩

/-- DVALID set, with result registers that fit the buffers (R50 (d)). -/
theorem with_result (hs : s.Inv) {n k : Word} (hfit : n.toNat + k.toNat + format.headerSize ≤ bufBytes s.cfg) :
    State.Inv { s with status := setDvalid true s.status, dChunk := n, dSkip := k } :=
  ⟨{ hs.memories with }, { hs.job.with_flags (statusJob_setDvalid true _) (statusLast_setDvalid true _) with },
    { hs.status.with_flags fun _ he => (statusIs_refl he).after_setDvalid true with }, fun _ => hfit⟩

/-- New job registers and flags that meet the job clauses (R50 (a) to (c)). -/
theorem with_job (hs : s.Inv) {job last : Bool} {q : Word} {total remain : DWord}
    {w h : BitVec Config.dimBits}
    (hj : JobInv { s with
      jWidth := w, jHeight := h, jTotal := total, jRemain := remain, jSeq := q
      status := setLast last (setJob job s.status) }) :
    State.Inv { s with
      jWidth := w, jHeight := h, jTotal := total, jRemain := remain, jSeq := q
      status := setLast last (setJob job s.status) } :=
  ⟨{ hs.memories with }, hj,
    { hs.status.with_flags fun _ he => ((statusIs_refl he).after_setJob job).after_setLast last with },
    by simpa using hs.result⟩

end State.Inv

/-! The shared parts of the commands keep the invariant. -/

section
variable {s : State}

/-- The prologue (R201). -/
theorem inv_prologue (hs : s.Inv) : (prologue s).Inv :=
  hs.with_status (statusIs_prologue s) nofun (fun _ => ⟨rfl, rfl⟩) id

/-- The start of DECF (R180). -/
theorem inv_decfStart (hs : s.Inv) : (decfStart s).Inv :=
  hs.with_status (statusIs_decfStart s) nofun (fun _ => ⟨rfl, rfl⟩) nofun

/-- Recording an error while SHORT is clear (R247). -/
theorem inv_raise (hs : s.Inv) (hshort : statusShort s.status = false) {e : ErrCode} (he : e ≠ .ok) (a b : Nat) :
    (raise e a b s).Inv := by
  obtain ⟨e₀, he₀⟩ := hs.status.code
  exact hs.with_status ((statusIs_refl he₀).after_setErr e) (fun h => absurd (hshort.symm.trans h) nofun)
    (fun h => absurd h he) id

/-- Recording an error right after the prologue. -/
theorem inv_raise_prologue (hs : s.Inv) {e : ErrCode} (he : e ≠ .ok) (a b : Nat) :
    (raise e a b (prologue s)).Inv :=
  inv_raise (inv_prologue hs) (statusIs_prologue s).short he a b

/-- Recording an error right after the start of DECF. -/
theorem inv_raise_decfStart (hs : s.Inv) {e : ErrCode} (he : e ≠ .ok) (a b : Nat) :
    (raise e a b (decfStart s)).Inv :=
  inv_raise (inv_decfStart hs) (statusIs_decfStart s).short he a b

/-- The output of a frame command, on a raster that fits ERAST (R132, R134). -/
theorem inv_paintFrame (hs : s.Inv) (payload : List Byte) (q : Word) (total : DWord) {w h : Nat}
    (hfit : w * h ≤ s.cfg.maxPixels) : (paintFrame s payload q total w h).Inv := by
  have hlen : (encodeFrame s.cfg.magic.toList payload q total w h).length ≤ s.cfg.maxPixels :=
    (length_mapBits _ w h).trans_le hfit
  exact (hs.with_erast (wf_writePrefix hlen hs.memories.erast)).of_checked_eq rfl

/-- Recording a failed decode: SHORT and the error together (R177, R181). -/
theorem inv_recordDecode_fail (hs : s.Inv) {e : ErrCode} {short : Bool} (he : e ≠ .ok)
    (hshort : short = true → e = .headerChecksumMismatch) (a b : Nat) :
    (recordDecode (.fail e short a b) s).Inv := by
  obtain ⟨e₀, he₀⟩ := hs.status.code
  exact hs.with_status (((statusIs_refl he₀).after_setShort short).after_setErr e) hshort
    (fun h => absurd h he) id

/-- Recording a decoded chunk that lies inside the buffers (R180, R50 (d)). -/
theorem inv_recordDecode_chunk (hs : s.Inv) {payload : List Byte} {size skip : Nat} (q total : Nat)
    (hlen : payload.length = size) (hfit : size + skip + 32 ≤ bufBytes s.cfg) :
    (recordDecode (.chunk payload q total size skip) s).Inv := by
  have hsize := toNat_ofNat_le 32 size
  have hskip := toNat_ofNat_le 32 skip
  have hregs : (BitVec.ofNat 32 size).toNat + (BitVec.ofNat 32 skip).toNat + format.headerSize ≤
      bufBytes s.cfg := by rw [format_headerSize]; omega
  have hpayload : payload.length ≤ bufBytes s.cfg := by omega
  exact ((hs.with_result hregs).with_obuf (wf_writePrefix hpayload hs.memories.obuf)).of_checked_eq rfl

end

/-! The job clauses (R50 (a) to (c), R141): at the start of a job and from one chunk to the next. -/

/-- A job of at most 2^32 frames of `m` bytes has at most `m * 2^32` bytes (R141). -/
theorem le_of_jobFrames_le {t m : Nat} (hm : 0 < m) (h : jobFrames t m ≤ 2 ^ 32) : t ≤ m * 2 ^ 32 := by
  have hlt := Nat.lt_mul_of_div_lt (Nat.lt_succ_of_le h) hm
  rw [Nat.succ_mul] at hlt
  omega

/-! The flags as ENCB and ENCN set them, for `remain` bytes to go (R142, R145). -/

theorem job_flag_iff (remain : DWord) (w : Word) :
    statusJob (setLast (decide (remain = 0#64)) (setJob (decide (remain ≠ 0#64)) w)) = true ↔
      0 < remain.toNat := by
  rw [statusJob_setLast, statusJob_setJob, decide_eq_true_iff, Nat.pos_iff_ne_zero, ne_eq, ne_eq,
    BitVec.toNat_eq]
  rfl

theorem not_job_and_last (remain : DWord) (w : Word) :
    ¬(statusJob (setLast (decide (remain = 0#64)) (setJob (decide (remain ≠ 0#64)) w)) = true ∧
      statusLast (setLast (decide (remain = 0#64)) (setJob (decide (remain ≠ 0#64)) w)) = true) := by
  simp

/-- What ENCB latches for a job it accepts (R142). -/
theorem jobInv_begin {s : State} (hg : geomValid s.cfg s.width.toNat s.height.toNat = true)
    (hframes : jobFrames s.total.toNat (maxPayload s.width.toNat s.height.toNat) ≤ 2 ^ 32) :
    JobInv { s with
      jWidth := s.width, jHeight := s.height, jTotal := s.total, jRemain := s.total, jSeq := 0#32
      status := setLast (decide (s.total = 0#64)) (setJob (decide (s.total ≠ 0#64)) s.status) } := by
  obtain ⟨-, -, hm, -, -⟩ := geomValid_bounds hg
  refine ⟨job_flag_iff _ _, Nat.le_refl _, fun _ => hg, fun _ => ?_, fun _ => ?_,
    fun _ => le_of_jobFrames_le hm hframes, not_job_and_last _ _⟩
  · rw [Nat.sub_self, Nat.zero_div]
    rfl
  · rw [Nat.sub_self, Nat.zero_mod]

/-- One whole chunk of `m` bytes further, in a job of at most `m * 2^32` bytes with bytes left after it: the
number of the chunk and what it fits in. -/
theorem next_sequence {t r m q : Nat} (hm : 0 < m) (hr : m < r) (hrt : r ≤ t) (ht : t ≤ m * 2 ^ 32)
    (hq : q = (t - r) / m) (hwhole : (t - r) % m = 0) :
    q + 1 < 2 ^ 32 ∧ q + 1 = (t - (r - m)) / m ∧ (t - (r - m)) % m = 0 := by
  have hsub : t - (r - m) = t - r + m := by omega
  have hdiv : (t - (r - m)) / m = q + 1 := by rw [hsub, Nat.add_div_right _ hm, hq]
  refine ⟨?_, hdiv.symm, by rw [hsub, Nat.add_mod_right, hwhole]⟩
  rw [← hdiv]
  exact Nat.div_lt_of_lt_mul (by omega)

/-- What ENCN leaves of an active job (R145). -/
theorem jobInv_advance {s : State} (hs : JobInv s) (hjob : statusJob s.status = true) :
    JobInv { s with
      jSeq := s.jSeq + 1#32
      jRemain := s.jRemain - BitVec.ofNat 64 (nextChunkLen s)
      status := setLast (decide (s.jRemain - BitVec.ofNat 64 (nextChunkLen s) = 0#64))
        (setJob (decide (s.jRemain - BitVec.ofNat 64 (nextChunkLen s) ≠ 0#64)) s.status) } := by
  obtain ⟨-, hbounded, hgeometry, hsequence, hwhole, hfits, -⟩ := hs
  obtain ⟨-, -, hm, -, -⟩ := geomValid_bounds (hgeometry hjob)
  have hn : nextChunkLen s = min (maxPayload s.jWidth.toNat s.jHeight.toNat) s.jRemain.toNat := rfl
  have hremain : (s.jRemain - BitVec.ofNat 64 (nextChunkLen s)).toNat = s.jRemain.toNat - nextChunkLen s := by
    have := s.jRemain.isLt
    rw [BitVec.toNat_sub, BitVec.toNat_ofNat]
    omega
  generalize s.jRemain - BitVec.ofNat 64 (nextChunkLen s) = remain at hremain ⊢
  have hfull : 0 < remain.toNat → maxPayload s.jWidth.toNat s.jHeight.toNat < s.jRemain.toNat ∧
      remain.toNat = s.jRemain.toNat - maxPayload s.jWidth.toNat s.jHeight.toNat := fun _ => by omega
  refine ⟨job_flag_iff _ _, ?_, fun _ => hgeometry hjob, fun h => ?_, fun h => ?_, fun _ => hfits hjob,
    not_job_and_last _ _⟩
  · exact (hremain.trans_le (Nat.sub_le _ _)).trans hbounded
  · obtain ⟨hlt, hr⟩ := hfull ((job_flag_iff _ _).mp h)
    obtain ⟨hq, hdiv, -⟩ := next_sequence hm hlt hbounded (hfits hjob) (hsequence hjob) (hwhole hjob)
    have hseq : (s.jSeq + 1#32).toNat = s.jSeq.toNat + 1 := by
      rw [BitVec.toNat_add]
      exact Nat.mod_eq_of_lt hq
    rw [hr, hseq, hdiv]
  · obtain ⟨hlt, hr⟩ := hfull ((job_flag_iff _ _).mp h)
    obtain ⟨-, -, hmod⟩ := next_sequence hm hlt hbounded (hfits hjob) (hsequence hjob) (hwhole hjob)
    rw [hr, hmod]

/-! Cleared registers (R49, R200). -/

/-- STATUS, EINFO and J_REMAIN at 0 meet the invariant, whatever well-formed memories and CTRL hold. -/
theorem inv_of_cleared {s : State} (hstatus : s.status = 0#32) (hremain : s.jRemain = 0#64)
    (hinfoA : s.einfoA = 0#64) (hinfoB : s.einfoB = 0#64) (hmem : MemoriesWf s)
    (hctrl : ∀ k, 1 ≤ k → s.ctrl.getLsbD k = false) : s.Inv := by
  have hbit : ∀ k, s.status.getLsbD k = false := fun k => by rw [hstatus, BitVec.getLsbD_zero]
  have hclear : ∀ k, ¬s.status.getLsbD k = true := fun k => by rw [hbit k]; decide
  have hnojob : ¬statusJob s.status = true := hclear 5
  have hnone : ¬0 < s.jRemain.toNat := by rw [hremain]; decide
  have hjob : JobInv s :=
    ⟨iff_of_false hnojob hnone, by omega, fun h => absurd h hnojob, fun h => absurd h hnojob,
      fun h => absurd h hnojob, fun h => absurd h hnojob, fun h => hnojob h.1⟩
  have hst : StatusInv s :=
    ⟨fun h => absurd h (hclear 8), fun _ => ⟨hinfoA, hinfoB⟩, ⟨.ok, by rw [hstatus]; decide⟩, hbit 7,
      fun k _ => hbit k, hctrl⟩
  exact ⟨hmem, hjob, hst, fun h => absurd h (hclear 4)⟩

/-- The state after the reset input (R270). -/
theorem inv_hardReset (s : State) : (hardReset s).Inv :=
  inv_of_cleared rfl rfl rfl rfl ⟨wf_nil _, wf_nil _, wf_nil _, wf_nil _⟩ fun _ _ => BitVec.getLsbD_zero

/-- Settles O14: every register that the invariant reads is 0 at reset, and no cell is listed. -/
theorem resetMeetsInvariant : Obligations.ResetMeetsInvariant := by
  unfold Obligations.ResetMeetsInvariant
  exact inv_of_cleared rfl rfl rfl rfl ⟨wf_nil _, wf_nil _, wf_nil _, wf_nil _⟩
    fun _ _ => BitVec.getLsbD_zero

/-! Every command keeps the invariant. -/

/-- An outcome that is a next state which meets the invariant. -/
def NextInv (o : Host.Outcome State Fault Refusal) : Prop := ∃ t, o = .next t ∧ t.Inv

/-- A next state that meets the invariant. -/
theorem nextInv_next {t : State} (ht : t.Inv) : NextInv (.next t) := ⟨t, rfl, ht⟩

section
variable {s : State} (hs : s.Inv)
include hs

/-- HCK changes CK4, or raises LengthOutOfRange (R118). -/
theorem execHck_inv : NextInv (execHck s) :=
  nextInv_next <| withInput_induction (fun _ => (inv_prologue hs).of_checked_eq rfl) fun _ =>
    inv_raise_prologue hs (by decide) _ _

/-- CRC changes the register CRC, or raises LengthOutOfRange (R120). -/
theorem execCrc_inv : NextInv (execCrc s) :=
  nextInv_next <| withInput_induction (fun _ => (inv_prologue hs).of_checked_eq rfl) fun _ =>
    inv_raise_prologue hs (by decide) _ _

/-- ENCF paints a raster of a valid geometry, or raises one of its two errors (R138). -/
theorem execEncf_inv : NextInv (execEncf s) := by
  refine nextInv_next <| withGeometry_induction (fun hg => ?_) fun _ => inv_raise_prologue hs (by decide) _ _
  obtain ⟨hfit, -, -, -, -⟩ := geomValid_bounds hg
  split
  · exact inv_paintFrame (inv_prologue hs) _ _ _ hfit
  · exact inv_raise_prologue hs (by decide) _ _

/-- ENCB begins a job, or raises one of its two errors (R142). -/
theorem execEncb_inv : NextInv (execEncb s) := by
  refine nextInv_next <| withGeometry_induction (fun hg => ?_) fun _ => inv_raise_prologue hs (by decide) _ _
  split
  next hframes => exact (inv_prologue hs).with_job (jobInv_begin hg hframes)
  next => exact inv_raise_prologue hs (by decide) _ _

/-- ENCN takes the job one chunk further, or raises NoActiveJob (R144, R145). -/
theorem execEncn_inv : NextInv (execEncn s) := by
  refine nextInv_next ?_
  split
  next hjob =>
    have hp := inv_prologue hs
    obtain ⟨hfit, -, -, -, -⟩ := geomValid_bounds (hp.job.geometry hjob)
    have ht := inv_paintFrame hp (ibufPrefix (prologue s) (nextChunkLen (prologue s))) (prologue s).jSeq
      (prologue s).jTotal hfit
    exact ht.with_job (jobInv_advance ht.job hjob)
  next => exact inv_raise_prologue hs (by decide) _ _

/-- DECF records a chunk that lies inside its raster, or an error (R180). -/
theorem execDecf_inv : NextInv (execDecf s) := by
  obtain ⟨hd, he⟩ := execDecf_cases s
  rw [he]
  refine nextInv_next ?_
  split
  next hg =>
    obtain ⟨-, -, -, hcap, -⟩ := geomValid_bounds hg
    split
    · have hstart : State.Inv { decfStart s with hidden := hd } := (inv_decfStart hs).of_checked_eq rfl
      cases hr : decodeBytes s.cfg.magic.toList (bytesOf (drastPrefix s (s.width.toNat * s.height.toNat))) with
      | fail e short a b =>
        have hlen := capBytes_lt s.width s.height
        obtain ⟨hne, hshort, -, -⟩ := decodeBytes_fail
          (by rw [length_bytesOf, length_drastPrefix]; exact hlen.trans (by decide)) hr
        exact inv_recordDecode_fail hstart hne hshort a b
      | chunk payload q total size skip =>
        obtain ⟨hlen, hfit⟩ := decodeBytes_chunk_fits hr
        exact inv_recordDecode_chunk hstart q total hlen (hfit.trans hcap)
    · exact inv_raise_decfStart hs (by decide) _ _
  next => exact inv_raise_decfStart hs (by decide) _ _

/-- CLR leaves the memories and CTRL (R200). -/
theorem execClr_inv : NextInv (execClr s) :=
  nextInv_next <| inv_of_cleared rfl rfl rfl rfl { hs.memories with } hs.status.ctrlReserved

/-- Every command ends in a state that meets the invariant. -/
theorem exec_inv (i : Instr) : NextInv (exec i s) := by
  cases i with
  | hck => exact execHck_inv hs
  | crc => exact execCrc_inv hs
  | encf => exact execEncf_inv hs
  | encb => exact execEncb_inv hs
  | encn => exact execEncn_inv hs
  | decf => exact execDecf_inv hs
  | clr => exact execClr_inv hs

/-- A write of CMD, of any word (R86, R202). -/
theorem runCommand_inv (c : Word) : NextInv (runCommand c s) :=
  runCommand_induction (fun i _ => exec_inv hs i) fun _ _ =>
    nextInv_next <| inv_raise_prologue hs (by decide) _ _

/-! Every host access keeps the invariant. -/

/-- A write of a register (R21, R25). -/
theorem writeRegister_inv (r : Reg) (v : DWord) : (writeRegister r v s).Inv := by
  cases r
  case ctrl =>
    refine hs.with_ctrl fun k hk => ?_
    rw [getLsbD_ctrlStored, decide_eq_false (Nat.ne_of_gt hk), Bool.false_and]
  case width | height | rwidth | rheight | len | seq | total => exact hs.of_checked_eq rfl
  all_goals exact hs

/-- A write of an existing cell (R61). -/
theorem writeCell_inv {sp : Space} {a : Nat} (v : DWord) (ha : a < sp.size s.cfg) : (writeCell sp a v s).Inv := by
  cases sp with
  | ibuf => exact hs.with_ibuf (wf_write _ ha hs.memories.ibuf)
  | obuf => exact hs.with_obuf (wf_write _ ha hs.memories.obuf)
  | erast => exact hs.with_erast (wf_write _ ha hs.memories.erast)
  | drast => exact hs.with_drast (wf_write _ ha hs.memories.drast)

end

/-- A port event whose state, where it has one, meets the invariant. -/
def PortEvent.MeetsInv : PortEvent → Prop
  | .done s => s.Inv
  | .command _ s => s.Inv
  | .idle => True
  | .refused _ => True

section
variable {s : State} (hs : s.Inv)
include hs

/-- A well-formed access that is performed. -/
theorem plainAccess_inv {x : Access} (hx : x.malformed s.cfg = none) : (plainAccess x s).MeetsInv := by
  cases x with
  | writeReg n v =>
    simp only [plainAccess]
    split
    · exact hs
    · exact writeRegister_inv hs _ v
    · exact hs
  | readReg n => exact hs.of_checked_eq rfl
  | writeCell sp a v =>
    have ha : a < sp.size s.cfg := by
      by_contra hge
      rw [Access.malformed, if_neg hge] at hx
      cases hx
    exact writeCell_inv hs v ha
  | readCell sp a => exact hs.of_checked_eq rfl
  | reset => exact inv_hardReset s

/-- Any access: refused, or performed. -/
theorem portAccess_inv (x : Access) : (portAccess x s).MeetsInv := by
  unfold portAccess
  split
  · trivial
  · split
    · trivial
    · trivial
    next hx => exact plainAccess_inv hs hx

/-- The host's next access, taken off the script. -/
theorem nextEvent_inv : (nextEvent s).MeetsInv := by
  unfold nextEvent
  split
  · trivial
  next x rest _ => exact portAccess_inv (s := { s with script := rest }) (hs.of_checked_eq rfl) x

end

/-- Settles O15: each host access and each command keeps the invariant. -/
theorem stepKeepsInvariant : Obligations.StepKeepsInvariant := by
  unfold Obligations.StepKeepsInvariant
  intro s t hs ht
  have hevent := nextEvent_inv hs
  unfold step at ht
  cases he : nextEvent s with
  | idle =>
    rw [he] at ht
    cases ht
    exact hs
  | done u =>
    rw [he] at ht hevent
    cases ht
    exact hevent
  | command c u =>
    rw [he] at ht hevent
    obtain ⟨t', ht', hinv⟩ := runCommand_inv hevent c
    obtain rfl := Host.Outcome.next.inj (ht.symm.trans ht')
    exact hinv
  | refused r =>
    rw [he] at ht
    cases ht

end Sys2Proof.Machine
end

section
/-! PROOFS. Memory, one access of the host (spec/20_memory.md R60, R61, R72): what a read leaves unchanged, and
what a write of one cell does to every cell. -/

namespace Sys2Proof.Machine

/-! Reads (R72). -/

/-- No register depends on the host's own fields (log 1, log 2). -/
theorem readRegNum_with_hostFields (n : BitVec 8) (s : State) (script : List Access) (rdata : DWord) :
    readRegNum n { s with script := script, rdata := rdata } = readRegNum n s := by
  unfold readRegNum
  cases Reg.ofNum n with
  | none => rfl
  | some r => cases r <;> rfl

/-- No cell depends on the host's own fields (log 1, log 2). -/
theorem readCell_with_hostFields (sp : Space) (a : Nat) (s : State) (script : List Access) (rdata : DWord) :
    readCell sp a { s with script := script, rdata := rdata } = readCell sp a s := by
  cases sp <;> rfl

/-- A read of a register that the block allows, of STATUS also while busy (R280), is the whole step. -/
theorem step_readReg {s : State} {rest : List Access} {n : BitVec 8} (hs : s.script = .readReg n :: rest)
    (hb : statusBusy s.status = false ∨ n = Reg.num .status) :
    step s = .next { s with script := rest, rdata := readRegNum n s } := by
  have hallowed : statusBusy s.status = false ∨ allowedWhileBusy (.readReg n) = true :=
    hb.imp_right decide_eq_true
  have hevent : nextEvent s = .done { s with script := rest, rdata := readRegNum n { s with script := rest } } :=
    nextEvent_of_wf hs hallowed rfl
  rw [step, hevent, readRegNum_with_hostFields n s rest s.rdata]

/-- A read of an existing cell is the whole step. -/
theorem step_readCell {s : State} {rest : List Access} {sp : Space} {a : Nat}
    (hs : s.script = .readCell sp a :: rest) (hb : statusBusy s.status = false) (ha : a < sp.size s.cfg) :
    step s = .next { s with script := rest, rdata := readCell sp a s } := by
  rw [← readCell_with_hostFields sp a s rest s.rdata]
  exact step_of_done hs hb (if_pos ha) rfl

/-! Writes (R60, R61). -/

/-- A write of an existing cell, of a value that fits it, is `writeCell`. -/
theorem step_writeCell {s : State} {rest : List Access} {sp : Space} {a : Nat} {v : DWord}
    (hs : s.script = .writeCell sp a v :: rest) (hb : statusBusy s.status = false) (ha : a < sp.size s.cfg)
    (hv : v.toNat < 2 ^ sp.bits) : step s = .next (writeCell sp a v { s with script := rest }) :=
  step_of_done hs hb ((if_pos ha).trans (if_pos hv)) rfl

/-- The written cell reads the value, if the value fits it. -/
theorem readCell_writeCell_same {sp : Space} {v : DWord} (hv : v.toNat < 2 ^ sp.bits) (a : Nat) (s : State) :
    readCell sp a (writeCell sp a v s) = v := by
  cases sp <;> simp only [readCell, writeCell, readIbuf, readObuf, readErast, readDrast, read_write, if_true]
  all_goals exact setWidth_setWidth_of_fits hv

/-- A write of a cell leaves every cell of the other memories and every other cell of its own. -/
theorem readCell_writeCell_of_ne {sp sp' : Space} {a b : Nat} (v : DWord) (s : State)
    (hne : (sp', b) ≠ (sp, a)) : readCell sp' b (writeCell sp a v s) = readCell sp' b s := by
  by_cases hsp : sp' = sp
  · subst hsp
    have hb : b ≠ a := fun h => hne (congrArg (Prod.mk sp') h)
    cases sp' <;> simp only [readCell, writeCell, readIbuf, readObuf, readErast, readDrast, read_write, if_neg hb]
  · cases sp' <;> cases sp
    case ibuf.ibuf | obuf.obuf | erast.erast | drast.drast => exact absurd rfl hsp
    all_goals rfl

/-- A write of a cell changes the memories only. -/
theorem writeCell_frame (sp : Space) (a : Nat) (v : DWord) (s : State) :
    writeCell sp a v s = { s with
      ibuf := (writeCell sp a v s).ibuf, obuf := (writeCell sp a v s).obuf,
      erast := (writeCell sp a v s).erast, drast := (writeCell sp a v s).drast } := by
  cases sp <;> rfl

/-! The statements. -/

/-- Settles O6: a read moves the host's own fields, and no register or cell depends on them. -/
theorem hostReadsHaveNoSideEffect : Obligations.HostReadsHaveNoSideEffect := by
  unfold Obligations.HostReadsHaveNoSideEffect
  exact ⟨fun s rest n hs hb => ⟨_, step_readReg hs hb, rfl, readRegNum_with_hostFields n s rest _⟩,
    fun s rest sp a hs hb ha => ⟨_, step_readCell hs hb ha, rfl, readCell_with_hostFields sp a s rest _⟩⟩

/-- Settles O9: the step is `writeCell`, whose effect on each cell is known. -/
theorem hostWritesOneCell : Obligations.HostWritesOneCell := by
  unfold Obligations.HostWritesOneCell
  intro s rest sp a v hs hb ha hv
  refine ⟨_, step_writeCell hs hb ha hv, readCell_writeCell_same hv a _, fun sp' b hne => ?_,
    writeCell_frame sp a v { s with script := rest }⟩
  calc readCell sp' b (writeCell sp a v { s with script := rest })
    _ = readCell sp' b { s with script := rest } := readCell_writeCell_of_ne v _ hne
    _ = readCell sp' b s := readCell_with_hostFields sp' b s rest s.rdata

end Sys2Proof.Machine
end

section
/-! PROOFS. Encoding, the command word (spec/30_encoding.md R85 to R88) and the frame header (R89 to R91): a word
as its two fields, what `decode` can answer in terms of them, and what a built header holds. -/

namespace Sys2Proof.Machine

/-! The fields of a command word (R85). -/

/-- The two fields leave no bit out. -/
theorem zeroField_append_opcodeField (c : Word) : zeroField c ++ opcodeField c = c :=
  (BitVec.extractLsb'_append_extractLsb'_eq_extractLsb' rfl).trans BitVec.extractLsb'_eq_self

/-- Two words with the same fields are the same word. -/
theorem word_eq_of_fields {c d : Word} (hz : zeroField c = zeroField d) (ho : opcodeField c = opcodeField d) :
    c = d := by
  rw [← zeroField_append_opcodeField c, ← zeroField_append_opcodeField d, hz, ho]

/-- The law of a command's word, for all commands together. -/
theorem format_statement (i : Instr) : Laws.Format.Statement i := by
  cases i with
  | hck => exact Laws.Format.hck
  | crc => exact Laws.Format.crc
  | encf => exact Laws.Format.encf
  | encb => exact Laws.Format.encb
  | encn => exact Laws.Format.encn
  | decf => exact Laws.Format.decf
  | clr => exact Laws.Format.clr

theorem zeroField_encode (i : Instr) : zeroField (encode i) = 0#24 := by
  obtain ⟨-, hz, -, -⟩ := format_statement i
  exact hz

theorem opcodeField_encode (i : Instr) : opcodeField (encode i) = opcodeOf i := by
  obtain ⟨-, -, ho, -⟩ := format_statement i
  exact ho

theorem decode_encode (i : Instr) : decode (encode i) = .ok i := by
  obtain ⟨-, -, -, hd⟩ := format_statement i
  exact hd

/-! What `decode` can answer (R86, R88). -/

/-- Only a word with ZERO clear and the command's own OPCODE decodes to a command: one case for each row of R87. -/
theorem fields_of_decode_ok {c : Word} {i : Instr} (h : decode c = .ok i) :
    zeroField c = 0#24 ∧ opcodeField c = opcodeOf i := by
  unfold decode at h
  split at h
  next => cases h
  next hz =>
    refine ⟨not_not.mp hz, BitVec.eq_of_toNat_eq ?_⟩
    split at h <;> cases h <;> assumption

/-- A word that is rejected has a nonzero ZERO field, or an OPCODE with no row in R87. -/
theorem reservedWord_of_decode_error {c : Word} {e : DecodeError} (h : decode c = .error e) : reservedWord c := by
  unfold decode at h
  split at h
  next hz => exact .inl hz
  next =>
    split at h
    case h_8 =>
      have hop : (opcodeField c).toNat = 0 ∨ 8 ≤ (opcodeField c).toNat := by
        simp only [imp_false] at *
        omega
      exact .inr (hop.imp_left fun h0 => BitVec.eq_of_toNat_eq h0)
    all_goals cases h

/-- The numbers of R87 are 1 to 7. -/
theorem opcodeOf_range (i : Instr) : opcodeOf i ≠ 0x00#8 ∧ (opcodeOf i).toNat < 0x08 := by
  cases i <;> decide

/-- No command's word is reserved. -/
theorem not_reservedWord_encode (i : Instr) : ¬ reservedWord (encode i) := by
  obtain ⟨hne, hlt⟩ := opcodeOf_range i
  unfold reservedWord
  rw [zeroField_encode, opcodeField_encode]
  rintro (hz | h0 | h8)
  · exact hz rfl
  · exact hne h0
  · exact Nat.not_le.mpr hlt h8

/-- Settles O2: a command's word decodes to it, and a word that decodes to it has the same two fields. -/
theorem decodeAgreesWithEncode : Obligations.DecodeAgreesWithEncode := by
  unfold Obligations.DecodeAgreesWithEncode
  refine fun c i => ⟨fun h => ?_, fun h => h ▸ decode_encode i⟩
  obtain ⟨hz, ho⟩ := fields_of_decode_ok h
  exact word_eq_of_fields (hz.trans (zeroField_encode i).symm) (ho.trans (opcodeField_encode i).symm)

/-- A word decodes to no command exactly when it is reserved: any other answer makes it some command's word. -/
theorem exists_decode_error_iff (c : Word) : (∃ e, decode c = .error e) ↔ reservedWord c := by
  refine ⟨fun ⟨e, he⟩ => reservedWord_of_decode_error he, fun hc => ?_⟩
  cases hd : decode c with
  | error e => exact ⟨e, rfl⟩
  | ok i =>
    obtain rfl : c = encode i := (decodeAgreesWithEncode c i).mp hd
    exact absurd hc (not_reservedWord_encode i)

/-- A reserved word runs the illegal command, in every state (R86, R202). -/
theorem runCommand_of_reservedWord {c : Word} (hc : reservedWord c) (s : State) :
    runCommand c s = execIllegal c s := by
  obtain ⟨e, he⟩ := (exists_decode_error_iff c).mpr hc
  rw [runCommand, he]

/-- Settles O3: a reserved word runs the illegal command, which raises its error after the prologue. -/
theorem reservedWordsAreIllegal : Obligations.ReservedWordsAreIllegal := by
  unfold Obligations.ReservedWordsAreIllegal
  refine fun c => ⟨exists_decode_error_iff c, fun s hc => ⟨_, runCommand_of_reservedWord hc s, ?_⟩⟩
  have hfit : c.toNat < 2 ^ 64 := c.isLt.trans (by decide)
  exact raised_raise .illegalCommand hfit (by decide) s

/-- Settles O1: each of the seven words is the command's own. -/
theorem commandWordsDecode : Obligations.CommandWordsDecode := by
  unfold Obligations.CommandWordsDecode
  exact ⟨decode_encode .hck, decode_encode .crc, decode_encode .encf, decode_encode .encb, decode_encode .encn,
    decode_encode .decf, decode_encode .clr⟩

/-! The frame header (R89 to R91, R130). -/

/-- Settles O26: every field is a slice of the built header, and parses to the number it was made from. -/
theorem builtHeaderParsesBack : Obligations.BuiltHeaderParsesBack := by
  unfold Obligations.BuiltHeaderParsesBack
  intro magic payload q total hlen
  have hm : magic.toList.length = 6 := magic.length_toList
  exact ⟨_, rfl, length_buildHeader hm payload q total,
    slice_magic hm payload q total, slice_total hm payload q total, slice_seq hm payload q total,
    slice_chunk hm payload q total, slice_pay hm payload q total,
    hdrTotal_buildHeader hm payload q total, hdrSeq_buildHeader hm payload q total,
    hdrChunk_buildHeader hm payload q total hlen, hdrPayloadCk_buildHeader hm payload q total,
    hdrValid_buildHeader hm payload q total⟩

end Sys2Proof.Machine
end

section
/-! PROOFS. Checksums, the two functions (spec/40_checksum.md R110 to R117): which bytes each lane of
HeaderChecksum covers, and that PayloadChecksum tells any two values of one byte apart. -/

namespace Sys2Proof.Machine

/-! The lanes of HeaderChecksum (R110, R111). -/

/-- The loop of R110 leaves in each lane what R111 says. -/
theorem lane_headerChecksum (s : List Byte) {k : Nat} (hk : k < 4) : lane (headerChecksum s) k = laneXor s k := by
  have hstart : (List.replicate 4 0#8).getD k 0#8 = 0#8 := List.getD_replicate _ hk
  have hfold := getD_foldLanes s 0 (List.replicate 4 0#8) List.length_replicate hk
  simp only [Nat.zero_add, hstart] at hfold
  exact hfold

/-- Settles O20: by the closed form of the loop. -/
theorem headerChecksumIsLaneXor : Obligations.HeaderChecksumIsLaneXor := by
  unfold Obligations.HeaderChecksumIsLaneXor
  exact fun s => ⟨length_headerChecksum s, fun k hk => lane_headerChecksum s hk⟩

/-- A lane depends on the length and on its own bytes only. -/
theorem laneXor_congr {s t : List Byte} {k : Nat} (hlen : s.length = t.length)
    (h : ∀ i, i < s.length → i % 4 = k → s.getD i 0#8 = t.getD i 0#8) : laneXor s k = laneXor t k := by
  unfold laneXor
  rw [← hlen]
  refine List.foldl_ext _ _ _ fun x i hi => ?_
  obtain ⟨hrange, hlane⟩ := List.mem_filter.mp hi
  rw [h i (List.mem_range.mp hrange) (of_decide_eq_true hlane)]

/-- Xoring the same bytes into different values leaves them different. -/
theorem foldl_xor_injective (f : Nat → Byte) (l : List Nat) {x y : Byte}
    (h : l.foldl (fun z i => z ^^^ f i) x = l.foldl (fun z i => z ^^^ f i) y) : x = y := by
  induction l generalizing x y with
  | nil => exact h
  | cons i l ih => exact (BitVec.xor_left_inj _).mp (ih h)

theorem getD_set_same {s : List Byte} {i : Nat} (b : Byte) (hi : i < s.length) : (s.set i b).getD i 0#8 = b := by
  rw [List.getD_eq_getElem?_getD, List.getElem?_set_self hi, Option.getD_some]

theorem getD_set_of_ne {i j : Nat} (s : List Byte) (b : Byte) (hne : i ≠ j) :
    (s.set i b).getD j 0#8 = s.getD j 0#8 := by
  rw [List.getD_eq_getElem?_getD, List.getElem?_set_ne hne, List.getD_eq_getElem?_getD]

/-- A lane with one of its bytes replaced is the same lane only if the byte is the same: before and after that
byte's one turn both lanes xor the same bytes. -/
theorem eq_of_laneXor_set_eq {s : List Byte} {i : Nat} {b : Byte} (hi : i < s.length)
    (h : laneXor (s.set i b) (i % 4) = laneXor s (i % 4)) : b = s.getD i 0#8 := by
  unfold laneXor at h
  rw [List.length_set] at h
  have hmem : i ∈ (List.range s.length).filter fun j => j % 4 = i % 4 :=
    List.mem_filter.mpr ⟨List.mem_range.mpr hi, decide_eq_true rfl⟩
  obtain ⟨l, r, hsplit⟩ := List.append_of_mem hmem
  have hnodup : (l ++ i :: r).Nodup := hsplit ▸ List.nodup_range.filter _
  have hi' : i ∉ l ++ r := (List.nodup_middle.mp hnodup).notMem
  have hother : ∀ (x : Byte), ∀ j ∈ l ++ r, x ^^^ (s.set i b).getD j 0#8 = x ^^^ s.getD j 0#8 := fun x j hj => by
    rw [getD_set_of_ne s b (ne_of_mem_of_not_mem hj hi').symm]
  rw [format_hckLanes, hsplit, List.foldl_append, List.foldl_append, List.foldl_cons, List.foldl_cons,
    List.foldl_ext _ _ _ fun x j hj => hother x j (List.mem_append_left r hj),
    List.foldl_ext _ _ _ fun x j hj => hother x j (List.mem_append_right l hj), getD_set_same b hi] at h
  exact (BitVec.xor_right_inj _).mp (foldl_xor_injective _ r h)

/-! The coverage of a header's stored checksum (R112). -/

/-- A header is valid exactly when its two stored bytes are the first two lanes of the 30 bytes before them. -/
theorem hdrValid_iff {h : List Byte} (hlen : h.length = 32) :
    hdrValid h = true ↔ ∀ k, k < 2 → laneXor (slice h 0 30) k = h.getD (30 + k) 0#8 := by
  have hstored : (storedChecksum (slice h 0 30)).length = (slice h 30 2).length := by
    rw [length_storedChecksum, length_slice, hlen]; rfl
  have hlane : ∀ k, k < 2 → (storedChecksum (slice h 0 30)).getD k 0#8 = laneXor (slice h 0 30) k := fun k hk =>
    calc (slice (headerChecksum (slice h 0 30)) 0 2).getD k 0#8
      _ = (headerChecksum (slice h 0 30)).getD k 0#8 := by rw [getD_slice, if_pos hk, Nat.zero_add]
      _ = laneXor (slice h 0 30) k := lane_headerChecksum _ (by omega)
  have hbyte : ∀ k, k < 2 → (slice h 30 2).getD k 0#8 = h.getD (30 + k) 0#8 := fun k hk => by
    rw [getD_slice, if_pos hk]
  have hdef : hdrValid h = true ↔ storedChecksum (slice h 0 30) = slice h 30 2 := decide_eq_true_iff
  rw [hdef]
  constructor
  · intro he k hk
    rw [← hlane k hk, he, hbyte k hk]
  · intro hk
    refine ext_getD hstored fun k h2 => ?_
    rw [length_storedChecksum] at h2
    rw [hlane k h2, hk k h2, hbyte k h2]

/-- Headers that agree at the covered offsets and in the stored bytes are valid alike. -/
theorem hdrValid_congr {h h' : List Byte} (hlen : h.length = 32) (hlen' : h'.length = 32)
    (hcov : ∀ i, i < 32 → i % 4 < 2 → h.getD i 0#8 = h'.getD i 0#8)
    (hst : ∀ k, k < 2 → h.getD (30 + k) 0#8 = h'.getD (30 + k) 0#8) : hdrValid h = hdrValid h' := by
  have hlane : ∀ k, k < 2 → laneXor (slice h 0 30) k = laneXor (slice h' 0 30) k := fun k hk => by
    refine laneXor_congr (by rw [length_slice, length_slice, hlen, hlen']) fun i hi hik => ?_
    rw [length_slice, hlen] at hi
    rw [getD_slice, getD_slice, Nat.zero_add, hcov i (by omega) (by omega)]
  rw [Bool.eq_iff_iff, hdrValid_iff hlen, hdrValid_iff hlen']
  exact forall₂_congr fun k hk => by rw [hlane k hk, hst k hk]

/-- A valid header stays valid only if a covered byte or a stored byte that is replaced is the same. -/
theorem eq_of_hdrValid_set {h : List Byte} {i : Nat} {b : Byte} (hlen : h.length = 32) (hv : hdrValid h = true)
    (hi : i < 30 ∧ i % 4 < 2 ∨ i = 30 ∨ i = 31) (hv' : hdrValid (h.set i b) = true) : b = h.getD i 0#8 := by
  rw [hdrValid_iff hlen] at hv
  rw [hdrValid_iff (by rw [List.length_set, hlen])] at hv'
  rcases hi with ⟨hi, hk⟩ | hi
  · have hslice : slice (h.set i b) 0 30 = (slice h 0 30).set i b := List.take_set
    have hst : (h.set i b).getD (30 + i % 4) 0#8 = h.getD (30 + i % 4) 0#8 :=
      getD_set_of_ne h b (by omega)
    have hlane : laneXor ((slice h 0 30).set i b) (i % 4) = laneXor (slice h 0 30) (i % 4) := by
      rw [← hslice, hv' _ hk, hst, hv _ hk]
    have hb := eq_of_laneXor_set_eq (by rw [length_slice, hlen]; omega) hlane
    rwa [getD_slice, if_pos hi, Nat.zero_add] at hb
  · obtain ⟨k, hk, rfl⟩ : ∃ k, k < 2 ∧ i = 30 + k := ⟨i - 30, by omega, by omega⟩
    have hslice : slice (h.set (30 + k) b) 0 30 = slice h 0 30 := List.take_set_of_le (by omega)
    rw [← hv k hk, ← hslice, hv' k hk, getD_set_same b (by omega)]

/-- Settles O21: validity is two equations between lanes and stored bytes. -/
theorem headerChecksumCoverage : Obligations.HeaderChecksumCoverage := by
  unfold Obligations.HeaderChecksumCoverage
  refine ⟨fun h h' hlen hlen' hcov h30 h31 => hdrValid_congr hlen hlen' hcov fun k hk => ?_,
    fun h i b hlen hv hi hb => ?_⟩
  · interval_cases k
    · exact h30
    · exact h31
  · exact Bool.eq_false_iff.mpr fun hv' => hb (eq_of_hdrValid_set hlen hv hi hv')

/-! PayloadChecksum (R114, R115, R117). -/

/-- Settles O22: the two forms agree on each byte. -/
theorem crcByteFormAgrees : Obligations.CrcByteFormAgrees := by
  unfold Obligations.CrcByteFormAgrees
  intro s
  have hbyte : crcByte = crcByteWhole := funext₂ crcByte_eq_whole
  rw [payloadChecksum, payloadChecksumByBytes, crcRegister, hbyte]

/-- Only the byte 0 takes the register 0 to 0. -/
theorem eq_zero_of_crcByte_zero {m : Byte} (h : crcByte 0#64 m = 0#64) : m = 0#8 := by
  rw [← crcByteWhole_zero] at h
  have hz : m.setWidth 64 <<< 56 = 0#64 := crcByte_zero_injective h
  bv_omega

/-- From one register, different bytes give different registers. -/
theorem eq_of_crcByte_eq {r : DWord} {b c : Byte} (h : crcByte r b = crcByte r c) : b = c := by
  have hx := crcByte_xor r r b c
  rw [h, BitVec.xor_self, BitVec.xor_self] at hx
  exact BitVec.xor_eq_zero_iff.mp (eq_zero_of_crcByte_zero hx)

/-- Sequences that differ in one byte have different checksums: the byte makes the registers different, and the
bytes after it keep them so. -/
theorem eq_of_payloadChecksum_eq (p t : List Byte) {b c : Byte}
    (h : payloadChecksum (p ++ b :: t) = payloadChecksum (p ++ c :: t)) : b = c := by
  have hr : crcRegister (p ++ b :: t) = crcRegister (p ++ c :: t) := (BitVec.xor_left_inj _).mp h
  simp only [crcRegister, List.foldl_append, List.foldl_cons] at hr
  exact eq_of_crcByte_eq (foldl_crcByte_injective t hr)

theorem singleBit_ne_zero : ∀ k, k < 8 → 1#8 <<< k ≠ 0#8 := by decide

/-- Settles O23: a flipped bit changes one byte. -/
theorem crcDetectsSingleBitErrors : Obligations.CrcDetectsSingleBitErrors := by
  unfold Obligations.CrcDetectsSingleBitErrors
  intro s i k hi hk h
  have hs : s = s.take i ++ s[i] :: s.drop (i + 1) := by rw [List.getElem_cons_drop, List.take_append_drop]
  rw [List.modify_eq_take_cons_drop hi] at h
  have hbyte := eq_of_payloadChecksum_eq _ _ (h.trans (congrArg payloadChecksum hs))
  exact singleBit_ne_zero k hk ((BitVec.xor_right_inj _).mp (hbyte.trans BitVec.xor_zero.symm))

end Sys2Proof.Machine
end

section
/-! PROOFS. Checksums, the two commands (spec/40_checksum.md R118, R120): the length check as two equations, the
error that HCK and CRC share, the bytes of CK4, and each command's result. -/

namespace Sys2Proof.Machine

/-! The length check (R204). -/

theorem withInput_of_fits {s : State} (k : List Byte → State) (h : s.len.toNat ≤ bufBytes s.cfg) :
    withInput s k = k (ibufPrefix s s.len.toNat) := by rw [withInput, if_pos h]

theorem withInput_of_exceeds {s : State} (k : List Byte → State) (h : bufBytes s.cfg < s.len.toNat) :
    withInput s k = raise .lengthOutOfRange s.len.toNat (bufBytes s.cfg) s := by
  rw [withInput, if_neg (Nat.not_le.mpr h)]

/-- LEN above the buffer: LengthOutOfRange, and nothing else changes, in HCK as in CRC. -/
theorem raised_withInput {s : State} (k : List Byte → State) (h : bufBytes s.cfg < s.len.toNat) :
    Raised (withInput (prologue s) k) s .lengthOutOfRange false (statusDvalid s.status) s.len.toNat
      (bufBytes s.cfg) := by
  have hlen : s.len.toNat < 2 ^ 64 := s.len.isLt.trans (by decide)
  have heq := withInput_of_exceeds (s := prologue s) k h
  exact heq ▸ raised_raise .lengthOutOfRange hlen (h.trans hlen) s

/-! The bytes of CK4 (R32). -/

/-- `be` undoes `from_be` on as many bytes as the word holds (R17). -/
theorem be_ofNat_fromBe {w : Nat} (s : List Byte) (hw : 8 * s.length ≤ w) :
    be s.length (BitVec.ofNat w (fromBe s)) = s := by
  induction s using List.reverseRecOn with
  | nil => rfl
  | append_singleton s b ih =>
    rw [List.length_append, List.length_singleton] at hw ⊢
    have hfit : fromBe s * 256 + b.toNat < 2 ^ w := by
      have hlt := fromBe_lt (s ++ [b])
      rw [fromBe_append_singleton, List.length_append, List.length_singleton,
        show (256 : Nat) = 2 ^ 8 from rfl, ← Nat.pow_mul] at hlt
      exact hlt.trans_le (Nat.pow_le_pow_right (by decide) hw)
    have hb := b.isLt
    have hhigh : BitVec.ofNat w (fromBe s * 256 + b.toNat) >>> 8 = BitVec.ofNat w (fromBe s) := by
      apply BitVec.eq_of_toNat_eq
      rw [BitVec.toNat_ushiftRight, BitVec.toNat_ofNat, BitVec.toNat_ofNat, Nat.mod_eq_of_lt hfit,
        Nat.mod_eq_of_lt (by omega), Nat.shiftRight_eq_div_pow]
      omega
    have hlow : (BitVec.ofNat w (fromBe s * 256 + b.toNat)).extractLsb' 0 8 = b := by
      apply BitVec.eq_of_toNat_eq
      rw [BitVec.extractLsb'_toNat, BitVec.toNat_ofNat, Nat.mod_eq_of_lt hfit, Nat.shiftRight_zero]
      omega
    rw [be_succ, fromBe_append_singleton, hhigh, hlow, ih (by omega)]

/-- CK4 holds the four bytes of a header checksum, the first in bits 31:24. -/
theorem extractLsb'_ck4Of_headerChecksum (s : List Byte) {k : Nat} (hk : k < 4) :
    (ck4Of (headerChecksum s)).extractLsb' (8 * (3 - k)) 8 = laneXor s k := by
  have hbe : be 4 (ck4Of (headerChecksum s)) = headerChecksum s := by
    have h := be_ofNat_fromBe (w := 32) (headerChecksum s) (by rw [length_headerChecksum])
    rwa [length_headerChecksum] at h
  calc (ck4Of (headerChecksum s)).extractLsb' (8 * (3 - k)) 8
    _ = lane (be 4 (ck4Of (headerChecksum s))) k := by
      simp [lane, be, List.getD_eq_getElem?_getD, hk]
    _ = laneXor s k := by rw [hbe, lane_headerChecksum s hk]

/-! The commands (R118, R120). -/

/-- HCK with LEN in range: the prologue, and CK4 from the input's lanes. -/
theorem exec_hck_of_fits {s : State} (h : s.len.toNat ≤ bufBytes s.cfg) :
    exec .hck s = .next { prologue s with
      ck4 := ck4Of (headerChecksum (ibufPrefix s s.len.toNat))
      hidden := { s.hidden with lanes := headerChecksum (ibufPrefix s s.len.toNat) } } :=
  congrArg Host.Outcome.next (withInput_of_fits (s := prologue s) _ h)

/-- CRC with LEN in range: the prologue, and the register CRC from the input. -/
theorem exec_crc_of_fits {s : State} (h : s.len.toNat ≤ bufBytes s.cfg) :
    exec .crc s = .next { prologue s with
      crc := payloadChecksum (ibufPrefix s s.len.toNat)
      hidden := { s.hidden with crcReg := crcRegister (ibufPrefix s s.len.toNat) } } :=
  congrArg Host.Outcome.next (withInput_of_fits (s := prologue s) _ h)

/-- Settles O24: CK4 holds the lanes, or the command ends in the shared error. -/
theorem hckResult : Obligations.HckResult := by
  unfold Obligations.HckResult
  intro s
  have hck4 (k : Nat) (hk : k < 4) := extractLsb'_ck4Of_headerChecksum (ibufPrefix s s.len.toNat) hk
  exact ⟨fun hfits => ⟨_, exec_hck_of_fits hfits, hck4 0 (by decide), hck4 1 (by decide), hck4 2 (by decide),
      hck4 3 (by decide), statusIs_prologue s, rfl⟩,
    fun hexceeds => ⟨_, rfl, raised_withInput _ hexceeds⟩⟩

/-- Settles O25: the register CRC holds the checksum, or the command ends in the shared error. -/
theorem crcResult : Obligations.CrcResult := by
  unfold Obligations.CrcResult
  exact fun s => ⟨fun hfits => ⟨_, exec_crc_of_fits hfits, rfl, statusIs_prologue s, rfl⟩,
    fun hexceeds => ⟨_, rfl, raised_withInput _ hexceeds⟩⟩

end Sys2Proof.Machine
end

section
/-! PROOFS. Encoding, one command at a time (spec/41_encode.md R130 to R145): the mapper's closed form, then ENCF,
ENCB and ENCN, each as an equation per case and then with what it leaves. -/

namespace Sys2Proof.Machine

/-! The mapper (R134) and what is accepted (R136). -/

/-- Settles O27: from the bounds of a valid geometry. -/
theorem acceptedFramesFit : Obligations.AcceptedFramesFit := by
  unfold Obligations.AcceptedFramesFit
  intro c w h n hg hn
  obtain ⟨-, hcap, hpos, hbuf, hpixels⟩ := geomValid_bounds hg
  refine ⟨?_, hpixels, ?_, hbuf, ?_, hpos⟩ <;> omega

/-- A pixel of the mapper's raster is the bit of that number, or white after the last bit. -/
theorem getD_mapBits (fb : List Byte) {w h p : Nat} (hp : p < w * h) :
    (mapBits fb w h).getD p 0#1 = if p < 8 * fb.length then bitAt fb p else 0#1 := by
  have hwhite : (List.replicate (w * h) 0#1).getD p 0#1 = 0#1 := List.getD_replicate _ hp
  rw [mapBits, getD_paintBits 0 (bitStream fb) _ List.length_replicate hp, hwhite]
  simp only [Nat.zero_le, Nat.sub_zero, true_and, length_bitStream]
  by_cases hlt : p < 8 * fb.length
  · rw [bitStream_getD fb hlt, if_pos hlt]
    rcases bit_cases (bitAt fb p) with hb | hb <;> simp [hb, hlt]
  · rw [if_neg hlt, if_neg fun h => hlt h.1]

/-- Settles O28: pixel by pixel. -/
theorem mapBitsClosedForm : Obligations.MapBitsClosedForm := by
  unfold Obligations.MapBitsClosedForm
  exact fun fb w h => ⟨length_mapBits fb w h, fun p hp => getD_mapBits fb hp⟩

/-! ENCF (R138). -/

/-- ENCF at a valid geometry: the length check (R204) after the prologue. -/
theorem exec_encf_of_valid {s : State} (hg : geomValid s.cfg s.width.toNat s.height.toNat = true) :
    exec .encf s = .next (if s.len.toNat ≤ maxPayload s.width.toNat s.height.toNat then
        paintFrame (prologue s) (ibufPrefix s s.len.toNat) s.seq s.total s.width.toNat s.height.toNat
      else raise .lengthOutOfRange s.len.toNat (maxPayload s.width.toNat s.height.toNat) (prologue s)) :=
  congrArg Host.Outcome.next (withGeometry_of_valid (s := prologue s) _ hg)

/-- ENCF on operands it accepts: the prologue, and the frame in ERAST. -/
theorem exec_encf_of_fits {s : State} (hg : geomValid s.cfg s.width.toNat s.height.toNat = true)
    (hlen : s.len.toNat ≤ maxPayload s.width.toNat s.height.toNat) :
    exec .encf s = .next (paintFrame (prologue s) (ibufPrefix s s.len.toNat) s.seq s.total
      s.width.toNat s.height.toNat) := by rw [exec_encf_of_valid hg, if_pos hlen]

/-- The cells of a painted raster. -/
theorem readErast_paintFrame_inside (s : State) (payload : List Byte) (q : Word) (total : DWord) {w h p : Nat}
    (hp : p < w * h) : readErast (paintFrame s payload q total w h) p =
      if p < 8 * (32 + payload.length) then bitAt (frameBytes s.cfg.magic.toList payload q total) p else 0#1 := by
  rw [readErast_paintFrame, if_pos hp]

/-- The cells outside a painted raster (R132). -/
theorem readErast_paintFrame_outside (s : State) (payload : List Byte) (q : Word) (total : DWord) {w h p : Nat}
    (hp : w * h ≤ p) : readErast (paintFrame s payload q total w h) p = readErast s p := by
  rw [readErast_paintFrame, if_neg (Nat.not_lt.mpr hp)]

/-- Settles O29: ENCF is the prologue and the painted frame. -/
theorem encfPaintsFrame : Obligations.EncfPaintsFrame := by
  unfold Obligations.EncfPaintsFrame
  intro s hg hlen
  refine ⟨_, exec_encf_of_fits hg hlen, fun p hp => ?_, fun p hp => ?_, statusIs_prologue s, rfl⟩
  · rw [readErast_paintFrame_inside _ _ _ _ hp, length_ibufPrefix]
    rfl
  · exact readErast_paintFrame_outside _ _ _ _ hp

/-- The capacity of 16-bit dimensions bounds their payload. -/
theorem maxPayload_lt (w h : BitVec 16) : maxPayload w.toNat h.toNat < 2 ^ 29 :=
  (Nat.sub_le _ _).trans_lt (capBytes_lt w h)

/-- Settles O30: the length check raises its error after the prologue. -/
theorem encfRefusesLongPayload : Obligations.EncfRefusesLongPayload := by
  unfold Obligations.EncfRefusesLongPayload
  intro s hg hlen
  have hfit : s.len.toNat < 2 ^ 64 := s.len.isLt.trans (by decide)
  refine ⟨_, exec_encf_of_valid hg, ?_⟩
  rw [if_neg (Nat.not_le.mpr hlen)]
  exact raised_raise .lengthOutOfRange hfit (hlen.trans hfit) s

/-! ENCB (R141, R142). -/

/-- A job with `remain` bytes to go: the flags JOB and LAST that ENCB and ENCN set (R142, R145). -/
def jobFlags (remain : DWord) (w : Word) : Word :=
  setLast (decide (remain = 0#64)) (setJob (decide (remain ≠ 0#64)) w)

/-- JOB is set while bytes remain, LAST when none do; no other field changes. -/
theorem statusIs_jobFlags {v w : Word} {e : ErrCode} {short dvalid job last : Bool}
    (h : StatusIs v w e short dvalid job last) (remain : DWord) :
    StatusIs (jobFlags remain v) w e short dvalid (decide (0 < remain.toNat)) (decide (remain.toNat = 0)) := by
  have hzero : (remain = 0#64) = (remain.toNat = 0) := propext (BitVec.toNat_eq (y := 0#64))
  have hpos : (remain ≠ 0#64) = (0 < remain.toNat) := by rw [ne_eq, hzero, Nat.pos_iff_ne_zero]
  simpa only [jobFlags, hpos, hzero] using
    (h.after_setJob (decide (remain ≠ 0#64))).after_setLast (decide (remain = 0#64))

/-- What ENCB leaves of a job it accepts (R142). -/
def jobBegun (s : State) : State :=
  { prologue s with
    jWidth := s.width, jHeight := s.height, jTotal := s.total, jRemain := s.total, jSeq := 0#32
    status := jobFlags s.total (prologue s).status }

/-- ENCB at a valid geometry: the check of the number of frames (R141) after the prologue. -/
theorem exec_encb_of_valid {s : State} (hg : geomValid s.cfg s.width.toNat s.height.toNat = true) :
    exec .encb s = .next (
      if jobFrames s.total.toNat (maxPayload s.width.toNat s.height.toNat) ≤ 2 ^ 32 then jobBegun s
      else raise .sequenceOverflow s.total.toNat (maxPayload s.width.toNat s.height.toNat * 2 ^ 32)
        (prologue s)) :=
  congrArg Host.Outcome.next (withGeometry_of_valid (s := prologue s) _ hg)

/-- ENCB on a job it accepts. -/
theorem exec_encb_of_fits {s : State} (hg : geomValid s.cfg s.width.toNat s.height.toNat = true)
    (hframes : jobFrames s.total.toNat (maxPayload s.width.toNat s.height.toNat) ≤ 2 ^ 32) :
    exec .encb s = .next (jobBegun s) := by rw [exec_encb_of_valid hg, if_pos hframes]

/-- The status of a job begun: active exactly when there are bytes to encode. -/
theorem statusIs_jobBegun (s : State) :
    StatusIs (jobBegun s).status s.status .ok false (statusDvalid s.status) (decide (0 < s.total.toNat))
      (decide (s.total.toNat = 0)) :=
  statusIs_jobFlags (statusIs_prologue s) s.total

/-- J_NEXT reads the length of the next chunk while a job with bytes left is active, and 0 else (R37). -/
theorem jnextValue_eq {s : State} (hjob : statusJob s.status = decide (0 < s.jRemain.toNat)) :
    jnextValue s = nextChunkLen s := by
  unfold jnextValue nextChunkLen
  rw [hjob]
  split
  next => rfl
  next h => rw [decide_eq_true_iff] at h; omega

/-- Settles O32: ENCB latches its operands, and J_NEXT follows from them. -/
theorem encbBeginsJob : Obligations.EncbBeginsJob := by
  unfold Obligations.EncbBeginsJob
  intro s hg hframes
  refine ⟨_, exec_encb_of_fits hg hframes, statusIs_jobBegun s, ?_, rfl⟩
  calc (readRegister .jNext (jobBegun s)).toNat
    _ = jnextValue (jobBegun s) := Nat.mod_eq_of_lt (jnextValue_lt _)
    _ = nextChunkLen (jobBegun s) := jnextValue_eq (statusIs_jobBegun s).job

/-- Settles O33: the check of the number of frames raises its error after the prologue. -/
theorem encbRefusesOverflow : Obligations.EncbRefusesOverflow := by
  unfold Obligations.EncbRefusesOverflow
  intro s hg hframes
  have hm := maxPayload_lt s.width s.height
  have hover : ¬ jobFrames s.total.toNat (maxPayload s.width.toNat s.height.toNat) ≤ 2 ^ 32 :=
    Nat.not_le.mpr hframes
  refine ⟨_, exec_encb_of_valid hg, ?_⟩
  rw [if_neg hover]
  exact raised_raise .sequenceOverflow s.total.isLt (by omega) s

/-! ENCN (R144, R145). -/

/-- What ENCN leaves of an active job (R145). -/
def jobAdvanced (s : State) : State :=
  { paintFrame (prologue s) (ibufPrefix s (nextChunkLen s)) s.jSeq s.jTotal s.jWidth.toNat s.jHeight.toNat with
    jSeq := s.jSeq + 1#32
    jRemain := s.jRemain - BitVec.ofNat 64 (nextChunkLen s)
    status := jobFlags (s.jRemain - BitVec.ofNat 64 (nextChunkLen s)) (prologue s).status }

/-- ENCN: the check for an active job (R144) after the prologue. -/
theorem exec_encn (s : State) :
    exec .encn s = .next (if statusJob s.status = true then jobAdvanced s
      else raise .noActiveJob 0 0 (prologue s)) := by
  have hjob : statusJob s.status = statusJob (prologue s).status := (statusIs_prologue s).job.symm
  rw [hjob]
  rfl

/-- ENCN with an active job. -/
theorem exec_encn_of_job {s : State} (hjob : statusJob s.status = true) :
    exec .encn s = .next (jobAdvanced s) := by rw [exec_encn, if_pos hjob]

/-- ENCN without an active job. -/
theorem exec_encn_of_no_job {s : State} (hjob : statusJob s.status = false) :
    exec .encn s = .next (raise .noActiveJob 0 0 (prologue s)) := by
  rw [exec_encn, if_neg (Bool.eq_false_iff.mp hjob)]

/-- The next chunk is no longer than what remains, so nothing is borrowed. -/
theorem jRemain_jobAdvanced (s : State) :
    (jobAdvanced s).jRemain.toNat = s.jRemain.toNat - nextChunkLen s := by
  have hle : nextChunkLen s ≤ s.jRemain.toNat := Nat.min_le_right _ _
  have hn : (BitVec.ofNat 64 (nextChunkLen s)).toNat = nextChunkLen s :=
    (BitVec.toNat_ofNat ..).trans (Nat.mod_eq_of_lt (hle.trans_lt s.jRemain.isLt))
  calc (s.jRemain - BitVec.ofNat 64 (nextChunkLen s)).toNat
    _ = s.jRemain.toNat - (BitVec.ofNat 64 (nextChunkLen s)).toNat :=
      BitVec.toNat_sub_of_le (by rw [BitVec.le_def, hn]; exact hle)
    _ = _ := by rw [hn]

/-- The status of a job one chunk further. -/
theorem statusIs_jobAdvanced (s : State) :
    StatusIs (jobAdvanced s).status s.status .ok false (statusDvalid s.status)
      (decide (0 < s.jRemain.toNat - nextChunkLen s)) (decide (s.jRemain.toNat - nextChunkLen s = 0)) := by
  rw [← jRemain_jobAdvanced]
  exact statusIs_jobFlags (statusIs_prologue s) _

/-- Settles O34: ENCN is the prologue, the painted frame of the next chunk, and the job one chunk further. -/
theorem encnEncodesNextChunk : Obligations.EncnEncodesNextChunk := by
  unfold Obligations.EncnEncodesNextChunk
  rintro s n hjob - rfl
  refine ⟨_, exec_encn_of_job hjob, fun p hp => ?_, fun p hp => ?_, BitVec.toNat_add .., jRemain_jobAdvanced s,
    statusIs_jobAdvanced s, rfl⟩
  · refine (readErast_paintFrame_inside (prologue s) (ibufPrefix s (nextChunkLen s)) _ _ hp).trans ?_
    rw [length_ibufPrefix]
    rfl
  · exact readErast_paintFrame_outside (prologue s) _ _ _ hp

/-- Settles O35: the check for an active job raises its error after the prologue. -/
theorem encnNeedsActiveJob : Obligations.EncnNeedsActiveJob := by
  unfold Obligations.EncnNeedsActiveJob
  exact fun s hjob => ⟨_, exec_encn_of_no_job hjob, raised_raise .noActiveJob (by decide) (by decide) s⟩

/-- Settles O36: neither answer of ENCN looks at WIDTH, HEIGHT, TOTAL, LEN or SEQ. -/
theorem encnReadsTheLatch : Obligations.EncnReadsTheLatch := by
  unfold Obligations.EncnReadsTheLatch
  intro s w h total len seq
  cases hjob : statusJob s.status with
  | true => exact ⟨_, exec_encn_of_job hjob, exec_encn_of_job hjob⟩
  | false => exact ⟨_, exec_encn_of_no_job hjob, exec_encn_of_no_job hjob⟩

end Sys2Proof.Machine
end

section
/-! PROOFS. Encoding, the jobs of the host (spec/41_encode.md R140, R146, spec/45_host_job_contract.md R218, R219): the
chunks of an input, the raster as the host reads it out, one frame of a job, and the loop over the frames. -/

namespace Sys2Proof.Machine

/-! The chunks of an input (R140). -/

/-- `k` frames of `m` bytes are enough for `t` bytes exactly when they hold them. -/
theorem jobFrames_le_iff {m : Nat} (hm : 0 < m) (t k : Nat) : jobFrames t m ≤ k ↔ t ≤ k * m := by
  unfold jobFrames
  rw [← Nat.ceilDiv_eq_add_pred_div, ceilDiv_le_iff_le_mul hm, Nat.mul_comm]

/-- Frame `k` is in the job exactly when bytes remain before it. -/
theorem lt_jobFrames_iff {m : Nat} (hm : 0 < m) (t k : Nat) : k < jobFrames t m ↔ k * m < t := by
  rw [← Nat.not_le, jobFrames_le_iff hm, Nat.not_le]

theorem length_jobChunk (data : List Byte) (m k : Nat) :
    (jobChunk data m k).length = min m (data.length - k * m) := length_slice data (k * m) m

theorem length_jobChunk_le (data : List Byte) (m k : Nat) : (jobChunk data m k).length ≤ m :=
  (length_jobChunk data m k).trans_le (Nat.min_le_left _ _)

/-- The first `n` chunks are the first `n * m` bytes. -/
theorem flatMap_jobChunk (data : List Byte) (m n : Nat) :
    (List.range n).flatMap (jobChunk data m) = data.take (n * m) := by
  induction n with
  | zero => simp
  | succ n ih =>
    rw [List.range_succ, List.flatMap_append, ih, List.flatMap_singleton, Nat.succ_mul, List.take_add]
    rfl

/-- Settles O37: the chunks are consecutive pieces of `m` bytes, as many as it takes. -/
theorem chunksReproduceInput : Obligations.ChunksReproduceInput := by
  unfold Obligations.ChunksReproduceInput
  intro data m hm
  refine ⟨?_, fun k hk => ?_⟩
  · rw [flatMap_jobChunk, List.take_of_length_le ((jobFrames_le_iff hm _ _).mp (Nat.le_refl _))]
  · have hbytes := (lt_jobFrames_iff hm _ _).mp hk
    refine ⟨?_, length_jobChunk_le data m k⟩
    rw [length_jobChunk]
    omega

/-! The raster and the buffer as the host moves them (R61, R218). -/

/-- The raster of a painted frame, read out, is the encoded frame. -/
theorem erastPrefix_paintFrame (s : State) (payload : List Byte) (q : Word) (total : DWord) (w h : Nat) :
    erastPrefix (paintFrame s payload q total w h) (w * h) =
      encodeFrame s.cfg.magic.toList payload q total w h := by
  have hread := prefix_writePrefix (Config.freeErast s.draw) s.erast
    (encodeFrame s.cfg.magic.toList payload q total w h)
  rwa [show (encodeFrame s.cfg.magic.toList payload q total w h).length = w * h from length_mapBits _ w h]
    at hread

/-- Loading IBUF from cell 0 on: the bytes stand in IBUF, and nothing else of the block changes. -/
theorem runAccesses_ibuf_prefix {bytes : List Byte} {s : State} (hb : statusBusy s.status = false)
    (hfit : bytes.length ≤ bufBytes s.cfg) :
    ∃ t, runAccesses (writeCells .ibuf 0 bytes) s = (t, none) ∧
      t = { s with ibuf := t.ibuf, script := t.script } ∧ ibufPrefix t bytes.length = bytes := by
  obtain ⟨t, hrun, hframe, hread⟩ := runAccesses_ibuf bytes 0 s hb (by rwa [Nat.zero_add])
  refine ⟨t, hrun, hframe, ext_getD (length_ibufPrefix _ _) fun i hi => ?_⟩
  rw [length_ibufPrefix] at hi
  have hcell : (ibufPrefix t bytes.length).getD i 0#8 = readIbuf t i := by
    simp [ibufPrefix, List.getD_eq_getElem?_getD, hi]
  rw [hcell, hread, Nat.zero_add, Nat.sub_zero, if_pos ⟨Nat.zero_le i, hi⟩]

end Sys2Proof.Machine
end

section
/-! PROOFS. Encoding, the encode job of the host (spec/41_encode.md R146, spec/45_host_job_contract.md R218): where the
block stands before each frame, the beginning of a job, one frame of it, and the loop over the frames. -/

namespace Sys2Proof.Machine

/-- Frame `k` of the job on `data` (R140): its number and its raster. -/
def jobFrame (magic data : List Byte) (w h k : Nat) : EncodedFrame :=
  ⟨BitVec.ofNat 32 k, encodeFrame magic (jobChunk data (maxPayload w h) k) (BitVec.ofNat 32 k)
    (BitVec.ofNat 64 data.length) w h⟩

/-- The block of parameters `c`, idle, before frame `k` of the job on `data`: the `k` chunks before it are done
(R142, R145). -/
structure JobAt (c : Config.Params) (data : List Byte) (w h : BitVec 16) (k : Nat) (s : State) : Prop where
  idle : statusBusy s.status = false
  cfg : s.cfg = c
  width : s.jWidth = w
  height : s.jHeight = h
  total : s.jTotal = BitVec.ofNat 64 data.length
  seq : s.jSeq = BitVec.ofNat 32 k
  remain : s.jRemain.toNat = data.length - k * maxPayload w.toNat h.toNat
  job : statusJob s.status = decide (0 < s.jRemain.toNat)
  last : statusLast s.status = decide (s.jRemain.toNat = 0)

/-- The accesses that begin a job end in ENCB on the operands they wrote. -/
theorem runAccesses_begin {s t : State} {total : DWord} {w h : BitVec 16} (hb : statusBusy s.status = false)
    (ht : exec .encb { s with width := w, height := h, total := total, script := [] } = .next t) :
    runAccesses (geom w h ++ [wr .total total, cmd .encb]) s = (t, none) := by
  have hwr := runAccesses_wr (r := .total) total (s := { s with width := w, height := h, script := [] })
    [cmd .encb] hb (by decide) total.isLt
  have hkeep : total.setWidth 64 = total := BitVec.setWidth_eq total
  rw [runAccesses_geom w h _ hb, hwr, hkeep]
  exact runAccesses_cmd hb ht

section
variable {c : Config.Params} {data : List Byte} {w h : BitVec 16}

/-- A job of at most 2^32 frames at a valid geometry has a length that TOTAL holds. -/
theorem length_lt_of_jobFrames_le (hg : geomValid c w.toNat h.toNat = true)
    (hframes : jobFrames data.length (maxPayload w.toNat h.toNat) ≤ 2 ^ 32) : data.length < 2 ^ 64 := by
  obtain ⟨-, -, hm, -, -⟩ := geomValid_bounds hg
  have hle := le_of_jobFrames_le hm hframes
  have hlt := maxPayload_lt w h
  omega

/-- A number that fits a 64-bit register is read back from it. -/
theorem toNat_ofNat_64 {n : Nat} (hn : n < 2 ^ 64) : (BitVec.ofNat 64 n).toNat = n :=
  (BitVec.toNat_ofNat n 64).trans (Nat.mod_eq_of_lt hn)

/-- A job that ENCB accepts begins before frame 0. -/
theorem issue_begin {s : State} (hb : statusBusy s.status = false)
    (hg : geomValid s.cfg w.toNat h.toNat = true)
    (hframes : jobFrames data.length (maxPayload w.toNat h.toNat) ≤ 2 ^ 32) :
    ∃ t, issue (geom w h ++ [wr .total (BitVec.ofNat 64 data.length), cmd .encb]) s = (t, none) ∧
      JobAt s.cfg data w h 0 t := by
  have hlen := toNat_ofNat_64 (length_lt_of_jobFrames_le hg hframes)
  have hst := statusIs_jobBegun
    { s with width := w, height := h, total := BitVec.ofNat 64 data.length, script := [] }
  refine ⟨_, issue_of_ok (runAccesses_begin hb (exec_encb_of_fits hg ?_)) hst.err, hst.busy.trans hb, rfl, rfl, rfl,
    rfl, rfl, ?_, hst.job, hst.last⟩
  · rwa [hlen]
  · rw [Nat.zero_mul, Nat.sub_zero]
    exact hlen

namespace JobAt
variable {k : Nat} {s : State} (hs : JobAt c data w h k s)
include hs

/-- The block reads neither IBUF nor the host's script to know where it stands. -/
theorem of_loaded {t : State} (ht : t = { s with ibuf := t.ibuf, script := t.script }) :
    JobAt c data w h k { t with script := [] } := by
  rw [ht]
  exact { hs with }

/-- The next chunk is that of R140. -/
theorem nextChunkLen_eq : nextChunkLen s = (jobChunk data (maxPayload w.toNat h.toNat) k).length := by
  rw [nextChunkLen, hs.width, hs.height, hs.remain, length_jobChunk]

/-- The host cuts the chunk of R140 off the bytes that are left. -/
theorem take_jnextValue : (data.drop (k * maxPayload w.toNat h.toNat)).take (jnextValue s) =
    jobChunk data (maxPayload w.toNat h.toNat) k := by
  rw [jnextValue_eq hs.job, hs.nextChunkLen_eq, length_jobChunk, ← List.length_drop, ← List.take_eq_take_min]
  rfl

/-- What the host has left after it is what comes after the chunk. -/
theorem drop_jnextValue : (data.drop (k * maxPayload w.toNat h.toNat)).drop (jnextValue s) =
    data.drop ((k + 1) * maxPayload w.toNat h.toNat) := by
  rw [jnextValue_eq hs.job, hs.nextChunkLen_eq, length_jobChunk, ← List.length_drop, Nat.succ_mul,
    ← List.drop_drop, List.drop_eq_drop_iff, Nat.min_assoc, Nat.min_self]

/-- The job is active exactly while frames are left (R146). -/
theorem job_iff (hm : 0 < maxPayload w.toNat h.toNat) :
    statusJob s.status = true ↔ k < jobFrames data.length (maxPayload w.toNat h.toNat) := by
  rw [hs.job, decide_eq_true_iff, hs.remain, lt_jobFrames_iff hm, Nat.sub_pos_iff_lt]

/-- The block one frame further (R145). -/
theorem advance : JobAt c data w h (k + 1) (jobAdvanced s) := by
  have hst := statusIs_jobAdvanced s
  have hremain := jRemain_jobAdvanced s
  rw [← hremain] at hst
  refine ⟨hst.busy.trans hs.idle, hs.cfg, hs.width, hs.height, hs.total, ?_, ?_, hst.job, hst.last⟩
  · show s.jSeq + 1#32 = _
    rw [hs.seq, BitVec.ofNat_add]
  · rw [hremain, nextChunkLen, hs.width, hs.height, hs.remain, Nat.succ_mul]
    omega

/-- The raster that ENCN leaves when IBUF holds the chunk. -/
theorem erastPrefix_jobAdvanced
    (hbytes : ibufPrefix s (nextChunkLen s) = jobChunk data (maxPayload w.toNat h.toNat) k) :
    erastPrefix (jobAdvanced s) (w.toNat * h.toNat) = (jobFrame c.magic.toList data w.toNat h.toNat k).ink := by
  have hpaint : erastPrefix (jobAdvanced s) (s.jWidth.toNat * s.jHeight.toNat) = encodeFrame s.cfg.magic.toList
      (ibufPrefix s (nextChunkLen s)) s.jSeq s.jTotal s.jWidth.toNat s.jHeight.toNat :=
    erastPrefix_paintFrame (prologue s) _ _ _ _ _
  rwa [hbytes, hs.width, hs.height, hs.cfg, hs.seq, hs.total] at hpaint

/-- The accesses that encode one frame (R218): the block goes one frame further, and shows frame `k`. -/
theorem runAccesses_frame (hg : geomValid c w.toNat h.toNat = true)
    (hk : k < jobFrames data.length (maxPayload w.toNat h.toNat)) :
    ∃ t, runAccesses (writeCells .ibuf 0 (jobChunk data (maxPayload w.toNat h.toNat) k) ++ [cmd .encn]) s =
        (t, none) ∧
      JobAt c data w h (k + 1) t ∧ statusErr t.status = 0#4 ∧
      erastPrefix t (w.toNat * h.toNat) = (jobFrame c.magic.toList data w.toNat h.toNat k).ink := by
  obtain ⟨-, hcap, hm, hbuf, -⟩ := geomValid_bounds hg
  have hle := length_jobChunk_le data (maxPayload w.toNat h.toNat) k
  have hfit : (jobChunk data (maxPayload w.toNat h.toNat) k).length ≤ bufBytes s.cfg := by
    rw [hs.cfg]
    omega
  obtain ⟨u, hload, hframe, hbytes⟩ := runAccesses_ibuf_prefix hs.idle hfit
  have hu := hs.of_loaded hframe
  have hub : ibufPrefix { u with script := [] } (nextChunkLen { u with script := [] }) =
      jobChunk data (maxPayload w.toNat h.toNat) k := by
    rw [hu.nextChunkLen_eq]
    exact hbytes
  exact ⟨_, (runAccesses_append hload _).trans
      (runAccesses_cmd hu.idle (exec_encn_of_job ((hu.job_iff hm).mpr hk))),
    hu.advance, (statusIs_jobAdvanced _).err, hu.erastPrefix_jobAdvanced hub⟩

/-- One frame of a job whose bytes can be read (R218): frame `k` under its number, if its raster can be written. -/
theorem encodeOne_frame (hg : geomValid c w.toNat h.toNat = true)
    (hk : k < jobFrames data.length (maxPayload w.toNat h.toNat)) :
    ∃ t, JobAt c data w h (k + 1) t ∧ ∀ io : Collaborators, io.readable (BitVec.ofNat 32 k) = true →
      encodeOne io s.jSeq
          (writeCells .ibuf 0 ((data.drop (k * maxPayload w.toNat h.toNat)).take (jnextValue s)) ++ [cmd .encn])
          (w.toNat * h.toNat) (fun t => t.jSeq - 1#32) s =
        if io.writable (BitVec.ofNat 32 k) then (.ok (jobFrame c.magic.toList data w.toNat h.toNat k), t)
        else (.error .rasterError, abandon t) := by
  obtain ⟨t, hrun, ht, hok, hink⟩ := hs.runAccesses_frame hg hk
  have hnumber : t.jSeq - 1#32 = BitVec.ofNat 32 k := by
    rw [ht.seq, BitVec.ofNat_add, BitVec.add_sub_cancel]
  refine ⟨t, ht, fun io hio => ?_⟩
  rw [hs.take_jnextValue, hs.seq, encodeOne_of_ok _ _ hio hrun hok, hnumber, hink]
  rfl

end JobAt

/-- The loop over the frames that are left, when the bytes of each can be read and its raster written (R218). -/
theorem encodeLoop_of_ok (hg : geomValid c w.toNat h.toNat = true) {io : Collaborators}
    (hio : ∀ i, i < jobFrames data.length (maxPayload w.toNat h.toNat) →
      io.readable (BitVec.ofNat 32 i) = true ∧ io.writable (BitVec.ofNat 32 i) = true)
    (n fuel k : Nat) (hfuel : n ≤ fuel) (hk : k + n = jobFrames data.length (maxPayload w.toNat h.toNat))
    {s : State} (hs : JobAt c data w h k s) :
    ∃ u, encodeLoop fuel io (data.drop (k * maxPayload w.toNat h.toNat)) w h s =
        (.ok ((List.range' k n).map (jobFrame c.magic.toList data w.toNat h.toNat)), u) ∧
      JobAt c data w h (jobFrames data.length (maxPayload w.toNat h.toNat)) u := by
  obtain ⟨-, -, hm, -, -⟩ := geomValid_bounds hg
  induction n generalizing fuel k s with
  | zero =>
    have hover : ¬ statusJob s.status = true := fun hj => by
      have := (hs.job_iff hm).mp hj
      omega
    refine ⟨s, ?_, by rwa [← hk]⟩
    cases fuel with
    | zero => rfl
    | succ fuel => rw [encodeLoop, if_neg hover]; rfl
  | succ n ih =>
    obtain ⟨fuel, rfl⟩ : ∃ f, fuel = f + 1 := ⟨fuel - 1, by omega⟩
    have hlt : k < jobFrames data.length (maxPayload w.toNat h.toNat) := by omega
    obtain ⟨hread, hwrite⟩ := hio k hlt
    obtain ⟨t, ht, hone⟩ := hs.encodeOne_frame hg hlt
    obtain ⟨u, hloop, hu⟩ := ih fuel (k + 1) (by omega) (by omega) ht
    refine ⟨u, ?_, hu⟩
    rw [encodeLoop, if_pos ((hs.job_iff hm).mpr hlt)]
    simp only [hone io hread, hwrite, if_true, hs.drop_jnextValue, hloop, List.range'_succ, List.map_cons]

/-- An encode job at a valid geometry, of frames that fit the sequence counter, when the input is there, the bytes
of each frame can be read and its raster written (R146, R218). -/
theorem encodeJob_of_ok {s : State} (hb : statusBusy s.status = false)
    (hg : geomValid s.cfg w.toNat h.toNat = true)
    (hframes : jobFrames data.length (maxPayload w.toNat h.toNat) ≤ 2 ^ 32) {io : Collaborators}
    (hfound : io.inputFound = true)
    (hio : ∀ i, i < jobFrames data.length (maxPayload w.toNat h.toNat) →
      io.readable (BitVec.ofNat 32 i) = true ∧ io.writable (BitVec.ofNat 32 i) = true) :
    ∃ u, encodeJob io data w h s = (.ok ((List.range (jobFrames data.length (maxPayload w.toNat h.toNat))).map
        (jobFrame s.cfg.magic.toList data w.toNat h.toNat)), u) ∧
      JobAt s.cfg data w h (jobFrames data.length (maxPayload w.toNat h.toNat)) u := by
  obtain ⟨-, -, hm, -, -⟩ := geomValid_bounds hg
  have hfuel : jobFrames data.length (maxPayload w.toNat h.toNat) ≤ data.length :=
    (jobFrames_le_iff hm _ _).mpr (Nat.le_mul_of_pos_right _ hm)
  obtain ⟨t, hbegin, ht⟩ := issue_begin hb hg hframes
  obtain ⟨u, hloop, hu⟩ := encodeLoop_of_ok hg hio _ data.length 0 hfuel (Nat.zero_add _) ht
  refine ⟨u, ?_, hu⟩
  rw [Nat.zero_mul, List.drop_zero, ← List.range_eq_range'] at hloop
  simp only [encodeJob, hfound, if_true, length_lt_of_jobFrames_le hg hframes, hbegin, hloop]

end

/-- Settles O38: by the loop over all frames, from where ENCB leaves the block. -/
theorem jobLaw : Obligations.JobLaw := by
  unfold Obligations.JobLaw
  intro s data w h hb hg hframes
  obtain ⟨-, -, hm, -, -⟩ := geomValid_bounds hg
  obtain ⟨u, hrun, hu⟩ := encodeJob_of_ok hb hg hframes (io := .reliable) rfl fun _ _ => ⟨rfl, rfl⟩
  have hdone : data.length ≤ jobFrames data.length (maxPayload w.toNat h.toNat) * maxPayload w.toNat h.toNat :=
    (jobFrames_le_iff hm _ _).mp (Nat.le_refl _)
  have hremain : u.jRemain.toNat = 0 := hu.remain.trans (Nat.sub_eq_zero_of_le hdone)
  have hjob : statusJob u.status = false := by rw [hu.job, hremain]; rfl
  have hlast : statusLast u.status = true := by rw [hu.last, hremain]; rfl
  exact ⟨u, hrun, hjob, hlast, _, exec_encn_of_no_job hjob, statusErr_setErr .noActiveJob _⟩

end Sys2Proof.Machine
end

section
/-! PROOFS. Encoding, the frames without the job commands (spec/45_host_job_contract.md R219): ENCF on one chunk. -/

namespace Sys2Proof.Machine

/-- A 32-bit value survives the passage through a host access (R21). -/
theorem setWidth_setWidth_word (v : Word) : (v.setWidth 64).setWidth 32 = v := by
  rw [BitVec.setWidth_setWidth_of_le _ (by decide), BitVec.setWidth_eq]

/-- The accesses that write LEN, SEQ and TOTAL. -/
theorem runAccesses_operands (len q : Word) (total : DWord) {s : State} (rest : List Access)
    (hb : statusBusy s.status = false) :
    runAccesses (wr .len len :: wr .seq q :: wr .total total :: rest) s =
      runAccesses rest { s with len := len, seq := q, total := total, script := [] } := by
  calc runAccesses (wr .len len :: wr .seq q :: wr .total total :: rest) s
    _ = runAccesses (wr .seq q :: wr .total total :: rest) { s with len := len, script := [] } := by
      rw [runAccesses_wr (r := .len) len _ hb (by decide) len.isLt, writeRegister, setWidth_setWidth_word]
    _ = runAccesses (wr .total total :: rest) { s with len := len, seq := q, script := [] } := by
      rw [runAccesses_wr (r := .seq) (s := { s with len := len, script := [] }) q _ hb (by decide) q.isLt,
        writeRegister, setWidth_setWidth_word]
    _ = runAccesses rest { s with len := len, seq := q, total := total, script := [] } := by
      rw [runAccesses_wr (r := .total) (s := { s with len := len, seq := q, script := [] }) total _ hb (by decide)
        total.isLt, writeRegister, BitVec.setWidth_eq]

/-- The block of parameters `c`, idle, with the operands of ENCF for frame `k` of `data` (R219). -/
structure DirectAt (c : Config.Params) (data : List Byte) (w h : BitVec 16) (k : Nat) (s : State) : Prop where
  idle : statusBusy s.status = false
  cfg : s.cfg = c
  width : s.width = w
  height : s.height = h
  len : s.len.toNat = (jobChunk data (maxPayload w.toNat h.toNat) k).length
  seq : s.seq = BitVec.ofNat 32 k
  total : s.total = BitVec.ofNat 64 data.length
  bytes : ibufPrefix s s.len.toNat = jobChunk data (maxPayload w.toNat h.toNat) k

section
variable {c : Config.Params} {data : List Byte} {w h : BitVec 16} {k : Nat} {s : State}

/-- The writes that bring the block to ENCF (R219). -/
theorem runAccesses_directAt (k : Nat) (hb : statusBusy s.status = false)
    (hg : geomValid s.cfg w.toNat h.toNat = true) :
    ∃ t, DirectAt s.cfg data w h k t ∧ ∀ i : Instr,
      runAccesses (geom w h ++ load (jobChunk data (maxPayload w.toNat h.toNat) k)
          ++ [wr .seq (BitVec.ofNat 32 k), wr .total (BitVec.ofNat 64 data.length), cmd i]) s =
        runAccesses [cmd i] t := by
  obtain ⟨-, hcap, -, hbuf, -⟩ := geomValid_bounds hg
  have hmax := maxPayload_lt w h
  have hle := length_jobChunk_le data (maxPayload w.toNat h.toNat) k
  have hlen : (BitVec.ofNat 32 (jobChunk data (maxPayload w.toNat h.toNat) k).length).toNat =
      (jobChunk data (maxPayload w.toNat h.toNat) k).length :=
    (BitVec.toNat_ofNat ..).trans (Nat.mod_eq_of_lt (by omega))
  obtain ⟨u, hload, hframe, hbytes⟩ := runAccesses_ibuf_prefix
    (s := { s with width := w, height := h, script := [] }) hb (hle.trans (by show _ ≤ bufBytes s.cfg; omega))
  have hidle : statusBusy u.status = false := by rw [hframe]; exact hb
  refine ⟨{ u with
      len := BitVec.ofNat 32 (jobChunk data (maxPayload w.toNat h.toNat) k).length
      seq := BitVec.ofNat 32 k, total := BitVec.ofNat 64 data.length, script := [] },
    ⟨hidle, by rw [hframe], by rw [hframe], by rw [hframe], hlen, rfl, rfl, ?_⟩, fun i => ?_⟩
  · rw [hlen]
    exact hbytes
  · rw [load, List.append_assoc, runAccesses_geom w h _ hb, List.append_assoc, runAccesses_append hload]
    exact runAccesses_operands _ _ _ [cmd i] hidle

/-- ENCF on frame `k`: the block shows it under its number, idle as before (R138). -/
theorem DirectAt.exec_encf (hs : DirectAt c data w h k s) (hg : geomValid c w.toNat h.toNat = true) :
    ∃ t, exec .encf { s with script := [] } = .next t ∧ statusErr t.status = 0#4 ∧
      statusBusy t.status = false ∧ t.cfg = c ∧ t.seq = BitVec.ofNat 32 k ∧
      erastPrefix t (w.toNat * h.toNat) = (jobFrame c.magic.toList data w.toNat h.toNat k).ink := by
  have hvalid : geomValid s.cfg s.width.toNat s.height.toNat = true := by rwa [hs.cfg, hs.width, hs.height]
  have hlen : s.len.toNat ≤ maxPayload s.width.toNat s.height.toNat := by
    rw [hs.len, hs.width, hs.height]
    exact length_jobChunk_le _ _ _
  have hst := statusIs_prologue { s with script := [] }
  have hpaint := erastPrefix_paintFrame (prologue { s with script := [] }) (ibufPrefix s s.len.toNat) s.seq s.total
    s.width.toNat s.height.toNat
  rw [show (prologue { s with script := [] }).cfg = s.cfg from rfl] at hpaint
  refine ⟨_, exec_encf_of_fits (s := { s with script := [] }) hvalid hlen, hst.err, hst.busy.trans hs.idle, hs.cfg,
    hs.seq, ?_⟩
  rw [← hs.width, ← hs.height, ← hs.cfg]
  refine hpaint.trans ?_
  rw [hs.bytes, hs.seq, hs.total, hs.width, hs.height]
  rfl

/-- Frame `k` by itself (R219), when its bytes can be read and its raster written: the frame of the job. -/
theorem directFrame_of_ok (hb : statusBusy s.status = false) (hg : geomValid s.cfg w.toNat h.toNat = true)
    (hk : k < 2 ^ 32) (hlen : data.length < 2 ^ 64) {io : Collaborators}
    (hread : io.readable (BitVec.ofNat 32 k) = true) (hwrite : io.writable (BitVec.ofNat 32 k) = true) :
    ∃ t, directFrame io data w h k s = (.ok (jobFrame s.cfg.magic.toList data w.toNat h.toNat k), t) ∧
      statusBusy t.status = false ∧ t.cfg = s.cfg := by
  obtain ⟨u, hu, hrun⟩ := runAccesses_directAt (data := data) k hb hg
  obtain ⟨t, hexec, hok, hidle, hcfg, hseq, hink⟩ := hu.exec_encf hg
  refine ⟨t, ?_, hidle, hcfg⟩
  rw [directFrame, if_pos ⟨hk, hlen⟩,
    encodeOne_of_ok _ _ hread ((hrun .encf).trans (runAccesses_cmd hu.idle hexec)) hok, hseq, if_pos hwrite, hink]
  rfl

end

end Sys2Proof.Machine
end

section
/-! PROOFS. Decoding what was encoded (spec/42_decode.md R183, R188, spec/45_host_job_contract.md R217, R221, R227): the
byte stream of a tolerable delivery, `decodeBytes` on a frame, and one raster on the block. -/

namespace Sys2Proof.Machine

/-! The byte stream of a delivered frame (R217). -/

/-- A tolerable delivery is classified to the raster that was sent. -/
theorem map_classify_of_tolerable {r : List Ink} {d : List Sample} (h : tolerable r d = true) :
    d.map classify = r := by
  simp only [tolerable, Bool.and_eq_true, decide_eq_true_eq, List.all_eq_true, beq_iff_eq, decide_eq_decide] at h
  obtain ⟨hlen, hside⟩ := h
  refine List.ext_getElem (by rw [List.length_map, hlen]) fun i h1 h2 => ?_
  have hd : i < d.length := by rwa [List.length_map] at h1
  have hmem : (r[i], d[i]) ∈ r.zip d :=
    List.mem_iff_getElem.mpr ⟨i, by rw [List.length_zip]; omega, List.getElem_zip⟩
  have hi := hside _ hmem
  rw [List.getElem_map, classify]
  rcases bit_cases r[i] with hbit | hbit
  · rw [hbit, if_neg fun hlt => absurd (hbit.symm.trans (hi.mp hlt)) (by decide)]
  · rw [hbit, if_pos (hi.mpr hbit)]

/-- A frame that fits its raster: its bits, then white (R134). -/
theorem mapBits_of_fits {fb : List Byte} {w h : Nat} (hfit : 8 * fb.length ≤ w * h) :
    mapBits fb w h = bitStream fb ++ List.replicate (w * h - 8 * fb.length) 0#1 := by
  refine List.ext_getElem (by simp; omega) fun p h1 h2 => ?_
  have hp : p < w * h := by rwa [length_mapBits] at h1
  have hpixel := getD_mapBits fb hp
  rw [List.getD_eq_getElem _ _ h1] at hpixel
  rw [hpixel]
  split
  next hlt =>
    have hbits : p < (bitStream fb).length := by rwa [length_bitStream]
    rw [List.getElem_append_left hbits, ← bitStream_getD fb hlt, List.getD_eq_getElem _ _ hbits]
  next hge => rw [List.getElem_append_right (by rw [length_bitStream]; omega), List.getElem_replicate]

/-- The byte stream of a tolerable delivery of a frame begins with the frame's bytes. -/
theorem bytesOf_of_tolerable {fb : List Byte} {w h : Nat} {d : List Sample} (hfit : 8 * fb.length ≤ w * h)
    (hd : tolerable (mapBits fb w h) d = true) : ∃ rest, bytesOf d = fb ++ rest := by
  have hbits := (map_classify_of_tolerable hd).trans (mapBits_of_fits hfit)
  obtain ⟨d', -, hrest⟩ := bytesOf_bitStream fb hbits
  exact ⟨bytesOf d', hrest⟩

/-! `decodeBytes` on a frame (R183, R188). -/

/-- A valid header with the marker at its head, the payload it announces after it, and anything after that. -/
theorem decodeBytes_of_header {magic h payload : List Byte} (rest : List Byte) (hlen : h.length = 32)
    (hmagic : magic <+: h) (hvalid : hdrValid h = true) (hchunk : hdrChunk h = payload.length)
    (hpay : hdrPayloadCk h = (payloadChecksum payload).toNat) :
    decodeBytes magic (h ++ payload ++ rest) = .chunk payload (hdrSeq h) (hdrTotal h) payload.length 0 := by
  have hfind : find magic (h ++ payload ++ rest) = some 0 :=
    find_of_prefix (hmagic.trans ⟨payload ++ rest, by rw [List.append_assoc]⟩)
  have htake : (h ++ payload ++ rest).take 32 = h := by rw [List.append_assoc, List.take_left' hlen]
  have hslice : slice (h ++ payload ++ rest) 32 payload.length = payload := slice_at hlen rfl
  have hwhole : ¬ (h ++ payload ++ rest).length < 32 := by simp only [List.length_append]; omega
  have hall : ¬ (h ++ payload ++ rest).length - 32 < payload.length := by simp only [List.length_append]; omega
  simp only [decodeBytes, decodeBuffer, hfind, List.drop_zero, Nat.add_zero, decodeWindow, decodePayload,
    htake, hslice, hvalid, hchunk, hpay, if_true, if_neg hwhole, if_neg hall]

/-- The bytes of a frame decode to what it was built from. -/
theorem decodeBytes_frameBytes {magic payload : List Byte} (rest : List Byte) (q : Word) (total : DWord)
    (hm : magic.length = 6) (hlen : payload.length < 2 ^ 32) :
    decodeBytes magic (frameBytes magic payload q total ++ rest) =
      .chunk payload q.toNat total.toNat payload.length 0 := by
  have h := decodeBytes_of_header rest (length_buildHeader hm payload q total)
    (magic_prefix_buildHeader magic payload q total) (hdrValid_buildHeader hm payload q total)
    (hdrChunk_buildHeader hm payload q total hlen) (hdrPayloadCk_buildHeader hm payload q total)
  rwa [hdrSeq_buildHeader hm, hdrTotal_buildHeader hm] at h

/-- A tolerable delivery of an encoded frame decodes to what was encoded (R188). -/
theorem decodeBytes_of_tolerable {c : Config.Params} {w h : BitVec 16} {payload : List Byte} {q : Word}
    {total : DWord} {d : List Sample} (hg : geomValid c w.toNat h.toNat = true)
    (hlen : payload.length ≤ maxPayload w.toNat h.toNat)
    (hd : tolerable (encodeFrame c.magic.toList payload q total w.toNat h.toNat) d = true) :
    decodeBytes c.magic.toList (bytesOf d) = .chunk payload q.toNat total.toNat payload.length 0 := by
  have hm : c.magic.toList.length = 6 := c.magic.length_toList
  have hmax := maxPayload_lt w h
  obtain ⟨-, hcap, -, -, hpixels⟩ := geomValid_bounds hg
  have hfit : 8 * (frameBytes c.magic.toList payload q total).length ≤ w.toNat * h.toNat := by
    rw [length_frameBytes hm]
    omega
  obtain ⟨rest, hrest⟩ := bytesOf_of_tolerable hfit hd
  rw [hrest]
  exact decodeBytes_frameBytes rest q total hm (by omega)

/-! What a raster gives the host (R221). -/

/-- The chunk that the host reads out after a decode, if it succeeded. -/
def chunkOf : DecodeResult → Option Chunk
  | .fail _ _ _ _ => none
  | .chunk payload q total _ _ => some ⟨BitVec.ofNat 32 q, payload, BitVec.ofNat 64 total⟩

/-- The chunk that a raster gives at geometry `(w, h)`: none when its dimensions differ (R162). -/
def rasterChunk (magic : List Byte) (w h : BitVec 16) (r : Raster) : Option Chunk :=
  if r.width = w ∧ r.height = h then chunkOf (decodeBytes magic (bytesOf r.samples)) else none

/-- A rejected raster gives none. -/
theorem rasterChunk_of_rejected {magic : List Byte} {w h : BitVec 16} {r : Raster}
    (hr : rejected magic w h r = true) : rasterChunk magic w h r = none := by
  unfold rasterChunk
  split
  next hdims =>
    rw [rejected, if_pos hdims, Bool.and_eq_true] at hr
    obtain ⟨-, hfail⟩ := hr
    cases hd : decodeBytes magic (bytesOf r.samples) with
    | fail e short a b => rfl
    | chunk payload q total size skip => rw [hd] at hfail; cases hfail
  next => rfl

/-- A tolerable copy of a frame gives what was encoded. -/
theorem rasterChunk_of_copy {c : Config.Params} {w h : BitVec 16} {payload : List Byte} {q : Word} {total : DWord}
    {r : Raster} (hg : geomValid c w.toNat h.toNat = true) (hlen : payload.length ≤ maxPayload w.toNat h.toNat)
    (hr : tolerableCopy w h (encodeFrame c.magic.toList payload q total w.toNat h.toNat) r = true) :
    rasterChunk c.magic.toList w h r = some ⟨q, payload, total⟩ := by
  simp only [tolerableCopy, Bool.and_eq_true, decide_eq_true_eq] at hr
  obtain ⟨⟨hw, hh⟩, htol⟩ := hr
  rw [rasterChunk, if_pos ⟨hw, hh⟩, decodeBytes_of_tolerable hg hlen htol, chunkOf, BitVec.ofNat_toNat,
    BitVec.ofNat_toNat, BitVec.setWidth_eq, BitVec.setWidth_eq]

/-- Every raster of geometry `(w, h)` that a tolerable channel delivers is whole. -/
theorem length_samples_of_tolerableChannel {magic : List Byte} {w h : BitVec 16} {frames : List (List Ink)}
    {rs : List Raster} (hrs : tolerableChannel magic w h frames rs)
    (hframes : ∀ f ∈ frames, f.length = w.toNat * h.toNat) {r : Raster} (hr : r ∈ rs)
    (hdims : r.width = w ∧ r.height = h) : r.samples.length = w.toNat * h.toNat := by
  obtain ⟨-, hall⟩ := hrs
  rcases hall r hr with ⟨f, hf, hcopy⟩ | hrej
  · simp only [tolerableCopy, tolerable, Bool.and_eq_true, decide_eq_true_eq] at hcopy
    obtain ⟨-, hlen, -⟩ := hcopy
    rw [hlen, hframes f hf]
  · rw [rejected, if_pos hdims, Bool.and_eq_true, decide_eq_true_eq] at hrej
    exact hrej.1

end Sys2Proof.Machine
end

section
/-! PROOFS. Decoding, the decode job of the host on the block (spec/45_host_job_contract.md R221, R231): what a load
and DECF leave unchanged, the chunk that each raster gives, and the loop as a fold over those chunks. -/

namespace Sys2Proof.Machine

/-! Accesses in general (R76). -/

/-- What every access keeps holds after any number of them, refused or not. -/
theorem runAccesses_induction {P : State → Prop} {xs : List Access}
    (hstep : ∀ x ∈ xs, ∀ s t, P s → step { s with script := [x] } = .next t → P t) {s : State} (hs : P s) :
    P (runAccesses xs s).1 := by
  induction xs generalizing s with
  | nil => exact hs
  | cons x rest ih =>
    rw [runAccesses]
    split
    next t ht =>
      exact ih (fun y hy => hstep y (List.mem_cons_of_mem x hy)) (hstep x List.mem_cons_self s t hs ht)
    next f _ => exact nomatch f
    next => exact hs

/-- Accesses that none refuses are a part that none refuses, and the rest of them. -/
theorem runAccesses_of_append {xs ys : List Access} {s t : State} (h : runAccesses (xs ++ ys) s = (t, none)) :
    ∃ u, runAccesses xs s = (u, none) ∧ runAccesses ys u = (t, none) := by
  induction xs generalizing s with
  | nil => exact ⟨s, rfl, h⟩
  | cons x rest ih =>
    simp only [List.cons_append, runAccesses] at h ⊢
    cases hs : step { s with script := [x] } with
    | next u => rw [hs] at h; exact ih h
    | fault f => exact nomatch f
    | refused r => rw [hs] at h; cases h

/-- An access that the block performs leads where `plainAccess` says. -/
theorem eq_of_step_next {s t u : State} {x : Access} (hb : statusBusy s.status = false)
    (hu : plainAccess x { s with script := [] } = .done u) (ht : step { s with script := [x] } = .next t) : t = u := by
  cases hx : x.malformed s.cfg with
  | none =>
    have hdone := step_of_done (s := { s with script := [x] }) rfl hb hx hu
    exact Host.Outcome.next.inj (ht.symm.trans hdone)
  | some m =>
    have href := step_of_malformed (s := { s with script := [x] }) rfl hb hx
    exact nomatch ht.symm.trans href

/-- The access that issues a command is the whole of the command. -/
theorem step_cmd {s : State} (i : Instr) (hb : statusBusy s.status = false) :
    step { s with script := [cmd i] } = exec i { s with script := [] } := by
  rw [step_cmdAccess (s := { s with script := [cmd i] }) (c := encode i) (rest := []) rfl hb, runCommand, decode_encode]

/-- `writeCells` makes writes of cells of its memory. -/
theorem eq_writeCell_of_mem {w : Nat} {sp : Space} {a : Nat} {vs : List (BitVec w)} {x : Access}
    (hx : x ∈ writeCells sp a vs) : ∃ b v, x = .writeCell sp b v := by
  induction vs generalizing a with
  | nil => cases hx
  | cons v rest ih =>
    rcases List.mem_cons.mp hx with rfl | hx
    · exact ⟨a, _, rfl⟩
    · exact ih hx

/-! What the decode of one raster leaves unchanged. -/

/-- The block of parameters `c`, idle, set to geometry `(w, h)`. -/
structure ReadyAt (c : Config.Params) (w h : BitVec 16) (s : State) : Prop where
  idle : statusBusy s.status = false
  cfg : s.cfg = c
  width : s.width = w
  height : s.height = h

/-- Recording a decode leaves BUSY. -/
theorem statusBusy_recordDecode (r : DecodeResult) (s : State) :
    statusBusy (recordDecode r s).status = statusBusy s.status := by
  cases r <;> simp [recordDecode]

/-- DECF leaves BUSY. -/
theorem statusBusy_decf {s t : State} (ht : exec .decf s = .next t) : statusBusy t.status = statusBusy s.status := by
  obtain ⟨hd, he⟩ := execDecf_cases s
  have hstart := (statusIs_decfStart s).busy
  obtain rfl := Host.Outcome.next.inj (ht.symm.trans he)
  split
  · split
    · rw [statusBusy_recordDecode, hstart]
    · rw [raise_status, statusBusy_setErr, hstart]
  · rw [raise_status, statusBusy_setErr, hstart]

/-- A command keeps the geometry and the parameters (R40, R48). -/
theorem exec_keeps_geometry {i : Instr} {s t : State} (ht : exec i s = .next t) :
    t.cfg = s.cfg ∧ t.width = s.width ∧ t.height = s.height := by
  obtain ⟨u, hu, hops⟩ := exec_keepsOperands i s
  obtain rfl := Host.Outcome.next.inj (ht.symm.trans hu)
  exact ⟨(congrArg State.cfg hops :), (congrArg State.width hops :), (congrArg State.height hops :)⟩

section
variable {c : Config.Params} {w h : BitVec 16} {s : State}

/-- Each access of loading a raster and issuing DECF leaves the block ready. -/
theorem ReadyAt.step_decf (hs : ReadyAt c w h s) {r : Raster} {x : Access} (hx : x ∈ loadRaster r ++ [cmd .decf])
    {t : State} (ht : step { s with script := [x] } = .next t) : ReadyAt c w h t := by
  obtain ⟨hidle, hcfg, hwidth, hheight⟩ := hs
  simp only [loadRaster, List.mem_append, List.mem_cons, List.not_mem_nil, or_false] at hx
  rcases hx with (hcell | rfl | rfl) | rfl
  · obtain ⟨a, v, rfl⟩ := eq_writeCell_of_mem hcell
    obtain rfl := eq_of_step_next hidle (u := writeCell .drast a v { s with script := [] }) rfl ht
    exact ⟨hidle, hcfg, hwidth, hheight⟩
  · obtain rfl :=
      eq_of_step_next hidle (u := writeRegister .rwidth (r.width.setWidth 64) { s with script := [] }) rfl ht
    exact ⟨hidle, hcfg, hwidth, hheight⟩
  · obtain rfl :=
      eq_of_step_next hidle (u := writeRegister .rheight (r.height.setWidth 64) { s with script := [] }) rfl ht
    exact ⟨hidle, hcfg, hwidth, hheight⟩
  · rw [step_cmd .decf hidle] at ht
    obtain ⟨hc, hw, hh⟩ := exec_keeps_geometry ht
    exact ⟨(statusBusy_decf ht).trans hidle, hc.trans hcfg, hw.trans hwidth, hh.trans hheight⟩

/-- Any number of those accesses leaves the block ready, also when one of them is refused (log 17). -/
theorem ReadyAt.runAccesses_decf (hs : ReadyAt c w h s) {r : Raster} {xs : List Access}
    (hxs : ∀ x ∈ xs, x ∈ loadRaster r ++ [cmd .decf]) : ReadyAt c w h (runAccesses xs s).1 :=
  runAccesses_induction (fun x hx _ _ hs ht => hs.step_decf (hxs x hx) ht) hs

/-! The chunk that one raster gives (R221). -/

/-- What the host reads out after DECF: a chunk when STATUS.ERR is OK. -/
def chunkRead (t : State) : Option Chunk :=
  if statusErr t.status = 0#4 then some ⟨t.dSeq, obufPrefix t t.dChunk.toNat, t.dTotal⟩ else none

/-- The decode of a raster that is loaded whole. -/
theorem decodeRaster_of_run {r : Raster} {t : State} (ht : runAccesses (loadRaster r ++ [cmd .decf]) s = (t, none)) :
    decodeRaster r s = (t, chunkRead t) := by rw [decodeRaster, ht]; rfl

/-- The decode of a raster whose load is refused. -/
theorem decodeRaster_of_refused {r : Raster} {t : State} {e : Refusal}
    (ht : runAccesses (loadRaster r ++ [cmd .decf]) s = (t, some e)) : decodeRaster r s = (t, none) := by
  rw [decodeRaster, ht]

/-- Recorded on a state without an error, a decode is read out as its chunk. -/
theorem chunkRead_recordDecode {magic b : List Byte} (hb : b.length < 2 ^ 32) (hok : statusErr s.status = 0#4) :
    chunkRead (recordDecode (decodeBytes magic b) s) = chunkOf (decodeBytes magic b) := by
  cases hr : decodeBytes magic b with
  | fail e short x y =>
    obtain ⟨hne, -, -, -⟩ := decodeBytes_fail (hb.trans (by decide)) hr
    have herr : ¬ errNumber e = 0#4 := fun h0 => hne (errNumber_eq_zero.mp h0)
    rw [chunkRead, recordDecode, raise_status, statusErr_setErr, if_neg herr]
    rfl
  | chunk payload q total size skip =>
    obtain ⟨hlen, hfit, -, -⟩ := decodeBytes_chunk hr
    have hsize : (BitVec.ofNat 32 size).toNat = payload.length := by
      rw [BitVec.toNat_ofNat, Nat.mod_eq_of_lt (by omega), hlen]
    have hread : obufPrefix (recordDecode (.chunk payload q total size skip) s) payload.length = payload :=
      prefix_writePrefix _ _ _
    have hdone : statusErr (recordDecode (.chunk payload q total size skip) s).status = 0#4 :=
      (statusErr_setDvalid true _).trans hok
    rw [chunkRead, if_pos hdone]
    show some (Chunk.mk _ (obufPrefix _ (BitVec.ofNat 32 size).toNat) _) = _
    rw [hsize, hread]
    rfl

/-- The accesses after the samples of a raster: DECF on the dimensions that they write. -/
theorem runAccesses_dims {rw rh : BitVec 16} (hb : statusBusy s.status = false) :
    runAccesses [wr .rwidth rw, wr .rheight rh, cmd .decf] s =
      runAccesses [cmd .decf] { s with rwidth := rw, rheight := rh, script := [] } := by
  have hcut (v : BitVec 16) : (v.setWidth 64).setWidth 16 = v := by
    rw [BitVec.setWidth_setWidth_of_le _ (by decide), BitVec.setWidth_eq]
  calc runAccesses [wr .rwidth rw, wr .rheight rh, cmd .decf] s
    _ = runAccesses [wr .rheight rh, cmd .decf] { s with rwidth := rw, script := [] } := by
      rw [runAccesses_wr (r := .rwidth) rw _ hb (by decide) rw.isLt, writeRegister, hcut]
    _ = runAccesses [cmd .decf] { s with rwidth := rw, rheight := rh, script := [] } := by
      rw [runAccesses_wr (r := .rheight) (s := { s with rwidth := rw, script := [] }) rh _ hb (by decide) rh.isLt,
        writeRegister, hcut]

/-- Loading DRAST from cell 0 on: the samples stand in DRAST, and nothing else of the block changes. -/
theorem runAccesses_drast_prefix {samples : List Sample} (hb : statusBusy s.status = false)
    (hfit : samples.length ≤ s.cfg.maxPixels) :
    ∃ t, runAccesses (writeCells .drast 0 samples) s = (t, none) ∧
      t = { s with drast := t.drast, script := t.script } ∧ drastPrefix t samples.length = samples := by
  obtain ⟨t, hrun, hframe, hread⟩ := runAccesses_drast samples 0 s hb (by rwa [Nat.zero_add])
  refine ⟨t, hrun, hframe, List.ext_getElem (length_drastPrefix _ _) fun i h1 h2 => ?_⟩
  have hcell : (drastPrefix t samples.length)[i] = readDrast t i := by simp [drastPrefix]
  rw [hcell, hread, Nat.zero_add, Nat.sub_zero, if_pos ⟨Nat.zero_le i, h2⟩, List.getD_eq_getElem _ _ h2]

/-- DECF with its operands in place and the dimensions of the geometry: the raster's chunk. -/
theorem chunkRead_decf_of_match {t : State} (hg : geomValid s.cfg s.width.toNat s.height.toNat = true)
    (hw : s.rwidth = s.width) (hh : s.rheight = s.height) (ht : exec .decf s = .next t) :
    chunkRead t =
      chunkOf (decodeBytes s.cfg.magic.toList (bytesOf (drastPrefix s (s.width.toNat * s.height.toNat)))) := by
  obtain ⟨hd, he⟩ := execDecf_of_match hg hw hh
  obtain rfl := Host.Outcome.next.inj (ht.symm.trans he)
  refine chunkRead_recordDecode (s := { decfStart s with hidden := hd }) ?_ (statusIs_decfStart s).err
  rw [length_bytesOf, length_drastPrefix]
  exact (capBytes_lt s.width s.height).trans (by decide)

/-- DECF on other dimensions than those of the geometry: no chunk (R162). -/
theorem chunkRead_decf_of_mismatch {t : State} (hdims : ¬ (s.rwidth = s.width ∧ s.rheight = s.height))
    (ht : exec .decf s = .next t) : chunkRead t = none := by
  obtain ⟨hd, he⟩ := execDecf_cases s
  rw [if_neg hdims] at he
  obtain rfl := Host.Outcome.next.inj (ht.symm.trans he)
  rw [chunkRead]
  split
  all_goals
    rw [raise_status, statusErr_setErr]
    rfl

/-- DECF answers a next state (R14). -/
theorem exists_decf (s : State) : ∃ t, exec .decf s = .next t := by
  obtain ⟨t, ht, -⟩ := execDecf_completes s
  exact ⟨t, ht⟩

/-- The decode of one whole raster of the block's geometry. -/
theorem ReadyAt.decodeRaster_of_match (hs : ReadyAt c w h s) (hg : geomValid c w.toNat h.toNat = true) {r : Raster}
    (hw : r.width = w) (hh : r.height = h) (hlen : r.samples.length = w.toNat * h.toNat) :
    (decodeRaster r s).2 = chunkOf (decodeBytes c.magic.toList (bytesOf r.samples)) := by
  obtain ⟨hpixels, -, -, -, -⟩ := geomValid_bounds hg
  obtain ⟨u, hload, hframe, hsamples⟩ :=
    runAccesses_drast_prefix hs.idle (samples := r.samples) (by rwa [hlen, hs.cfg])
  have hidle : statusBusy u.status = false := by rw [hframe]; exact hs.idle
  have hcfg : u.cfg = c := by rw [hframe]; exact hs.cfg
  have hwidth : u.width = w := by rw [hframe]; exact hs.width
  have hheight : u.height = h := by rw [hframe]; exact hs.height
  obtain ⟨t, ht⟩ := exists_decf { u with rwidth := r.width, rheight := r.height, script := [] }
  have hrun : runAccesses (loadRaster r ++ [cmd .decf]) s = (t, none) := by
    rw [loadRaster, List.append_assoc, runAccesses_append hload]
    exact (runAccesses_dims hidle).trans (runAccesses_cmd hidle ht)
  rw [decodeRaster_of_run hrun, chunkRead_decf_of_match (by rwa [hcfg, hwidth, hheight]) (hw.trans hwidth.symm)
    (hh.trans hheight.symm) ht]
  show chunkOf (decodeBytes u.cfg.magic.toList (bytesOf (drastPrefix u (u.width.toNat * u.height.toNat)))) = _
  rw [hcfg, hwidth, hheight, ← hlen, hsamples]

/-- The decode of a raster of other dimensions: the load is refused, or DECF finds the difference. -/
theorem ReadyAt.decodeRaster_of_mismatch (hs : ReadyAt c w h s) {r : Raster}
    (hdims : ¬ (r.width = w ∧ r.height = h)) : (decodeRaster r s).2 = none := by
  rcases hrun : runAccesses (loadRaster r ++ [cmd .decf]) s with ⟨t, _ | e⟩
  · rw [decodeRaster_of_run hrun]
    rw [loadRaster, List.append_assoc] at hrun
    obtain ⟨u, hload, hrest⟩ := runAccesses_of_append hrun
    have hu : ReadyAt c w h (runAccesses (writeCells .drast 0 r.samples) s).1 :=
      hs.runAccesses_decf (r := r) fun x hx => by simp only [loadRaster, List.mem_append, hx, true_or]
    rw [hload] at hu
    obtain ⟨t', ht'⟩ := exists_decf { u with rwidth := r.width, rheight := r.height, script := [] }
    have hdecf := hrest.symm.trans ((runAccesses_dims hu.idle).trans (runAccesses_cmd hu.idle ht'))
    obtain rfl : t = t' := congrArg Prod.fst hdecf
    refine chunkRead_decf_of_mismatch (fun hsame => hdims ?_) ht'
    exact ⟨hsame.1.trans hu.width, hsame.2.trans hu.height⟩
  · rw [decodeRaster_of_refused hrun]

/-- The decode of one raster on a block that is ready: its chunk, and the block is ready again. -/
theorem ReadyAt.decodeRaster_eq (hs : ReadyAt c w h s) (hg : geomValid c w.toNat h.toNat = true) {r : Raster}
    (hwhole : r.width = w ∧ r.height = h → r.samples.length = w.toNat * h.toNat) :
    ∃ t, decodeRaster r s = (t, rasterChunk c.magic.toList w h r) ∧ ReadyAt c w h t := by
  have hkeep : ReadyAt c w h (decodeRaster r s).1 := by
    have hready := hs.runAccesses_decf (r := r) fun _ hx => hx
    rcases hrun : runAccesses (loadRaster r ++ [cmd .decf]) s with ⟨t, _ | e⟩
    · rw [decodeRaster_of_run hrun]
      rwa [hrun] at hready
    · rw [decodeRaster_of_refused hrun]
      rwa [hrun] at hready
  refine ⟨_, Prod.ext rfl ?_, hkeep⟩
  by_cases hdims : r.width = w ∧ r.height = h
  · rw [rasterChunk, if_pos hdims]
    exact hs.decodeRaster_of_match hg hdims.1 hdims.2 (hwhole hdims)
  · rw [rasterChunk, if_neg hdims]
    exact hs.decodeRaster_of_mismatch hdims

/-- The loop of R221 on a block that is ready feeds the chunks of the rasters, in their order. -/
theorem ReadyAt.decodeLoop_eq (hg : geomValid c w.toNat h.toNat = true)
    (feed : Assembler → Chunk → Except JobError Assembler) {rs : List Raster}
    (hwhole : ∀ r ∈ rs, r.width = w ∧ r.height = h → r.samples.length = w.toNat * h.toNat)
    (hs : ReadyAt c w h s) (a : Assembler) :
    (decodeLoop decodeRaster feed rs s a).2 = (rs.filterMap (rasterChunk c.magic.toList w h)).foldlM feed a := by
  induction rs generalizing s a with
  | nil => rfl
  | cons r rest ih =>
    obtain ⟨t, hr, ht⟩ := hs.decodeRaster_eq hg (hwhole r List.mem_cons_self)
    have hrest := ih (fun r' hr' => hwhole r' (List.mem_cons_of_mem r hr')) ht
    rw [decodeLoop, hr]
    cases hc : rasterChunk c.magic.toList w h r with
    | none =>
      rw [List.filterMap_cons_none hc]
      exact hrest a
    | some k =>
      rw [List.filterMap_cons_some hc, List.foldlM_cons]
      cases hf : feed a k with
      | ok b => simp only [hf]; exact hrest b
      | error e => simp only [hf]; rfl

/-- The decode job of R221 on an idle block: the chunks of its rasters, fed and assembled. -/
theorem decodeJob_eq (hb : statusBusy s.status = false) (hg : geomValid s.cfg w.toNat h.toNat = true)
    (o : HostOptions) {rs : List Raster}
    (hwhole : ∀ r ∈ rs, r.width = w ∧ r.height = h → r.samples.length = w.toNat * h.toNat) :
    decodeJob o w h rs s = some ((rs.filterMap (rasterChunk s.cfg.magic.toList w h)).foldlM
      (feedChecked o (maxPayload w.toNat h.toNat)) Assembler.empty >>= asmFinish o.gapCheck) := by
  have hgeom : runAccesses (geom w h) s = ({ s with width := w, height := h, script := [] }, none) := by
    have hrun := runAccesses_geom w h [] hb
    rwa [List.append_nil] at hrun
  have hready : ReadyAt s.cfg w h { s with width := w, height := h, script := [] } := ⟨hb, rfl, rfl, rfl⟩
  have hloop := hready.decodeLoop_eq hg (feedChecked o (maxPayload w.toNat h.toNat)) hwhole Assembler.empty
  simp only [decodeJob, hgeom, hloop]
  cases (rs.filterMap (rasterChunk s.cfg.magic.toList w h)).foldlM
    (feedChecked o (maxPayload w.toNat h.toNat)) Assembler.empty <;> rfl

end

end Sys2Proof.Machine
end

section
/-! PROOFS. Encoding, the host's choice for an empty input (spec/90_conflicts.md C4, spec/93_implementation_defined.md
U17): the one empty frame, and what the host's checks and the assembler make of its copies. -/

namespace Sys2Proof.Machine

/-! The empty frame, encoded. -/

/-- The frame of an empty input is an empty payload with number and totalSize 0. -/
theorem jobFrame_nil (magic : List Byte) (w h : Nat) :
    jobFrame magic [] w h 0 = ⟨0#32, encodeFrame magic [] 0#32 0#64 w h⟩ := by
  rw [jobFrame, jobChunk, slice, List.drop_nil, List.take_nil, List.length_nil]

/-- With the option on, an empty input gives that frame, at a valid geometry on an idle block. -/
theorem encodeJobWith_nil {o : HostOptions} {s : State} {w h : BitVec 16} (ho : o.emptyFrame = true)
    (hb : statusBusy s.status = false) (hg : geomValid s.cfg w.toNat h.toNat = true) :
    ∃ u, encodeJobWith o .reliable [] w h s =
      (.ok [⟨0#32, encodeFrame s.cfg.magic.toList [] 0#32 0#64 w.toNat h.toNat⟩], u) := by
  obtain ⟨t, hframe, -, -⟩ := directFrame_of_ok (data := []) (k := 0) (io := .reliable) hb hg (by decide)
    (by decide) rfl rfl
  rw [jobFrame_nil] at hframe
  refine ⟨t, ?_⟩
  rw [encodeJobWith, if_pos ⟨ho, rfl⟩]
  simp only [directJob, Collaborators.reliable, if_true, directLoop] at hframe ⊢
  rw [hframe]

/-! Its copies, decoded and assembled. -/

/-- The chunk that every copy of the empty frame gives. -/
def emptyChunk : Chunk := ⟨0#32, [], 0#64⟩

/-- A channel that delivers the empty frame gives the host one or more copies of its chunk, and nothing else. -/
theorem chunks_of_tolerableChannel {c : Config.Params} {w h : BitVec 16} {rs : List Raster}
    (hg : geomValid c w.toNat h.toNat = true)
    (hrs : tolerableChannel c.magic.toList w h [encodeFrame c.magic.toList [] 0#32 0#64 w.toNat h.toNat] rs) :
    ∃ n, rs.filterMap (rasterChunk c.magic.toList w h) = List.replicate (n + 1) emptyChunk := by
  obtain ⟨hsome, hall⟩ := hrs
  obtain ⟨r, hr, hcopy⟩ := hsome _ List.mem_cons_self
  have hmem : emptyChunk ∈ rs.filterMap (rasterChunk c.magic.toList w h) :=
    List.mem_filterMap.mpr ⟨r, hr, rasterChunk_of_copy hg (Nat.zero_le _) hcopy⟩
  have heq : ∀ k ∈ rs.filterMap (rasterChunk c.magic.toList w h), k = emptyChunk := fun k hk => by
    obtain ⟨r', hr', hk⟩ := List.mem_filterMap.mp hk
    rcases hall r' hr' with ⟨f, hf, hcopy⟩ | hrej
    · obtain rfl := List.mem_singleton.mp hf
      exact Option.some.inj (hk.symm.trans (rasterChunk_of_copy hg (Nat.zero_le _) hcopy))
    · rw [rasterChunk_of_rejected hrej] at hk
      cases hk
  refine ⟨(rs.filterMap (rasterChunk c.magic.toList w h)).length - 1, List.eq_replicate_iff.mpr ⟨?_, heq⟩⟩
  have := List.length_pos_of_mem hmem
  omega

/-- Feeding a chunk that changes nothing, any number of times, changes nothing. -/
theorem foldlM_replicate_of_fixed {feed : Assembler → Chunk → Except JobError Assembler} {a : Assembler} {k : Chunk}
    (hk : feed a k = .ok a) (n : Nat) : (List.replicate n k).foldlM feed a = .ok a := by
  induction n with
  | zero => rfl
  | succ n ih =>
    rw [List.replicate_succ, List.foldlM_cons, hk]
    exact ih

/-- The sequence check drops the empty frame's chunk, since no sequence is below `ceil(0 / m)` (R286). -/
theorem feedChecked_emptyChunk_of_check {o : HostOptions} {m : Nat} (hm : 0 < m) (ho : o.sequenceCheck = true)
    (a : Assembler) : feedChecked o m a emptyChunk = .ok a := by
  have hnone : jobFrames 0 m = 0 := Nat.le_zero.mp ((jobFrames_le_iff hm 0 0).mpr (Nat.zero_le _))
  have himplausible : plausibleSequence m emptyChunk = false := decide_eq_false (by
    show ¬ 0 < jobFrames 0 m
    rw [hnone]
    exact Nat.lt_irrefl 0)
  rw [feedChecked, ho, himplausible]
  rfl

/-- Without it the chunk is fed (R222), whether or not the host compares totalSize, and once is enough (R228). -/
theorem feedChecked_emptyChunk_of_no_check {o : HostOptions} (m : Nat) (ho : o.sequenceCheck = false) :
    feedChecked o m Assembler.empty emptyChunk = .ok (asmFeed Assembler.empty emptyChunk) ∧
    feedChecked o m (asmFeed Assembler.empty emptyChunk) emptyChunk =
      .ok (asmFeed Assembler.empty emptyChunk) := by
  unfold feedChecked
  rw [ho]
  cases o.totalCheck <;> exact ⟨rfl, rfl⟩

/-- What the host assembles from copies of the empty frame's chunk. -/
theorem assemble_emptyChunks (o : HostOptions) {m : Nat} (hm : 0 < m) (n : Nat) :
    ((List.replicate (n + 1) emptyChunk).foldlM (feedChecked o m) Assembler.empty >>= asmFinish o.gapCheck) =
      if o.sequenceCheck then .error .noValidFrames else .ok [] := by
  cases ho : o.sequenceCheck with
  | true =>
    rw [foldlM_replicate_of_fixed (feedChecked_emptyChunk_of_check hm ho Assembler.empty)]
    rfl
  | false =>
    obtain ⟨hfirst, hagain⟩ := feedChecked_emptyChunk_of_no_check m ho
    rw [List.replicate_succ, List.foldlM_cons, hfirst]
    show ((List.replicate n emptyChunk).foldlM _ _ >>= asmFinish o.gapCheck) = _
    rw [foldlM_replicate_of_fixed hagain]
    cases o.gapCheck <;> rfl

/-- Settles O59: the one frame of an empty input, and the copies of its chunk that any tolerable channel leaves. -/
theorem emptyFrameOption : Obligations.EmptyFrameOption := by
  unfold Obligations.EmptyFrameOption
  refine fun o s data w h ho => ⟨fun hne => ?_, fun hb hg => ?_⟩
  · rw [encodeJobWith, if_neg fun hcond => hne hcond.2]
  · obtain ⟨u, hencode⟩ := encodeJobWith_nil ho hb hg
    refine ⟨_, u, hencode, fun v rs hbv hcfg hrs => ?_⟩
    obtain ⟨-, -, hm, -, -⟩ := geomValid_bounds hg
    obtain ⟨n, hchunks⟩ := chunks_of_tolerableChannel hg hrs
    have hlength : ∀ f ∈ [encodeFrame s.cfg.magic.toList [] 0#32 0#64 w.toNat h.toNat],
        f.length = w.toNat * h.toNat := fun f hf => by
      rw [List.mem_singleton.mp hf]
      exact length_mapBits _ _ _
    rw [decodeJob_eq hbv (hcfg ▸ hg) o fun r hr => length_samples_of_tolerableChannel hrs hlength hr, hcfg, hchunks,
      assemble_emptyChunks o hm n]

end Sys2Proof.Machine
end

section
/-! PROOFS. Decoding, the byte stream of a raster (spec/42_decode.md R161, R165): the classifier as a threshold, and
the bits of a packed byte. -/

namespace Sys2Proof.Machine

/-! The classifier (R161). -/

theorem classify_eq_one_iff (s : Sample) : classify s = 1#1 ↔ s.toNat < 128 := by
  rw [classify, show 2 ^ (Config.lumaBits - 1) = 128 from rfl]
  split
  next hlt => exact iff_of_true rfl hlt
  next hge => exact iff_of_false (by decide) hge

/-- The most significant bit of a sample tells its half of the range. -/
theorem getLsbD_seven_eq_decide (s : Sample) : s.getLsbD 7 = decide (128 ≤ s.toNat) :=
  (BitVec.msb_eq_getLsbD_last s).symm.trans (BitVec.msb_eq_decide s)

/-- Settles O41: both sides of the threshold, by the classifier's one comparison. -/
theorem classifierThreshold : Obligations.ClassifierThreshold := by
  unfold Obligations.ClassifierThreshold
  intro s
  have hlow : s.toNat < 128 → classify s = 1#1 := (classify_eq_one_iff s).mpr
  have hhigh : 128 ≤ s.toNat → classify s = 0#1 := fun hge =>
    (bit_cases _).resolve_right fun h => Nat.not_lt.mpr hge ((classify_eq_one_iff s).mp h)
  refine ⟨?_, fun hle => hlow (by omega), hhigh⟩
  rw [getLsbD_seven_eq_decide]
  rcases Nat.lt_or_ge s.toNat 128 with hlt | hge
  · rw [hlow hlt, decide_eq_false (Nat.not_le.mpr hlt)]
    rfl
  · rw [hhigh hge, decide_eq_true hge]
    rfl

/-! The bits of a packed byte (R65, R166). -/

/-- A pushed bit stands below the bits before it, and the eighth of those falls out. -/
theorem pushBit_eq_append (acc : Byte) (b : BitVec 1) : pushBit acc b = (acc ++ b).setWidth 8 := by
  apply BitVec.eq_of_toNat_eq
  have hb := b.isLt
  rw [pushBit, BitVec.toNat_setWidth, BitVec.toNat_append, ← Nat.shiftLeft_add_eq_or_of_lt hb, Nat.shiftLeft_eq]
  simp

theorem getLsbD_pushBit_zero (acc : Byte) (b : BitVec 1) : (pushBit acc b).getLsbD 0 = decide (b = 1#1) := by
  rw [pushBit_eq_append]
  rw [BitVec.getLsbD_setWidth, BitVec.getLsbD_append, if_pos Nat.one_pos]
  rcases bit_cases b with rfl | rfl <;> rfl

theorem getLsbD_pushBit_succ (acc : Byte) (b : BitVec 1) {i : Nat} (hi : i < 7) :
    (pushBit acc b).getLsbD (i + 1) = acc.getLsbD i := by
  rw [pushBit_eq_append, BitVec.getLsbD_setWidth, BitVec.getLsbD_append, decide_eq_true (by omega), if_neg (by omega)]
  rfl

/-- The first of the packed bits is the most significant. -/
theorem getLsbD_packByte (bits : List (BitVec 1)) (hlen : bits.length ≤ 8) {j : Nat} (hj : j < bits.length) :
    (packByte bits).getLsbD (bits.length - 1 - j) = decide (bits.getD j 0#1 = 1#1) := by
  induction bits using List.reverseRecOn generalizing j with
  | nil => cases hj
  | append_singleton bits b ih =>
    have hpush : packByte (bits ++ [b]) = pushBit (packByte bits) b := List.foldl_append
    rw [List.length_append, List.length_singleton] at hlen hj ⊢
    rw [hpush]
    rcases Nat.lt_or_eq_of_le (Nat.le_of_lt_succ hj) with hlt | rfl
    · rw [show bits.length + 1 - 1 - j = (bits.length - 1 - j) + 1 by omega,
        getLsbD_pushBit_succ _ _ (by omega), ih (by omega) hlt, List.getD_append _ _ _ _ hlt]
    · rw [show bits.length + 1 - 1 - bits.length = 0 by omega, getLsbD_pushBit_zero,
        List.getD_append_right _ _ _ _ (Nat.le_refl _), Nat.sub_self, List.getD_cons_zero]

/-- Bit by bit, a byte of the stream is its eight pixels. -/
theorem getLsbD_bytesOf (d : List Sample) {k j : Nat} (hk : k < d.length / 8) (hj : j ≤ 7) :
    ((bytesOf d).getD k 0#8).getLsbD (7 - j) = decide (classify (d.getD (8 * k + j) 0#8) = 1#1) := by
  induction d using raster_induction generalizing k with
  | short d hs => omega
  | byte a b c d e f g h rest ih =>
    rw [bytesOf_cons8]
    cases k with
    | zero =>
      have hpixel : ([a, b, c, d, e, f, g, h].map classify).getD j 0#1 =
          classify ((a :: b :: c :: d :: e :: f :: g :: h :: rest).getD j 0#8) := by
        interval_cases j <;> rfl
      rw [List.getD_cons_zero, Nat.mul_zero, Nat.zero_add, ← hpixel]
      exact getLsbD_packByte ([a, b, c, d, e, f, g, h].map classify) (Nat.le_refl 8) (Nat.lt_succ_of_le hj)
    | succ k =>
      have hrest : k < rest.length / 8 := by simp only [List.length_cons] at hk; omega
      rw [List.getD_cons_succ, ih hrest, show 8 * (k + 1) + j = 8 * k + j + 8 by omega]
      simp only [List.getD_cons_succ]

/-- Settles O42: the length, and the bits of each byte. -/
theorem byteStreamOfRaster : Obligations.ByteStreamOfRaster := by
  unfold Obligations.ByteStreamOfRaster
  exact fun d => ⟨length_bytesOf d, fun k j hk hj => getLsbD_bytesOf d hk hj⟩

end Sys2Proof.Machine
end

section
/-! PROOFS. Decoding, DECF as one recorded result (spec/42_decode.md R160 to R163, R180, R183, R184, R188): the result
as a function of the operands, what the state is after a failure and after a chunk, and what follows for any two. -/

namespace Sys2Proof.Machine

/-! The result that DECF records (R180, R183). -/

/-- The result of a DECF: an error of its dimensions, or `decodeBytes` of the raster's byte stream. -/
def decfResult (s : State) : DecodeResult :=
  if geomValid s.cfg s.width.toNat s.height.toNat = true then
    if s.rwidth = s.width ∧ s.rheight = s.height then
      decodeBytes s.cfg.magic.toList (bytesOf (drastPrefix s (s.width.toNat * s.height.toNat)))
    else .fail .dimensionMismatch false (packDims s.width.toNat s.height.toNat)
      (packDims s.rwidth.toNat s.rheight.toNat)
  else .fail .invalidGeometry false (packDims s.width.toNat s.height.toNat)
    (capBytes s.width.toNat s.height.toNat)

theorem decfResult_of_match {s : State} (hg : geomValid s.cfg s.width.toNat s.height.toNat = true)
    (hw : s.rwidth = s.width) (hh : s.rheight = s.height) :
    decfResult s =
      decodeBytes s.cfg.magic.toList (bytesOf (drastPrefix s (s.width.toNat * s.height.toNat))) := by
  rw [decfResult, if_pos hg, if_pos ⟨hw, hh⟩]

/-- SHORT already clear: clearing it changes nothing. -/
theorem setShort_false_of_clear {w : Word} (h : statusShort w = false) : setShort false w = w :=
  word_ext fun i _ => by
    rw [setShort, getLsbD_setBitField]
    split
    next hi => rw [hi.1]; exact h.symm
    next => rfl

/-- An error of the dimensions is recorded like one of the scan, with SHORT = 0. -/
theorem raise_decfStart (e : ErrCode) (a b : Nat) (s : State) :
    raise e a b (decfStart s) = recordDecode (.fail e false a b) { decfStart s with hidden := s.hidden } := by
  have hshort := setShort_false_of_clear (statusIs_decfStart s).short
  show _ = raise e a b { decfStart s with status := setShort false (decfStart s).status }
  rw [hshort]

/-- DECF records its result on the state after its prologue; only the hidden state depends on more. -/
theorem exec_decf (s : State) :
    ∃ hd, exec .decf s = .next (recordDecode (decfResult s) { decfStart s with hidden := hd }) := by
  obtain ⟨hd, he⟩ := execDecf_cases s
  simp only [raise_decfStart] at he
  rw [decfResult]
  split_ifs at he ⊢
  · exact ⟨hd, he⟩
  · exact ⟨s.hidden, he⟩
  · exact ⟨s.hidden, he⟩

/-- A failure is a real error, and its context fits EINFO (R246). -/
theorem decfResult_fail {s : State} {e : ErrCode} {short : Bool} {a b : Nat}
    (hr : decfResult s = .fail e short a b) : e ≠ .ok ∧ a < 2 ^ 64 ∧ b < 2 ^ 64 := by
  have hcap : capBytes s.width.toNat s.height.toNat < 2 ^ 64 := (capBytes_lt s.width s.height).trans (by decide)
  have hdims : packDims s.width.toNat s.height.toNat < 2 ^ 64 :=
    (packDims_lt s.width s.height).trans (by decide)
  have hrdims : packDims s.rwidth.toNat s.rheight.toNat < 2 ^ 64 :=
    (packDims_lt s.rwidth s.rheight).trans (by decide)
  unfold decfResult at hr
  split at hr
  · split at hr
    · have hlen : (bytesOf (drastPrefix s (s.width.toNat * s.height.toNat))).length < 2 ^ 64 := by
        rw [length_bytesOf, length_drastPrefix]
        exact hcap
      obtain ⟨hne, -, ha, hb⟩ := decodeBytes_fail hlen hr
      exact ⟨hne, ha, hb⟩
    · cases hr
      exact ⟨by decide, hdims, hrdims⟩
  · cases hr
    exact ⟨by decide, hdims, hcap⟩

/-- A chunk fits its registers and the raster (R50 (d)). -/
theorem decfResult_chunk {s : State} {payload : List Byte} {q total size skip : Nat}
    (hr : decfResult s = .chunk payload q total size skip) :
    payload.length = size ∧ size + skip < 2 ^ 32 ∧ q < 2 ^ 32 ∧ total < 2 ^ 64 := by
  unfold decfResult at hr
  split at hr
  · split at hr
    · obtain ⟨-, -, hq, htotal⟩ := decodeBytes_chunk hr
      obtain ⟨hlen, hfit⟩ := decodeBytes_chunk_fits hr
      have hcap := capBytes_lt s.width s.height
      exact ⟨hlen, by omega, hq, htotal⟩
    · cases hr
  · cases hr

/-! The state after a DECF (R180, R181). -/

/-- A number that fits a register is read back from it. -/
theorem toNat_ofNat_of_lt {w n : Nat} (hn : n < 2 ^ w) : (BitVec.ofNat w n).toNat = n :=
  (BitVec.toNat_ofNat n w).trans (Nat.mod_eq_of_lt hn)

/-- A result that is a failure leaves its error and nothing else that the host can see. -/
theorem raised_of_decf_fail {s t : State} {e : ErrCode} {short : Bool} {a b : Nat} (ht : exec .decf s = .next t)
    (hr : decfResult s = .fail e short a b) : Raised t.visible s.visible e short false a b := by
  obtain ⟨hd, he⟩ := exec_decf s
  obtain rfl := Host.Outcome.next.inj (ht.symm.trans he)
  obtain ⟨-, ha, hb⟩ := decfResult_fail hr
  rw [hr]
  exact raised_recordDecode e short ha hb s hd

/-- `t` is `s` after a DECF that decoded a chunk: the payload in OBUF, the result registers, DVALID set, EINFO clear,
and no other visible field changed (R180). -/
structure Decoded (t s : State) (payload : List Byte) (q total size skip : Nat) : Prop where
  length : payload.length = size
  inside : ∀ a, a < size → readObuf t a = payload.getD a 0#8
  outside : ∀ a, size ≤ a → readObuf t a = readObuf s a
  seq : t.dSeq.toNat = q
  total : t.dTotal.toNat = total
  chunk : t.dChunk.toNat = size
  skip : t.dSkip.toNat = skip
  status : StatusIs t.status s.status .ok false true (statusJob s.status) (statusLast s.status)
  rest : t = { s with status := t.status, einfoA := 0#64, einfoB := 0#64, obuf := t.obuf,
                      dSeq := t.dSeq, dTotal := t.dTotal, dChunk := t.dChunk, dSkip := t.dSkip,
                      hidden := t.hidden }

/-- A result that is a chunk is written out whole. -/
theorem decoded_of_decf_chunk {s t : State} {payload : List Byte} {q total size skip : Nat}
    (ht : exec .decf s = .next t) (hr : decfResult s = .chunk payload q total size skip) :
    Decoded t s payload q total size skip := by
  obtain ⟨hd, he⟩ := exec_decf s
  obtain rfl := Host.Outcome.next.inj (ht.symm.trans he)
  obtain ⟨rfl, hfit, hq, htotal⟩ := decfResult_chunk hr
  rw [hr]
  have hread (a : Nat) : readObuf (recordDecode (.chunk payload q total payload.length skip)
      { decfStart s with hidden := hd }) a = if h : a < payload.length then payload[a] else readObuf s a :=
    read_writePrefix _ s.obuf payload a
  refine ⟨rfl, fun a ha => ?_, fun a ha => ?_, ?_, ?_, ?_, ?_, (statusIs_decfStart s).after_setDvalid true, rfl⟩
  · rw [hread, dif_pos ha, List.getD_eq_getElem _ _ ha]
  · rw [hread, dif_neg (Nat.not_lt.mpr ha)]
  · exact toNat_ofNat_of_lt hq
  · exact toNat_ofNat_of_lt htotal
  · exact toNat_ofNat_of_lt (by omega)
  · exact toNat_ofNat_of_lt (by omega)

namespace Decoded
variable {t s : State} {payload : List Byte} {q total size skip : Nat} (h : Decoded t s payload q total size skip)
include h

theorem infoA : t.einfoA = 0#64 := congrArg State.einfoA h.rest

theorem infoB : t.einfoB = 0#64 := congrArg State.einfoB h.rest

/-- The host reads the payload out of OBUF. -/
theorem obufPrefix_eq : obufPrefix t size = payload := by
  refine List.ext_getElem (by rw [length_obufPrefix, h.length]) fun a h1 h2 => ?_
  have hcell : (obufPrefix t size)[a] = readObuf t a := by simp [obufPrefix]
  rw [hcell, h.inside a (h.length ▸ h2), List.getD_eq_getElem _ _ h2]

end Decoded

/-- Settles O44: the result is the closed form, recorded as a failure or as a chunk. -/
theorem decfIsDecodeBytes : Obligations.DecfIsDecodeBytes := by
  unfold Obligations.DecfIsDecodeBytes
  intro s hg hw hh
  obtain ⟨t, ht⟩ := exists_decf s
  refine ⟨t, ht, ?_⟩
  have hresult := decfResult_of_match hg hw hh
  cases hr : decodeBytes s.cfg.magic.toList (bytesOf (drastPrefix s (s.width.toNat * s.height.toNat))) with
  | fail e short a b =>
    rw [hr] at hresult
    exact ⟨(decfResult_fail hresult).1, raised_of_decf_fail ht hresult⟩
  | chunk payload q total size skip =>
    rw [hr] at hresult
    obtain ⟨hlen, hin, hout, hseq, htotal, hchunk, hskip, hstatus, hrest⟩ := decoded_of_decf_chunk ht hresult
    exact ⟨hlen, hin, hout, hseq, htotal, hchunk, hskip, hstatus, hrest⟩

/-! The round trip (R188). -/

/-- The ideal channel delivers every pixel on its own side of the midpoint (R216, R217). -/
theorem tolerable_ideal (r : List Ink) : tolerable r (ideal r) = true := by
  have hside (i : Ink) : (decide ((idealSample i).toNat < 2 ^ (Config.lumaBits - 1)) == decide (i = 1#1)) = true := by
    rcases bit_cases i with rfl | rfl <;> decide
  have hzip : r.zip (ideal r) = r.map fun i => (i, idealSample i) := by
    simpa [ideal] using List.zip_map' (f := id) (g := idealSample) (l := r)
  rw [tolerable, hzip, List.all_map, Bool.and_eq_true, decide_eq_true_eq, List.all_eq_true]
  exact ⟨List.length_map _, fun i _ => hside i⟩

/-- Settles O49: the ideal delivery of a frame decodes to what was encoded, and DECF writes that out. -/
theorem singleFrameRoundTrip : Obligations.SingleFrameRoundTrip := by
  unfold Obligations.SingleFrameRoundTrip
  intro s payload q total hg hw hh hlen hraster
  obtain ⟨t, ht⟩ := exists_decf s
  have hresult : decfResult s = .chunk payload q.toNat total.toNat payload.length 0 := by
    rw [decfResult_of_match hg hw hh, hraster]
    exact decodeBytes_of_tolerable hg hlen (tolerable_ideal _)
  have h := decoded_of_decf_chunk ht hresult
  exact ⟨t, ht, h.status.err, h.status.dvalid, h.obufPrefix_eq, h.chunk, BitVec.eq_of_toNat_eq h.seq,
    BitVec.eq_of_toNat_eq h.total, BitVec.eq_of_toNat_eq h.skip⟩

/-! Other dimensions (R162, R163). -/

/-- An error raised right after the start of DECF is all that changes, hidden state included. -/
theorem raised_raise_decfStart (e : ErrCode) {a b : Nat} (ha : a < 2 ^ 64) (hb : b < 2 ^ 64) (s : State) :
    Raised (raise e a b (decfStart s)) s e false false a b :=
  ⟨(statusIs_decfStart s).after_setErr e, toNat_ofNat_of_lt ha, toNat_ofNat_of_lt hb, rfl⟩

/-- DECF on other dimensions than those of a valid geometry reads no pixel. -/
theorem exec_decf_of_mismatch {s : State} (hg : geomValid s.cfg s.width.toNat s.height.toNat = true)
    (hdims : ¬ (s.rwidth = s.width ∧ s.rheight = s.height)) :
    exec .decf s = .next (raise .dimensionMismatch (packDims s.width.toNat s.height.toNat)
      (packDims s.rwidth.toNat s.rheight.toNat) (decfStart s)) := by
  obtain ⟨hd, he⟩ := execDecf_cases s
  rwa [if_pos hg, if_neg hdims] at he

/-- Settles O45: the mismatch is raised after the start of DECF. -/
theorem decfRejectsOtherDimensions : Obligations.DecfRejectsOtherDimensions := by
  unfold Obligations.DecfRejectsOtherDimensions
  intro s hg hdims
  have hfit (w h : BitVec 16) : packDims w.toNat h.toNat < 2 ^ 64 := (packDims_lt w h).trans (by decide)
  exact ⟨_, exec_decf_of_mismatch hg (not_and_or.mpr hdims),
    raised_raise_decfStart .dimensionMismatch (hfit _ _) (hfit _ _) s⟩

/-! Two DECFs on the same operands (R160, R184). -/

/-- Whatever CTRL holds, DECF records the same result on the same state but for CTRL itself. -/
theorem exec_decf_with_ctrl (s : State) (v : Word) : ∃ hd, exec .decf { s with ctrl := v } =
    .next (recordDecode (decfResult s) { decfStart s with ctrl := v, hidden := hd }) :=
  exec_decf { s with ctrl := v }

/-- Settles O46: the policy is a bit of CTRL, and recording a result neither reads nor writes that. -/
theorem strictnessIsUnobservable : Obligations.StrictnessIsUnobservable := by
  unfold Obligations.StrictnessIsUnobservable
  intro s
  obtain ⟨hd₀, h₀⟩ := exec_decf_with_ctrl s 0#32
  obtain ⟨hd₁, h₁⟩ := exec_decf_with_ctrl s 1#32
  refine ⟨_, _, h₀, h₁, ?_⟩
  cases decfResult s <;> rfl

/-- The result depends on the operands of DECF only. -/
theorem decfResult_congr {s r : State} (hwidth : r.width = s.width) (hheight : r.height = s.height)
    (hrwidth : r.rwidth = s.rwidth) (hrheight : r.rheight = s.rheight) (hdrast : r.drast = s.drast)
    (hdraw : r.draw = s.draw) (hcfg : r.cfg = s.cfg) : decfResult r = decfResult s := by
  have hread : readDrast r = readDrast s := by
    funext p
    rw [readDrast, readDrast, hdrast, hdraw]
  simp only [decfResult, drastPrefix, hread, hwidth, hheight, hrwidth, hrheight, hcfg]

/-- Settles O47: the two DECFs have one result, and each leaves what that says. -/
theorem decfIsIndependentOfTheRest : Obligations.DecfIsIndependentOfTheRest := by
  unfold Obligations.DecfIsIndependentOfTheRest
  intro s r hwidth hheight hrwidth hrheight _ hdrast hdraw hcfg
  obtain ⟨t, ht⟩ := exists_decf s
  obtain ⟨u, hu⟩ := exists_decf r
  refine ⟨t, u, ht, hu, ?_⟩
  have hsame := decfResult_congr hwidth hheight hrwidth hrheight hdrast hdraw hcfg
  cases hr : decfResult s with
  | fail e short a b =>
    have hts := raised_of_decf_fail ht hr
    have hur := raised_of_decf_fail hu (hsame.trans hr)
    obtain ⟨hne, -, -⟩ := decfResult_fail hr
    exact ⟨hts.status.err.trans hur.status.err.symm, hts.status.short.trans hur.status.short.symm,
      hts.status.dvalid.trans hur.status.dvalid.symm, BitVec.eq_of_toNat_eq (hts.infoA.trans hur.infoA.symm),
      BitVec.eq_of_toNat_eq (hts.infoB.trans hur.infoB.symm),
      fun hok => absurd (errNumber_injective (hts.status.err.symm.trans hok)) hne⟩
  | chunk payload q total size skip =>
    have hts := decoded_of_decf_chunk ht hr
    have hur := decoded_of_decf_chunk hu (hsame.trans hr)
    have hpayload : obufPrefix t t.dChunk.toNat = obufPrefix u u.dChunk.toNat := by
      rw [hts.chunk, hur.chunk, hts.obufPrefix_eq, hur.obufPrefix_eq]
    exact ⟨hts.status.err.trans hur.status.err.symm, hts.status.short.trans hur.status.short.symm,
      hts.status.dvalid.trans hur.status.dvalid.symm, hts.infoA.trans hur.infoA.symm, hts.infoB.trans hur.infoB.symm,
      fun _ => ⟨BitVec.eq_of_toNat_eq (hts.seq.trans hur.seq.symm),
        BitVec.eq_of_toNat_eq (hts.total.trans hur.total.symm), BitVec.eq_of_toNat_eq (hts.chunk.trans hur.chunk.symm),
        BitVec.eq_of_toNat_eq (hts.skip.trans hur.skip.symm), hpayload⟩⟩

end Sys2Proof.Machine
end

section
/-! PROOFS. Decoding, displaced and corrupted frames (spec/42_decode.md R185 to R189): the search in a stream that is
cut off, the decode of a window whose header is valid, and headers that agree where the decoder looks. -/

namespace Sys2Proof.Machine

/-! Displaced frames (R185, R187). -/

/-- What is found stays found, at the same offset, in a stream cut off after it. -/
theorem find_take {m s : List Byte} {i n : Nat} (h : find m s = some i) (hn : i + m.length ≤ n) :
    find m (s.take n) = some i := by
  refine find_eq_some ?_ fun j hj hp => not_prefix_of_lt_find h hj ?_
  · rw [List.drop_take]
    exact List.prefix_take_iff.mpr ⟨prefix_drop_of_find h, by omega⟩
  · rw [List.drop_take] at hp
    exact hp.trans (List.take_prefix _ _)

/-- Steps 6 to 8 on a window that starts with a valid header (R178, R179). -/
theorem decodeWindow_of_header {h : List Byte} (tail : List Byte) (skip : Nat) (hlen : h.length = 32)
    (hvalid : hdrValid h = true) :
    decodeWindow (h ++ tail) skip =
      if tail.length < hdrChunk h then .fail .invalidChunkSize false (hdrChunk h) tail.length
      else if (payloadChecksum (tail.take (hdrChunk h))).toNat = hdrPayloadCk h then
        .chunk (tail.take (hdrChunk h)) (hdrSeq h) (hdrTotal h) (hdrChunk h) skip
      else .fail .payloadChecksumMismatch false (hdrPayloadCk h)
        (payloadChecksum (tail.take (hdrChunk h))).toNat := by
  have htake : (h ++ tail).take 32 = h := List.take_left' hlen
  have hslice (n : Nat) : slice (h ++ tail) 32 n = tail.take n := by
    rw [slice, List.drop_left' hlen]
  have hwhole : ¬ (h ++ tail).length < 32 := by rw [List.length_append]; omega
  have hrest : (h ++ tail).length - 32 = tail.length := by rw [List.length_append]; omega
  simp only [decodeWindow, decodePayload, htake, hslice, hvalid, hrest, if_neg hwhole, if_true]

/-- A frame's header, and after it the payload and more, cut off at `k` bytes. -/
theorem decodeWindow_frame_cut {magic payload rest : List Byte} (q : Word) (total : DWord) (skip : Nat) {k : Nat}
    (hm : magic.length = 6) (hlen : payload.length < 2 ^ 32) (hk : k ≤ (payload ++ rest).length) :
    decodeWindow (buildHeader magic payload q total ++ (payload ++ rest).take k) skip =
      if payload.length ≤ k then .chunk payload q.toNat total.toNat payload.length skip
      else .fail .invalidChunkSize false payload.length k := by
  rw [decodeWindow_of_header _ skip (length_buildHeader hm payload q total) (hdrValid_buildHeader hm payload q total),
    hdrChunk_buildHeader hm payload q total hlen, hdrPayloadCk_buildHeader hm, hdrSeq_buildHeader hm,
    hdrTotal_buildHeader hm, List.length_take_of_le hk]
  by_cases hfits : payload.length ≤ k
  · have hpayload : ((payload ++ rest).take k).take payload.length = payload := by
      rw [List.take_take, Nat.min_eq_left hfits, List.take_left]
    rw [if_neg (Nat.not_lt.mpr hfits), if_pos hfits, hpayload, if_pos rfl]
  · rw [if_pos (Nat.lt_of_not_le hfits), if_neg hfits]

/-- Settles O50: the frame's own marker is found, and its window is the frame cut off at the end of the stream. -/
theorem displacedFrameDecodesIfItFits : Obligations.DisplacedFrameDecodesIfItFits := by
  unfold Obligations.DisplacedFrameDecodesIfItFits
  intro magic noise payload rest q total cap hlen hcap hheader hfind
  have hm : magic.toList.length = 6 := magic.length_toList
  have hne : magic.toList ≠ [] := List.ne_nil_of_length_pos (by omega)
  have hfind' : find magic.toList ((noise ++ frameBytes magic.toList payload q total ++ rest).take cap) =
      some noise.length := find_take (find_append_of_some rest hfind hne) (by omega)
  have hwindow : ((noise ++ frameBytes magic.toList payload q total ++ rest).take cap).drop noise.length =
      buildHeader magic.toList payload q total ++ (payload ++ rest).take (cap - noise.length - 32) := by
    rw [List.drop_take, List.append_assoc, List.drop_left, frameBytes, List.append_assoc,
      List.take_append, length_buildHeader hm, List.take_of_length_le (by rw [length_buildHeader hm]; omega)]
  have hk : cap - noise.length - 32 ≤ (payload ++ rest).length := by
    simp only [List.length_append, length_frameBytes hm] at hcap ⊢
    omega
  have hfits : payload.length ≤ cap - noise.length - 32 ↔ noise.length + 32 + payload.length ≤ cap := by omega
  have hdecode := decodeWindow_frame_cut q total noise.length hm hlen hk
  simp only [decodeBytes, decodeBuffer, hfind', hwindow, Nat.zero_add, hdecode, hfits]

/-! Corruption that the decoder does not detect (R189). -/

/-- A slice depends on its own bytes only. -/
theorem slice_congr {s t : List Byte} {a n : Nat} (hlen : s.length = t.length)
    (h : ∀ i, a ≤ i → i < a + n → s.getD i 0#8 = t.getD i 0#8) : slice s a n = slice t a n := by
  refine ext_getD (by rw [length_slice, length_slice, hlen]) fun i hi => ?_
  rw [length_slice] at hi
  rw [getD_slice, getD_slice, h (a + i) (by omega) (by omega)]

/-- Settles O51: none of the six bytes is in the marker, the chunk size or the payload checksum, and none is covered by
the header checksum. -/
theorem uncoveredHeaderBytesPass : Obligations.UncoveredHeaderBytesPass := by
  unfold Obligations.UncoveredHeaderBytesPass
  intro magic payload rest q total h hlen hh hagree
  have hm : magic.toList.length = 6 := magic.length_toList
  have hbuilt := length_buildHeader hm payload q total
  have hlengths : h.length = (buildHeader magic.toList payload q total).length := hh.trans hbuilt.symm
  have hbyte (i : Nat) (hi : i < 32) (hout : i < 6 ∨ i % 4 < 2 ∨ 16 ≤ i) :
      h.getD i 0#8 = (buildHeader magic.toList payload q total).getD i 0#8 :=
    hagree i hi (by simp only [List.mem_cons, List.not_mem_nil, or_false]; omega)
  have hmarker : slice h 0 magic.toList.length = magic.toList := by
    rw [hm, slice_congr hlengths fun i _ hi => hbyte i (by omega) (.inl (by omega)), slice_magic hm]
  have hvalid : hdrValid h = true := by
    rw [hdrValid_congr hh hbuilt (fun i hi hk => hbyte i hi (.inr (.inl hk)))
      fun k hk => hbyte (30 + k) (by omega) (.inr (.inr (by omega))), hdrValid_buildHeader hm]
  have hchunk : hdrChunk h = payload.length := by
    rw [← hdrChunk_buildHeader hm payload q total hlen, hdrChunk, hdrChunk, show offChunk = 18 from rfl,
      slice_congr hlengths fun i h1 h2 => hbyte i (by omega) (.inr (.inr (by omega)))]
  have hpay : hdrPayloadCk h = (payloadChecksum payload).toNat := by
    rw [← hdrPayloadCk_buildHeader hm payload q total, hdrPayloadCk, hdrPayloadCk, show offPay = 22 from rfl,
      slice_congr hlengths fun i h1 h2 => hbyte i (by omega) (.inr (.inr (by omega)))]
  have hprefix : magic.toList <+: h := by simpa using slice_eq_iff_prefix_drop.mp hmarker
  exact decodeBytes_of_header rest hh hprefix hvalid hchunk hpay

end Sys2Proof.Machine
end

section
/-! PROOFS. System (spec/43_system.md R200, R201, R203): a command sees its own prologue and no earlier error, the
geometry error that ENCF, ENCB and DECF share, and what CLR leaves. -/

namespace Sys2Proof.Machine

/-! The prologue discards what an earlier command recorded (R201). -/

/-- ERR and SHORT are cleared whatever was last set in them. -/
theorem setShort_setErr_discard (b b' : Bool) (e e' : ErrCode) (w : Word) :
    setShort b (setErr e (setErr e' (setShort b' w))) = setShort b (setErr e w) :=
  word_ext fun i _ => by
    simp only [setShort, getLsbD_setBitField, getLsbD_setErr]
    split_ifs <;> rfl

/-- After the prologue nothing is left of an earlier ERR, SHORT, EINFO_A or EINFO_B. -/
theorem prologue_with_error (s : State) (e : ErrCode) (short : Bool) (a b : DWord) :
    prologue { s with status := setErr e (setShort short s.status), einfoA := a, einfoB := b } = prologue s := by
  simp only [prologue, setShort_setErr_discard]

/-- CLR overwrites what the prologue overwrites. -/
theorem exec_clr_prologue (s : State) : exec .clr (prologue s) = exec .clr s := rfl

/-- A command starts with the prologue, or is CLR: states with the same prologue have the same outcome. -/
theorem exec_congr_prologue {r s : State} (h : prologue r = prologue s) (i : Instr) : exec i r = exec i s := by
  cases i with
  | hck => simp only [exec, execHck, h]
  | crc => simp only [exec, execCrc, h]
  | encf => simp only [exec, execEncf, h]
  | encb => simp only [exec, execEncb, h]
  | encn => simp only [exec, execEncn, h]
  | decf => simp only [exec, execDecf, h]
  | clr => rw [← exec_clr_prologue r, h, exec_clr_prologue]

/-- The same for any command word: the illegal command starts with the prologue too (R202). -/
theorem runCommand_congr_prologue {r s : State} (h : prologue r = prologue s) (c : Word) :
    runCommand c r = runCommand c s := by
  unfold runCommand
  split
  · exact exec_congr_prologue h _
  · rw [execIllegal, h, execIllegal]

/-- Settles O18: every command ends, and states that differ in an earlier error only have the same prologue. -/
theorem statusIsNotSticky : Obligations.StatusIsNotSticky := by
  unfold Obligations.StatusIsNotSticky
  intro c s e short a b
  obtain ⟨t, ht, -⟩ := everyCommandCompletes c s
  exact ⟨t, ht, (runCommand_congr_prologue (prologue_with_error s e short a b) c).trans ht⟩

/-! The geometry error (R203, R205). -/

/-- The context of InvalidGeometry fits EINFO (R246). -/
theorem geometry_context_lt (w h : BitVec 16) :
    packDims w.toNat h.toNat < 2 ^ 64 ∧ capBytes w.toNat h.toNat < 2 ^ 64 :=
  ⟨(packDims_lt w h).trans (by decide), (capBytes_lt w h).trans (by decide)⟩

/-- An invalid geometry right after the prologue: InvalidGeometry, and nothing else changes, in ENCF as in ENCB. -/
theorem raised_withGeometry {s : State} (k : Nat → Nat → State)
    (hg : geomValid s.cfg s.width.toNat s.height.toNat = false) :
    Raised (withGeometry (prologue s) k) s .invalidGeometry false (statusDvalid s.status)
      (packDims s.width.toNat s.height.toNat) (capBytes s.width.toNat s.height.toNat) := by
  obtain ⟨hdims, hcap⟩ := geometry_context_lt s.width s.height
  have heq := withGeometry_of_invalid (s := prologue s) k hg
  exact heq ▸ raised_raise .invalidGeometry hdims hcap s

/-- DECF at an invalid geometry compares no dimensions and reads no pixel. -/
theorem exec_decf_of_invalid {s : State} (hg : geomValid s.cfg s.width.toNat s.height.toNat = false) :
    exec .decf s = .next (raise .invalidGeometry (packDims s.width.toNat s.height.toNat)
      (capBytes s.width.toNat s.height.toNat) (decfStart s)) :=
  congrArg Host.Outcome.next (withGeometry_of_invalid (s := decfStart s) _ hg)

/-- Settles O31: the geometry check comes right after the prologue, in DECF right after DVALID is cleared. -/
theorem invalidGeometryIsReported : Obligations.InvalidGeometryIsReported := by
  unfold Obligations.InvalidGeometryIsReported
  intro s hg
  obtain ⟨hdims, hcap⟩ := geometry_context_lt s.width s.height
  exact ⟨⟨_, rfl, raised_withGeometry _ hg⟩, ⟨_, rfl, raised_withGeometry _ hg⟩,
    ⟨_, exec_decf_of_invalid hg, raised_raise_decfStart .invalidGeometry hdims hcap s⟩⟩

/-! CLR (R200). -/

/-- What CLR leaves: the reset state but for what no command writes, OBUF, ERAST and the hidden state. -/
def State.cleared (s : State) : State :=
  { s.operands with obuf := s.obuf, erast := s.erast, hidden := s.hidden }

/-- CLR returns every block-written register to its reset value. -/
theorem exec_clr (s : State) : exec .clr s = .next s.cleared := rfl

/-- A second CLR finds nothing to clear. -/
theorem cleared_cleared (s : State) : s.cleared.cleared = s.cleared := rfl

/-- CLR leaves no job, so J_NEXT reads 0 (R37). -/
theorem readRegister_jNext_cleared (s : State) : readRegister .jNext s.cleared = 0#64 := by
  have hjob : ¬ statusJob s.cleared.status = true := show ¬ statusJob 0#32 = true by decide
  rw [readRegister, jnextValue, if_neg hjob]

/-- CLR leaves every host-written register as it reads. -/
theorem readRegister_cleared {r : Reg} (hr : r.hostWritable = true) (s : State) :
    readRegister r s.cleared = readRegister r s := by
  cases r
  case ctrl | width | height | rwidth | rheight | len | seq | total => rfl
  all_goals cases hr

/-- CLR leaves every cell of the four memories as it reads. -/
theorem readCell_cleared (sp : Space) (a : Nat) (s : State) : readCell sp a s.cleared = readCell sp a s := by
  cases sp <;> rfl

/-- Settles O52: every field of the cleared state is its reset value or the value before. -/
theorem clrClearsResults : Obligations.ClrClearsResults := by
  unfold Obligations.ClrClearsResults
  intro s
  refine ⟨s.cleared, exec_clr s, ?status, ?ck4, ?crc, ?dSeq, ?dTotal, ?dChunk, ?dSkip, ?jSeq, ?jTotal, ?jRemain,
    ?jWidth, ?jHeight, ?einfoA, ?einfoB, readRegister_jNext_cleared s, ?maxpay,
    fun _ hr => readRegister_cleared hr s, fun sp a => readCell_cleared sp a s, ?hidden, ?cfg, ?draw, ?script,
    ?rdata, (exec_clr s.cleared).trans (congrArg _ (cleared_cleared s))⟩
  all_goals rfl

end Sys2Proof.Machine
end

section
/-! PROOFS. The host contract, the reconstruction assembler (spec/45_host_job_contract.md R220 to R224, R228 to R230):
what it holds after any feeds of one job's chunks, and what `asm_finish` makes of it. -/

namespace Sys2Proof.Machine

/-! One feed (R222, R228). -/

/-- What the assembler keeps of a chunk: its payload under its sequence (R220). -/
def Chunk.entry (c : Chunk) : Word × List Byte := (c.sequence, c.payload)

theorem asmFeed_of_seen {a : Assembler} {c : Chunk} (h : c.sequence ∈ a.seen) : asmFeed a c = a := if_pos h

theorem asmFeed_of_new {a : Assembler} {c : Chunk} (h : c.sequence ∉ a.seen) :
    asmFeed a c = ⟨insertSeen c.sequence a.seen, insertChunk c.sequence c.payload a.chunks,
      some (a.totalSize.getD c.totalSize)⟩ := if_neg h

theorem mem_insertSeen {q x : Word} {seen : List Word} : x ∈ insertSeen q seen ↔ x = q ∨ x ∈ seen := by
  induction seen with
  | nil => simp [insertSeen]
  | cons y rest ih =>
    rw [insertSeen]
    split
    next => exact List.mem_cons
    next => rw [List.mem_cons, ih, List.mem_cons, or_left_comm]

/-- After a feed the sequence is seen. -/
theorem sequence_mem_seen_asmFeed (a : Assembler) (c : Chunk) : c.sequence ∈ (asmFeed a c).seen := by
  by_cases h : c.sequence ∈ a.seen
  · rwa [asmFeed_of_seen h]
  · rw [asmFeed_of_new h]
    exact mem_insertSeen.mpr (.inl rfl)

/-- Settles O54: after the first feed the sequence is seen. -/
theorem feedingTwiceIsFeedingOnce : Obligations.FeedingTwiceIsFeedingOnce := by
  unfold Obligations.FeedingTwiceIsFeedingOnce
  exact fun a c => asmFeed_of_seen (sequence_mem_seen_asmFeed a c)

/-! Any number of feeds of one job's chunks (R222, R229). -/

/-- Payloads ordered by sequence, none twice (R220). -/
def Ascending (l : List (Word × List Byte)) : Prop := l.Pairwise fun x y => x.1.toNat < y.1.toNat

/-- Two such lists with the same members are the same. -/
theorem Ascending.eq_of_mem_iff {l l' : List (Word × List Byte)} (h : Ascending l) (h' : Ascending l')
    (hmem : ∀ x, x ∈ l ↔ x ∈ l') : l = l' := by
  have hirrefl : Std.Irrefl fun x y : Word × List Byte => x.1.toNat < y.1.toNat := ⟨fun _ => Nat.lt_irrefl _⟩
  have hantisymm : Std.Antisymm fun x y : Word × List Byte => x.1.toNat < y.1.toNat :=
    ⟨fun _ _ hxy hyx => absurd hyx (Nat.lt_asymm hxy)⟩
  exact List.Pairwise.eq_of_mem_iff h h' hmem

theorem mem_insertChunk {q : Word} {payload : List Byte} {x : Word × List Byte} {l : List (Word × List Byte)} :
    x ∈ insertChunk q payload l ↔ x = (q, payload) ∨ x ∈ l := by
  induction l with
  | nil => simp [insertChunk]
  | cons y rest ih =>
    rw [insertChunk]
    split
    next => exact List.mem_cons
    next => rw [List.mem_cons, ih, List.mem_cons, or_left_comm]

/-- The two sets of R220 grow alike. -/
theorem map_fst_insertChunk (q : Word) (payload : List Byte) (l : List (Word × List Byte)) :
    (insertChunk q payload l).map Prod.fst = insertSeen q (l.map Prod.fst) := by
  induction l with
  | nil => rfl
  | cons y rest ih =>
    rw [insertChunk, List.map_cons, insertSeen]
    split
    next => rfl
    next => rw [List.map_cons, ih]

/-- A payload under a new sequence finds its place. -/
theorem Ascending.insertChunk {q : Word} {payload : List Byte} {l : List (Word × List Byte)} (h : Ascending l)
    (hnew : q ∉ l.map Prod.fst) : Ascending (insertChunk q payload l) := by
  induction l with
  | nil => exact List.pairwise_singleton _ _
  | cons y rest ih =>
    obtain ⟨hfirst, hrest⟩ := List.pairwise_cons.mp h
    rw [List.map_cons, List.mem_cons, not_or] at hnew
    obtain ⟨hne, hnew⟩ := hnew
    rw [Machine.insertChunk]
    split
    next hlt =>
      refine List.pairwise_cons.mpr ⟨fun x hx => ?_, h⟩
      rcases List.mem_cons.mp hx with rfl | hx
      · exact hlt
      · exact Nat.lt_trans hlt (hfirst x hx)
    next hge =>
      refine List.pairwise_cons.mpr ⟨fun x hx => ?_, ih hrest hnew⟩
      rcases mem_insertChunk.mp hx with rfl | hx
      · exact Nat.lt_of_le_of_ne (Nat.not_lt.mp hge) fun heq => hne (BitVec.eq_of_toNat_eq heq.symm)
      · exact hfirst x hx

/-- Chunks of one job: all carry the totalSize `total`, and no two different ones share a sequence (R229). -/
structure OneJob (cs : List Chunk) (total : DWord) : Prop where
  total : ∀ c ∈ cs, c.totalSize = total
  unique : ∀ c ∈ cs, ∀ d ∈ cs, c.sequence = d.sequence → c = d

/-- The assembler `a` holds the chunks `cs` of one job of `total` bytes, and nothing else. -/
structure Assembler.Holds (a : Assembler) (cs : List Chunk) (total : DWord) : Prop where
  seen : a.seen = a.chunks.map Prod.fst
  ascending : Ascending a.chunks
  mem : ∀ x, x ∈ a.chunks ↔ ∃ c ∈ cs, c.entry = x
  total : a.totalSize = if cs = [] then none else some total

theorem Assembler.holds_empty (total : DWord) : Assembler.empty.Holds [] total :=
  ⟨rfl, .nil, by simp [Assembler.empty], rfl⟩

/-- One more feed: the chunk is there already, or it is added. -/
theorem Assembler.Holds.asmFeed {a : Assembler} {cs : List Chunk} {c : Chunk} {total : DWord} (ha : a.Holds cs total)
    (hjob : OneJob (cs ++ [c]) total) : (asmFeed a c).Holds (cs ++ [c]) total := by
  have hc : c ∈ cs ++ [c] := List.mem_append_right cs List.mem_cons_self
  have hne : cs ++ [c] ≠ [] := List.ne_nil_of_mem hc
  have hgrow : ∀ x, (∃ d ∈ cs ++ [c], d.entry = x) ↔ x = c.entry ∨ x ∈ a.chunks := fun x => by
    simp only [List.mem_append, List.mem_singleton, or_and_right, exists_or, exists_eq_left, ha.mem, or_comm,
      eq_comm (a := x)]
  by_cases hseen : c.sequence ∈ a.seen
  · rw [asmFeed_of_seen hseen]
    rw [ha.seen, List.mem_map] at hseen
    obtain ⟨x, hx, hsequence⟩ := hseen
    obtain ⟨d, hd, rfl⟩ := (ha.mem x).mp hx
    obtain rfl := hjob.unique d (List.mem_append_left [c] hd) c hc hsequence
    refine ⟨ha.seen, ha.ascending, fun x => ?_, ?_⟩
    · rw [hgrow]
      exact ⟨.inr, fun h => h.elim (fun heq => heq ▸ hx) id⟩
    · rw [ha.total, if_neg (List.ne_nil_of_mem hd), if_neg hne]
  · rw [asmFeed_of_new hseen]
    rw [ha.seen] at hseen ⊢
    refine ⟨(map_fst_insertChunk _ _ _).symm, ha.ascending.insertChunk hseen, fun x => ?_, ?_⟩
    · rw [hgrow]
      exact mem_insertChunk
    · rw [if_neg hne, ha.total, hjob.total c hc]
      split <;> rfl

/-- After any feeds of chunks of one job the assembler holds them. -/
theorem holds_foldl_asmFeed {cs : List Chunk} {total : DWord} (hjob : OneJob cs total) :
    (cs.foldl asmFeed Assembler.empty).Holds cs total := by
  induction cs using List.reverseRecOn with
  | nil => exact Assembler.holds_empty total
  | append_singleton cs c ih =>
    have hfirst : OneJob cs total := ⟨fun d hd => hjob.total d (List.mem_append_left _ hd),
      fun d hd e he => hjob.unique d (List.mem_append_left _ hd) e (List.mem_append_left _ he)⟩
    rw [List.foldl_append]
    exact (ih hfirst).asmFeed hjob

/-- What it holds is one state, whatever the order of the feeds and the duplicates (R229). -/
theorem Assembler.Holds.eq_of_mem_iff {a b : Assembler} {cs ds : List Chunk} {total : DWord} (ha : a.Holds cs total)
    (hb : b.Holds ds total) (hmem : ∀ c, c ∈ cs ↔ c ∈ ds) : a = b := by
  have hchunks : a.chunks = b.chunks := ha.ascending.eq_of_mem_iff hb.ascending fun x => by
    simp only [ha.mem, hb.mem, hmem]
  have hseen : a.seen = b.seen := by rw [ha.seen, hb.seen, hchunks]
  have hnil : cs = [] ↔ ds = [] := by simp only [List.eq_nil_iff_forall_not_mem, hmem]
  have htotal : a.totalSize = b.totalSize := by rw [ha.total, hb.total]; simp only [hnil]
  calc a
    _ = ⟨a.seen, a.chunks, a.totalSize⟩ := rfl
    _ = b := by rw [hseen, hchunks, htotal]

/-- Settles O55: the two lists of feeds leave one and the same assembler. -/
theorem assemblyIsOrderIndependent : Obligations.AssemblyIsOrderIndependent := by
  unfold Obligations.AssemblyIsOrderIndependent
  intro gapCheck cs ds hmem htotal hunique
  cases cs with
  | nil =>
    have hds : ds = [] := List.eq_nil_iff_forall_not_mem.mpr fun c hc => List.not_mem_nil ((hmem c).mpr hc)
    rw [hds]
  | cons c cs =>
    have hcs : OneJob (c :: cs) c.totalSize := ⟨fun d hd => htotal d hd c List.mem_cons_self, hunique⟩
    have hds : OneJob ds c.totalSize := ⟨fun d hd => hcs.total d ((hmem d).mpr hd),
      fun d hd e he => hunique d ((hmem d).mpr hd) e ((hmem e).mpr he)⟩
    rw [(holds_foldl_asmFeed hcs).eq_of_mem_iff (holds_foldl_asmFeed hds) hmem]

/-! The finish (R223, R224). -/

/-- `asm_finish` on an assembler that has seen a chunk and, where the host looks for a gap, has none. -/
theorem asmFinish_of_no_gap {gapCheck : Bool} {a : Assembler} {total : DWord} (htotal : a.totalSize = some total)
    (hseen : a.seen ≠ []) (hgap : gapCheck = true → firstGap 0 a.seen = none) :
    asmFinish gapCheck a =
      if (a.chunks.flatMap (·.2)).length < total.toNat then
        .error (.incompleteReconstruction total.toNat (a.chunks.flatMap (·.2)).length)
      else .ok ((a.chunks.flatMap (·.2)).take total.toNat) := by
  have hnone : (if gapCheck = true then firstGap 0 a.seen else none) = none := by
    split
    next h => exact hgap h
    next => rfl
  simp only [asmFinish, htotal, if_neg hseen, hnone]

/-- The sequences from `k` on, without a gap. -/
theorem firstGap_range' {k n : Nat} (h : k + n ≤ 2 ^ 32) :
    firstGap k ((List.range' k n).map (BitVec.ofNat 32)) = none := by
  induction n generalizing k with
  | zero => rfl
  | succ n ih =>
    have hk : (BitVec.ofNat 32 k).toNat = k := (BitVec.toNat_ofNat k 32).trans (Nat.mod_eq_of_lt (by omega))
    rw [List.range'_succ, List.map_cons, firstGap, if_pos hk]
    exact ih (by omega)

/-! The chunks of an encoded input (R140, R230). -/

/-- Chunk `k` of the job on `data` with `m` bytes a frame, as the host reads it out (R221). -/
def jobChunkAt (data : List Byte) (m k : Nat) : Chunk :=
  ⟨BitVec.ofNat 32 k, jobChunk data m k, BitVec.ofNat 64 data.length⟩

section
variable {data : List Byte} {m : Nat} {ks : List Nat} {cs : List Chunk}

/-- They are the chunks of one job while the sequence counter holds their numbers. -/
theorem oneJob_of_jobChunkAt (hks : ∀ k ∈ ks, k < 2 ^ 32) (hcs : ∀ c, c ∈ cs ↔ ∃ k ∈ ks, jobChunkAt data m k = c) :
    OneJob cs (BitVec.ofNat 64 data.length) := by
  refine ⟨fun c hc => ?_, fun c hc d hd hsequence => ?_⟩
  · obtain ⟨k, -, rfl⟩ := (hcs c).mp hc
    rfl
  · obtain ⟨k, hk, rfl⟩ := (hcs c).mp hc
    obtain ⟨j, hj, rfl⟩ := (hcs d).mp hd
    have hmod : k % 2 ^ 32 = j % 2 ^ 32 := congrArg BitVec.toNat hsequence
    rw [Nat.mod_eq_of_lt (hks k hk), Nat.mod_eq_of_lt (hks j hj)] at hmod
    rw [hmod]

/-- In the order of their numbers they ascend. -/
theorem ascending_map_jobChunkAt (hks : ∀ k ∈ ks, k < 2 ^ 32) (hsorted : ks.Pairwise (· < ·)) :
    Ascending (ks.map fun k => (jobChunkAt data m k).entry) := by
  refine List.pairwise_map.mpr (hsorted.imp_of_mem fun {j k} hj hk hlt => ?_)
  show j % 2 ^ 32 < k % 2 ^ 32
  rwa [Nat.mod_eq_of_lt (hks j hj), Nat.mod_eq_of_lt (hks k hk)]

/-- Fed in any order and with any duplicates, the chunks `ks` stand in the assembler in the order of their numbers. -/
theorem chunks_foldl_asmFeed (hks : ∀ k ∈ ks, k < 2 ^ 32) (hsorted : ks.Pairwise (· < ·))
    (hcs : ∀ c, c ∈ cs ↔ ∃ k ∈ ks, jobChunkAt data m k = c) :
    (cs.foldl asmFeed Assembler.empty).chunks = ks.map fun k => (jobChunkAt data m k).entry := by
  have ha := holds_foldl_asmFeed (oneJob_of_jobChunkAt hks hcs)
  refine ha.ascending.eq_of_mem_iff (ascending_map_jobChunkAt hks hsorted) fun x => ?_
  rw [ha.mem, List.mem_map]
  constructor
  · rintro ⟨c, hc, rfl⟩
    obtain ⟨k, hk, rfl⟩ := (hcs c).mp hc
    exact ⟨k, hk, rfl⟩
  · rintro ⟨k, hk, rfl⟩
    exact ⟨_, (hcs _).mpr ⟨k, hk, rfl⟩, rfl⟩

/-- The chunks `ks` of a job, fed in any order and with any duplicates, and finished: their bytes in sequence order,
if they are enough. -/
theorem asmFinish_jobChunks (hlen : data.length < 2 ^ 64) (hks : ∀ k ∈ ks, k < 2 ^ 32)
    (hsorted : ks.Pairwise (· < ·)) (hne : ks ≠ []) (hcs : ∀ c, c ∈ cs ↔ ∃ k ∈ ks, jobChunkAt data m k = c)
    {gapCheck : Bool} (hgap : gapCheck = true → firstGap 0 (ks.map (BitVec.ofNat 32)) = none) :
    asmFinish gapCheck (cs.foldl asmFeed Assembler.empty) =
      if (ks.flatMap (jobChunk data m)).length < data.length then
        .error (.incompleteReconstruction data.length (ks.flatMap (jobChunk data m)).length)
      else .ok ((ks.flatMap (jobChunk data m)).take data.length) := by
  have ha := holds_foldl_asmFeed (oneJob_of_jobChunkAt hks hcs)
  have hchunks := chunks_foldl_asmFeed hks hsorted hcs
  have hseen : (cs.foldl asmFeed Assembler.empty).seen = ks.map (BitVec.ofNat 32) := by
    rw [ha.seen, hchunks, List.map_map]
    rfl
  have hbytes : (ks.map fun k => (jobChunkAt data m k).entry).flatMap (·.2) = ks.flatMap (jobChunk data m) :=
    List.flatMap_map ..
  have htotal : (cs.foldl asmFeed Assembler.empty).totalSize = some (BitVec.ofNat 64 data.length) := by
    obtain ⟨k, hk⟩ := List.exists_mem_of_ne_nil ks hne
    rw [ha.total, if_neg (List.ne_nil_of_mem ((hcs _).mpr ⟨k, hk, rfl⟩))]
  rw [asmFinish_of_no_gap htotal (by rwa [hseen, ne_eq, List.map_eq_nil_iff]) (by rwa [hseen]), hchunks, hbytes,
    toNat_ofNat_64 hlen]

/-- Some but not all of the chunks are shorter than the input. -/
theorem length_flatMap_filter_lt (hm : 0 < m) {k : Nat} (hk : k < jobFrames data.length m) {p : Nat → Bool}
    (hp : p k = false) :
    (((List.range (jobFrames data.length m)).filter p).flatMap (jobChunk data m)).length < data.length := by
  obtain ⟨hwhole, hpart⟩ := chunksReproduceInput data m hm
  have hsplit := ((List.filter_append_perm p (List.range (jobFrames data.length m))).flatMap_right
    (jobChunk data m)).length_eq
  rw [hwhole, List.flatMap_append, List.length_append] at hsplit
  have hmissing : k ∈ (List.range (jobFrames data.length m)).filter fun i => !p i :=
    List.mem_filter.mpr ⟨List.mem_range.mpr hk, by rw [hp]; rfl⟩
  have hle := ((List.singleton_sublist.mpr hmissing).flatMap (jobChunk data m)).length_le
  rw [List.flatMap_singleton] at hle
  obtain ⟨hpos, -⟩ := hpart k hk
  omega

end

/-- Settles O56: the bytes that are there, in sequence order, are fewer than the input's. -/
theorem missingFrameFails : Obligations.MissingFrameFails := by
  unfold Obligations.MissingFrameFails
  rintro data m ks hm hlen hframes hne hks ⟨k, hk, hmissing⟩
  have hshort := length_flatMap_filter_lt (data := data) (p := (· ∈ ks)) hm hk (decide_eq_false hmissing)
  refine ⟨_, hshort, rfl, ?_⟩
  have hmem : ∀ i, i ∈ (List.range (jobFrames data.length m)).filter (· ∈ ks) ↔ i ∈ ks := fun i => by
    simpa using hks i
  have hcs : ∀ c, c ∈ ks.map (jobChunkAt data m) ↔
      ∃ i ∈ (List.range (jobFrames data.length m)).filter (· ∈ ks), jobChunkAt data m i = c := fun c => by
    simp only [hmem, List.mem_map]
  obtain ⟨j, hj⟩ := List.exists_mem_of_ne_nil ks hne
  have hfinish := asmFinish_jobChunks hlen (fun i hi => (hks i ((hmem i).mp hi)).trans_le hframes)
    (List.pairwise_lt_range.filter _) (List.ne_nil_of_mem ((hmem j).mpr hj)) hcs (gapCheck := false) nofun
  exact hfinish.trans (if_pos hshort)

end Sys2Proof.Machine
end

section
/-! PROOFS. The host contract, the round trip (spec/45_host_job_contract.md R216, R217, R221, R227): what a tolerable
channel leaves of a job, the host's checks of its chunks, and the assembled input. -/

namespace Sys2Proof.Machine

/-! The channel (R216, R217). -/

/-- Settles O53: only the classified bits of a delivery matter, and they are the raster's. -/
theorem tolerableChannelLosesNothing : Obligations.TolerableChannelLosesNothing := by
  unfold Obligations.TolerableChannelLosesNothing
  have hideal (r : List Ink) : (ideal r).map classify = r := map_classify_of_tolerable (tolerable_ideal r)
  exact ⟨fun r d hd => bytesOf_congr ((map_classify_of_tolerable hd).trans (hideal r).symm),
    fun r => ⟨tolerable_ideal r, hideal r⟩⟩

/-! The host's checks (R286). -/

/-- A plausible chunk of the totalSize that is recorded, if one is, passes whatever checks are made. -/
theorem feedChecked_of_passes {m : Nat} {a : Assembler} {c : Chunk} (o : HostOptions)
    (hplausible : plausibleSequence m c = true) (htotal : ∀ t ∈ a.totalSize, t = c.totalSize) :
    feedChecked o m a c = .ok (asmFeed a c) := by
  have hother : (if o.totalCheck = true then otherTotal a c else none) = none := by
    split
    next => exact Option.filter_eq_none_iff.mpr fun t ht => by simp [htotal t ht]
    next => rfl
  simp only [feedChecked, hplausible, Bool.not_true, Bool.and_false, Bool.false_eq_true, if_false, hother]

/-- A feed records the totalSize of its chunk or keeps the one recorded (R222). -/
theorem totalSize_asmFeed {a : Assembler} {c : Chunk} {t : DWord} (ht : t ∈ (asmFeed a c).totalSize) :
    t ∈ a.totalSize ∨ t = c.totalSize := by
  by_cases hseen : c.sequence ∈ a.seen
  · rw [asmFeed_of_seen hseen] at ht
    exact .inl ht
  · rw [asmFeed_of_new hseen] at ht
    obtain rfl := Option.some.inj ht
    cases a.totalSize with
    | none => exact .inr rfl
    | some u => exact .inl rfl

/-- Plausible chunks of one totalSize are all fed, whatever checks the host makes. -/
theorem foldlM_feedChecked_of_passes (o : HostOptions) {m : Nat} {cs : List Chunk} {total : DWord}
    (hplausible : ∀ c ∈ cs, plausibleSequence m c = true) (htotal : ∀ c ∈ cs, c.totalSize = total) {a : Assembler}
    (ha : ∀ t ∈ a.totalSize, t = total) : cs.foldlM (feedChecked o m) a = .ok (cs.foldl asmFeed a) := by
  induction cs generalizing a with
  | nil => rfl
  | cons c rest ih =>
    obtain ⟨hc, hrest⟩ := List.forall_mem_cons.mp htotal
    obtain ⟨hp, hprest⟩ := List.forall_mem_cons.mp hplausible
    rw [List.foldlM_cons, feedChecked_of_passes o hp fun t ht => (ha t ht).trans hc.symm, List.foldl_cons]
    exact ih hprest hrest fun t ht => (totalSize_asmFeed ht).elim (ha t) fun heq => heq.trans hc

/-- The chunks of a job are plausible (R286). -/
theorem plausibleSequence_jobChunkAt {data : List Byte} {m k : Nat} (hlen : data.length < 2 ^ 64)
    (hk : k < jobFrames data.length m) : plausibleSequence m (jobChunkAt data m k) = true := by
  refine decide_eq_true ?_
  show k % 2 ^ 32 < jobFrames (BitVec.ofNat 64 data.length).toNat m
  rw [toNat_ofNat_64 hlen]
  exact (Nat.mod_le _ _).trans_lt hk

/-! The round trip (R227). -/

/-- The chunks that the rasters of a tolerable channel give are those of the job, each at least once. -/
theorem mem_chunks_of_tolerableChannel {c : Config.Params} {data : List Byte} {w h : BitVec 16} {rs : List Raster}
    {ks : List Nat} (hg : geomValid c w.toNat h.toNat = true)
    (hrs : tolerableChannel c.magic.toList w h
      (ks.map fun k => (jobFrame c.magic.toList data w.toNat h.toNat k).ink) rs)
    (d : Chunk) : d ∈ rs.filterMap (rasterChunk c.magic.toList w h) ↔
      ∃ k ∈ ks, jobChunkAt data (maxPayload w.toNat h.toNat) k = d := by
  obtain ⟨hsome, hall⟩ := hrs
  have hcopy : ∀ {k : Nat} {r : Raster},
      tolerableCopy w h (jobFrame c.magic.toList data w.toNat h.toNat k).ink r = true →
      rasterChunk c.magic.toList w h r = some (jobChunkAt data (maxPayload w.toNat h.toNat) k) :=
    fun hr => rasterChunk_of_copy hg (length_jobChunk_le _ _ _) hr
  rw [List.mem_filterMap]
  constructor
  · rintro ⟨r, hr, hd⟩
    rcases hall r hr with ⟨f, hf, hf'⟩ | hrej
    · obtain ⟨k, hk, rfl⟩ := List.mem_map.mp hf
      exact ⟨k, hk, Option.some.inj ((hcopy hf').symm.trans hd)⟩
    · rw [rasterChunk_of_rejected hrej] at hd
      cases hd
  · rintro ⟨k, hk, rfl⟩
    obtain ⟨r, hr, hr'⟩ := hsome _ (List.mem_map_of_mem hk)
    exact ⟨r, hr, hcopy hr'⟩

/-- All chunks of a job, fed behind the host's checks and assembled: the input, or no valid frame when it is empty
(R223). -/
theorem assemble_jobChunks (o : HostOptions) {data : List Byte} {m : Nat} {cs : List Chunk} (hm : 0 < m)
    (hlen : data.length < 2 ^ 64) (hframes : jobFrames data.length m ≤ 2 ^ 32)
    (hcs : ∀ c, c ∈ cs ↔ ∃ k ∈ List.range (jobFrames data.length m), jobChunkAt data m k = c) :
    (cs.foldlM (feedChecked o m) Assembler.empty >>= asmFinish o.gapCheck) =
      if data = [] then .error .noValidFrames else .ok data := by
  obtain ⟨hwhole, -⟩ := chunksReproduceInput data m hm
  have hbound : ∀ k ∈ List.range (jobFrames data.length m), k < 2 ^ 32 := fun k hk =>
    (List.mem_range.mp hk).trans_le hframes
  have hplausible : ∀ c ∈ cs, plausibleSequence m c = true := fun c hc => by
    obtain ⟨k, hk, rfl⟩ := (hcs c).mp hc
    exact plausibleSequence_jobChunkAt hlen (List.mem_range.mp hk)
  have hfed := foldlM_feedChecked_of_passes o hplausible (oneJob_of_jobChunkAt hbound hcs).total
    (a := Assembler.empty) fun t ht => nomatch ht
  rw [hfed]
  show asmFinish o.gapCheck _ = _
  by_cases hnil : data = []
  · have hnone : cs = [] := List.eq_nil_iff_forall_not_mem.mpr fun c hc => by
      obtain ⟨k, hk, -⟩ := (hcs c).mp hc
      have hbytes := (lt_jobFrames_iff hm _ _).mp (List.mem_range.mp hk)
      rw [hnil, List.length_nil] at hbytes
      exact Nat.not_lt_zero _ hbytes
    rw [hnone, if_pos hnil]
    rfl
  · have hne : List.range (jobFrames data.length m) ≠ [] := fun h => hnil <| by rw [← hwhole, h, List.flatMap_nil]
    have hgap : firstGap 0 ((List.range (jobFrames data.length m)).map (BitVec.ofNat 32)) = none := by
      rw [List.range_eq_range']
      exact firstGap_range' (by omega)
    rw [asmFinish_jobChunks hlen hbound List.pairwise_lt_range hne hcs fun _ => hgap, hwhole,
      if_neg (Nat.lt_irrefl _), List.take_length, if_neg hnil]

/-- Settles O57: the frames of the encode job, the chunks that their copies give, and the input assembled. -/
theorem byteStreamRoundTrip : Obligations.ByteStreamRoundTrip := by
  unfold Obligations.ByteStreamRoundTrip
  intro s data w h hb hg hframes
  obtain ⟨-, -, hm, -, -⟩ := geomValid_bounds hg
  obtain ⟨u, hencode, -⟩ := encodeJob_of_ok hb hg hframes (io := .reliable) rfl fun _ _ => ⟨rfl, rfl⟩
  refine ⟨_, u, hencode, fun v rs o hbv hcfg hrs => ?_⟩
  rw [List.map_map] at hrs
  have hlength : ∀ f ∈ (List.range (jobFrames data.length (maxPayload w.toNat h.toNat))).map
      ((·.ink) ∘ jobFrame s.cfg.magic.toList data w.toNat h.toNat), f.length = w.toNat * h.toNat := fun f hf => by
    obtain ⟨k, -, rfl⟩ := List.mem_map.mp hf
    exact length_mapBits _ _ _
  rw [decodeJob_eq hbv (hcfg ▸ hg) o fun r hr => length_samples_of_tolerableChannel hrs hlength hr, hcfg,
    assemble_jobChunks o hm (length_lt_of_jobFrames_le hg hframes) hframes (mem_chunks_of_tolerableChannel hg hrs)]

end Sys2Proof.Machine
end

section
/-! PROOFS. The host contract, the encode jobs (spec/45_host_job_contract.md R218, R219): how the job of R218 fails,
what it takes to succeed, and the frames one by one. -/

namespace Sys2Proof.Machine

/-! Failures of the host's own (R218). -/

/-- After a failure of its own the host's CLR leaves no job, and a second CLR changes nothing (R200). -/
theorem exec_clr_abandon {s : State} (hb : statusBusy s.status = false) :
    exec .clr (abandon s) = .next (abandon s) ∧ statusJob (abandon s).status = false := by
  rw [abandon_of_idle hb (exec_clr _)]
  exact ⟨(exec_clr _).trans (congrArg _ (cleared_cleared _)), show statusJob 0#32 = false by decide⟩

section
variable {io : Collaborators} {s : State} {data : List Byte} {w h : BitVec 16}

/-- A missing input fails the job before any other access. -/
theorem encodeJob_of_missing (hfound : io.inputFound = false) :
    encodeJob io data w h s = (.error .pathError, abandon s) := by
  simp [encodeJob, hfound]

/-- A length that TOTAL cannot hold fails the job. -/
theorem encodeJob_of_long (hfound : io.inputFound = true) (hlen : ¬ data.length < 2 ^ 64) :
    encodeJob io data w h s = (.error (.refused .valueTooWide), (runAccesses (geom w h) s).1) := by
  rw [encodeJob, if_pos hfound, if_neg hlen]

/-- Accesses that begin a job and fail it. -/
theorem encodeJob_of_issue_error (hfound : io.inputFound = true) (hlen : data.length < 2 ^ 64) {t : State}
    {e : EncodeError}
    (ht : issue (geom w h ++ [wr .total (BitVec.ofNat 64 data.length), cmd .encb]) s = (t, some e)) :
    encodeJob io data w h s = (.error e, t) := by
  rw [encodeJob, if_pos hfound, if_pos hlen, ht]

/-- A busy block refuses the first of them (R280). -/
theorem encodeJob_of_busy (hfound : io.inputFound = true) (hlen : data.length < 2 ^ 64)
    (hb : statusBusy s.status = true) :
    encodeJob io data w h s = (.error (.refused .busyAccess), s) := by
  refine encodeJob_of_issue_error hfound hlen ?_
  have hstep : step { s with script := [wr .width w] } = .refused .busyAccess := step_of_busy rfl hb rfl
  simp only [issue, geom, List.cons_append, runAccesses, hstep]

/-- An ENCB that ends in an error fails the job with it. -/
theorem encodeJob_of_encb_error (hb : statusBusy s.status = false) (hfound : io.inputFound = true)
    (hlen : data.length < 2 ^ 64) {t : State} {e : ErrCode}
    (ht : exec .encb { s with width := w, height := h, total := BitVec.ofNat 64 data.length, script := [] } = .next t)
    (herr : statusErr t.status = errNumber e) (he : e ≠ .ok) :
    encodeJob io data w h s = (.error (.command (errNumber e)), t) := by
  have hne : statusErr t.status ≠ 0#4 := fun hzero => he (errNumber_eq_zero.mp (herr.symm.trans hzero))
  have hissue := issue_of_error (runAccesses_begin hb ht) hne
  rw [herr] at hissue
  exact encodeJob_of_issue_error hfound hlen hissue

/-- An invalid geometry fails the job with ENCB's InvalidGeometry (R203). -/
theorem encodeJob_of_invalid (hb : statusBusy s.status = false) (hfound : io.inputFound = true)
    (hlen : data.length < 2 ^ 64) (hg : geomValid s.cfg w.toNat h.toNat = false) :
    ∃ u, encodeJob io data w h s = (.error (.command (errNumber .invalidGeometry)), u) := by
  obtain ⟨-, ⟨t, ht, hraised⟩, -⟩ := invalidGeometryIsReported
    { s with width := w, height := h, total := BitVec.ofNat 64 data.length, script := [] } hg
  exact ⟨t, encodeJob_of_encb_error hb hfound hlen ht hraised.status.err (by decide)⟩

/-- More frames than the sequence counter holds fail the job with ENCB's SequenceOverflow (R142). -/
theorem encodeJob_of_overflow (hb : statusBusy s.status = false) (hfound : io.inputFound = true)
    (hlen : data.length < 2 ^ 64) (hg : geomValid s.cfg w.toNat h.toNat = true)
    (hframes : 2 ^ 32 < jobFrames data.length (maxPayload w.toNat h.toNat)) :
    ∃ u, encodeJob io data w h s = (.error (.command (errNumber .sequenceOverflow)), u) := by
  rw [← toNat_ofNat_64 hlen] at hframes
  obtain ⟨t, ht, hraised⟩ := encbRefusesOverflow
    { s with width := w, height := h, total := BitVec.ofNat 64 data.length, script := [] } hg hframes
  exact ⟨t, encodeJob_of_encb_error hb hfound hlen ht hraised.status.err (by decide)⟩

/-! The first frame that fails (R218). -/

/-- The round of the loop of R218 for frame `k`, in state `s`: the bytes that are left, ENCN, and the raster. -/
def encodeRound (io : Collaborators) (data : List Byte) (w h : BitVec 16) (k : Nat) (s : State) :
    Except EncodeError EncodedFrame × State :=
  encodeOne io s.jSeq
    (writeCells .ibuf 0 ((data.drop (k * maxPayload w.toNat h.toNat)).take (jnextValue s)) ++ [cmd .encn])
    (w.toNat * h.toNat) (fun t => t.jSeq - 1#32) s

/-- The loop reaches frame `k` when the `n` frames before it succeed, and an error there is the error of the loop. -/
theorem encodeLoop_reaches {c : Config.Params} (hg : geomValid c w.toNat h.toNat = true) {k : Nat}
    (hk : k < jobFrames data.length (maxPayload w.toNat h.toNat)) (n fuel j : Nat) (hfuel : n < fuel)
    (hj : j + n = k)
    (hio : ∀ i, i < k → io.readable (BitVec.ofNat 32 i) = true ∧ io.writable (BitVec.ofNat 32 i) = true)
    (hs : JobAt c data w h j s) :
    ∃ t, JobAt c data w h k t ∧ ∀ e u, encodeRound io data w h k t = (.error e, u) →
      encodeLoop fuel io (data.drop (j * maxPayload w.toNat h.toNat)) w h s = (.error e, u) := by
  obtain ⟨-, -, hm, -, -⟩ := geomValid_bounds hg
  induction n generalizing fuel j s with
  | zero =>
    obtain ⟨fuel, rfl⟩ : ∃ f, fuel = f + 1 := ⟨fuel - 1, by omega⟩
    obtain rfl : j = k := hj
    refine ⟨s, hs, fun e u herror => ?_⟩
    rw [encodeRound] at herror
    rw [encodeLoop, if_pos ((hs.job_iff hm).mpr hk)]
    simp only [herror]
  | succ n ih =>
    obtain ⟨fuel, rfl⟩ : ∃ f, fuel = f + 1 := ⟨fuel - 1, by omega⟩
    have hlt : j < jobFrames data.length (maxPayload w.toNat h.toNat) := by omega
    obtain ⟨hread, hwrite⟩ := hio j (by omega)
    obtain ⟨t, ht, hone⟩ := hs.encodeOne_frame hg hlt
    obtain ⟨v, hv, herrors⟩ := ih fuel (j + 1) (by omega) (by omega) ht
    refine ⟨v, hv, fun e u herror => ?_⟩
    rw [encodeLoop, if_pos ((hs.job_iff hm).mpr hlt)]
    simp only [hone io hread, hwrite, if_true, hs.drop_jnextValue, herrors e u herror]

/-- The job reaches frame `k` when ENCB accepts it and the frames before succeed, and an error there is the error of
the job: no frame is kept. -/
theorem encodeJob_reaches (hb : statusBusy s.status = false) (hfound : io.inputFound = true)
    (hg : geomValid s.cfg w.toNat h.toNat = true)
    (hframes : jobFrames data.length (maxPayload w.toNat h.toNat) ≤ 2 ^ 32) {k : Nat}
    (hk : k < jobFrames data.length (maxPayload w.toNat h.toNat))
    (hio : ∀ i, i < k → io.readable (BitVec.ofNat 32 i) = true ∧ io.writable (BitVec.ofNat 32 i) = true) :
    ∃ t, JobAt s.cfg data w h k t ∧ ∀ e u, encodeRound io data w h k t = (.error e, u) →
      encodeJob io data w h s = (.error e, u) := by
  obtain ⟨-, -, hm, -, -⟩ := geomValid_bounds hg
  have hfuel : k < data.length :=
    hk.trans_le ((jobFrames_le_iff hm _ _).mpr (Nat.le_mul_of_pos_right _ hm))
  obtain ⟨r, hbegin, hr⟩ := issue_begin hb hg hframes
  obtain ⟨t, ht, herrors⟩ := encodeLoop_reaches hg hk k data.length 0 hfuel (Nat.zero_add k) hio hr
  refine ⟨t, ht, fun e u herror => ?_⟩
  have hloop := herrors e u herror
  rw [Nat.zero_mul, List.drop_zero] at hloop
  simp only [encodeJob, hfound, if_true, length_lt_of_jobFrames_le hg hframes, hbegin, hloop]

end

/-- Settles O39: one failure after another, in the order in which the host meets them. -/
theorem encodeJobFailures : Obligations.EncodeJobFailures := by
  unfold Obligations.EncodeJobFailures
  refine fun io s data w h hb => ⟨fun hmissing => ?_, fun hfound hlen => ⟨encodeJob_of_invalid hb hfound hlen,
    encodeJob_of_overflow hb hfound hlen, fun hg hframes k hk hio => ?_⟩⟩
  · refine ⟨_, encodeJob_of_missing hmissing, ?_⟩
    rw [abandon_of_idle hb (exec_clr _), exec_clr]
  · obtain ⟨t, ht, herrors⟩ := encodeJob_reaches hb hfound hg hframes hk hio
    refine ⟨fun hread => ⟨abandon t, herrors _ _ ?_, exec_clr_abandon ht.idle⟩, fun hread hwrite => ?_⟩
    · exact encodeOne_of_unreadable _ _ _ t (by rwa [ht.seq])
    · obtain ⟨u, hu, hone⟩ := ht.encodeOne_frame hg hk
      refine ⟨abandon u, herrors _ _ ?_, exec_clr_abandon hu.idle⟩
      rw [encodeRound, hone io hread, hwrite]
      rfl

/-! Both ways to encode (R219). -/

/-- A job yields frames only on an idle block, at a valid geometry, when the sequence counter holds their numbers. -/
theorem encodeJob_ok {io : Collaborators} {s u : State} {data : List Byte} {w h : BitVec 16}
    {frames : List EncodedFrame} (hfound : io.inputFound = true) (hok : encodeJob io data w h s = (.ok frames, u)) :
    statusBusy s.status = false ∧ geomValid s.cfg w.toNat h.toNat = true ∧
      jobFrames data.length (maxPayload w.toNat h.toNat) ≤ 2 ^ 32 := by
  have hfails {e : EncodeError} {t : State} (h : encodeJob io data w h s = (.error e, t)) : False :=
    nomatch (congrArg Prod.fst (hok.symm.trans h) :)
  have hlen : data.length < 2 ^ 64 := by_contra fun hlong => hfails (encodeJob_of_long hfound hlong)
  have hb : statusBusy s.status = false := Bool.eq_false_iff.mpr fun hbusy =>
    hfails (encodeJob_of_busy hfound hlen hbusy)
  have hg : geomValid s.cfg w.toNat h.toNat = true := by_contra fun hinvalid =>
    (encodeJob_of_invalid hb hfound hlen (Bool.eq_false_iff.mpr hinvalid)).elim fun _ => hfails
  refine ⟨hb, hg, Nat.not_lt.mp fun hover => ?_⟩
  exact (encodeJob_of_overflow hb hfound hlen hg hover).elim fun _ => hfails

/-- The frames `ks` one by one, when the bytes of each can be read and its raster written: those of the job. -/
theorem directLoop_of_ok {io : Collaborators} {s : State} {data : List Byte} {w h : BitVec 16} {ks : List Nat}
    (hb : statusBusy s.status = false) (hg : geomValid s.cfg w.toNat h.toNat = true) (hlen : data.length < 2 ^ 64)
    (hks : ∀ k ∈ ks, k < 2 ^ 32 ∧ io.readable (BitVec.ofNat 32 k) = true ∧ io.writable (BitVec.ofNat 32 k) = true) :
    ∃ t, directLoop io data w h ks s =
      (.ok (ks.map (jobFrame s.cfg.magic.toList data w.toNat h.toNat)), t) := by
  induction ks generalizing s with
  | nil => exact ⟨s, rfl⟩
  | cons k rest ih =>
    obtain ⟨⟨hk, hread, hwrite⟩, hrest⟩ := List.forall_mem_cons.mp hks
    obtain ⟨t, hframe, hidle, hcfg⟩ := directFrame_of_ok hb hg hk hlen hread hwrite
    obtain ⟨u, hloop⟩ := ih hidle (hcfg ▸ hg) hrest
    rw [hcfg] at hloop
    refine ⟨u, ?_⟩
    simp only [directLoop, hframe, hloop, List.map_cons]

/-- Settles O40: both ways yield the frames of R140. -/
theorem bothEncodersAgree : Obligations.BothEncodersAgree := by
  unfold Obligations.BothEncodersAgree
  intro s r u data w h frames ks hok hbr hcfg hks
  obtain ⟨hb, hg, hframes⟩ := encodeJob_ok rfl hok
  obtain ⟨v, hjob, -⟩ := encodeJob_of_ok hb hg hframes (io := .reliable) rfl fun _ _ => ⟨rfl, rfl⟩
  obtain rfl : frames = _ := Except.ok.inj (congrArg Prod.fst (hok.symm.trans hjob))
  simp only [List.length_map, List.length_range] at hks
  obtain ⟨t, hdirect⟩ := directLoop_of_ok (io := .reliable) hbr (hcfg ▸ hg) (length_lt_of_jobFrames_le hg hframes)
    fun k hk => ⟨(hks k hk).trans_le hframes, rfl, rfl⟩
  refine ⟨_, t, hdirect, ?_⟩
  rw [List.map_map, hcfg]
  refine List.map_congr_left fun k hk => ?_
  rw [List.getElem?_map, List.getElem?_range (hks k hk)]
  rfl

end Sys2Proof.Machine
end

section
/-! PROOFS. Exceptions, errors are precise (spec/60_exceptions.md R247, R248): a command succeeds, or its error is all
that the host sees of it. First every command but DECF, then DECF by its recorded result. -/

namespace Sys2Proof.Machine

/-! What an error leaves, as the host sees it (R247). -/

namespace Raised
variable {t s : State} {e : ErrCode} {short dvalid : Bool} {a b : Nat}

/-- When an error is all that changed, it is all that the host sees change. -/
theorem toVisible (h : Raised t s e short dvalid a b) : Raised t.visible s.visible e short dvalid a b :=
  ⟨h.status, h.infoA, h.infoB, congrArg State.visible h.rest⟩

/-- SHORT and the context of an error are what SHORT, EINFO_A and EINFO_B hold after it. -/
theorem recorded (h : Raised t.visible s.visible e short dvalid a b) :
    Raised t.visible s.visible e (statusShort t.status) dvalid t.einfoA.toNat t.einfoB.toNat := by
  obtain rfl := h.status.short
  obtain rfl := h.infoA
  obtain rfl := h.infoB
  exact h

end Raised

/-! Every command but DECF (R247, R248). -/

/-- An outcome that is a success, or an error that is all that changed, with SHORT clear and DVALID as it was. -/
def OkOrRaised (s : State) (o : Host.Outcome State Fault Refusal) : Prop :=
  ∃ t, o = .next t ∧
    (statusErr t.status = errNumber .ok ∨ ∃ e a b, Raised t s e false (statusDvalid s.status) a b)

section
variable {s : State} {o : Host.Outcome State Fault Refusal}

theorem okOrRaised_of_ok {t : State} (ho : o = .next t) (hok : statusErr t.status = errNumber .ok) :
    OkOrRaised s o := ⟨t, ho, .inl hok⟩

theorem okOrRaised_of_raised {e : ErrCode} {a b : Nat}
    (h : ∃ t, o = .next t ∧ Raised t s e false (statusDvalid s.status) a b) : OkOrRaised s o := by
  obtain ⟨t, ho, hraised⟩ := h
  exact ⟨t, ho, .inr ⟨e, a, b, hraised⟩⟩

end

section
variable (s : State)

/-- The length check that HCK and CRC share: OK with LEN in range, else LengthOutOfRange (R118, R120, R204). -/
theorem withInput_okOrRaised {k : List Byte → State} (hk : ∀ bytes, (k bytes).status = (prologue s).status) :
    OkOrRaised s (.next (withInput (prologue s) k)) := by
  rcases le_or_gt s.len.toNat (bufBytes s.cfg) with hfits | hexceeds
  · refine okOrRaised_of_ok (congrArg _ (withInput_of_fits (s := prologue s) k hfits)) ?_
    rw [hk]
    exact (statusIs_prologue s).err
  · exact okOrRaised_of_raised ⟨_, rfl, raised_withInput k hexceeds⟩

/-- ENCF: OK on a frame that fits, else one of its two errors (R138). -/
theorem exec_encf_okOrRaised : OkOrRaised s (exec .encf s) := by
  cases hg : geomValid s.cfg s.width.toNat s.height.toNat with
  | false => exact okOrRaised_of_raised ⟨_, rfl, raised_withGeometry _ hg⟩
  | true =>
    rcases le_or_gt s.len.toNat (maxPayload s.width.toNat s.height.toNat) with hfits | hexceeds
    · exact okOrRaised_of_ok (exec_encf_of_fits hg hfits) (statusIs_prologue s).err
    · exact okOrRaised_of_raised (encfRefusesLongPayload s hg hexceeds)

/-- ENCB: OK on a job that fits the sequence counter, else one of its two errors (R142). -/
theorem exec_encb_okOrRaised : OkOrRaised s (exec .encb s) := by
  cases hg : geomValid s.cfg s.width.toNat s.height.toNat with
  | false => exact okOrRaised_of_raised ⟨_, rfl, raised_withGeometry _ hg⟩
  | true =>
    rcases le_or_gt (jobFrames s.total.toNat (maxPayload s.width.toNat s.height.toNat)) (2 ^ 32)
      with hfits | hexceeds
    · exact okOrRaised_of_ok (exec_encb_of_fits hg hfits) (statusIs_jobBegun s).err
    · exact okOrRaised_of_raised (encbRefusesOverflow s hg hexceeds)

/-- ENCN: OK with an active job, else NoActiveJob (R144, R145). -/
theorem exec_encn_okOrRaised : OkOrRaised s (exec .encn s) := by
  cases hjob : statusJob s.status with
  | false => exact okOrRaised_of_raised (encnNeedsActiveJob s hjob)
  | true => exact okOrRaised_of_ok (exec_encn_of_job hjob) (statusIs_jobAdvanced s).err

/-- CLR cannot fail (R200). -/
theorem exec_clr_okOrRaised : OkOrRaised s (exec .clr s) :=
  okOrRaised_of_ok (exec_clr s) (show statusErr 0#32 = errNumber .ok by decide)

/-- The illegal command: IllegalCommand (R202). -/
theorem execIllegal_okOrRaised (c : Word) : OkOrRaised s (execIllegal c s) :=
  okOrRaised_of_raised
    ⟨_, rfl, raised_raise .illegalCommand (c.isLt.trans (by decide)) (by decide) s⟩

theorem exec_okOrRaised {i : Instr} (hi : i ≠ .decf) : OkOrRaised s (exec i s) := by
  cases i with
  | hck | crc => exact withInput_okOrRaised s fun _ => rfl
  | encf => exact exec_encf_okOrRaised s
  | encb => exact exec_encb_okOrRaised s
  | encn => exact exec_encn_okOrRaised s
  | decf => exact absurd rfl hi
  | clr => exact exec_clr_okOrRaised s

/-- A command word that does not select DECF, the illegal ones included (R86). -/
theorem runCommand_okOrRaised {c : Word} (hc : decode c ≠ .ok .decf) : OkOrRaised s (runCommand c s) :=
  runCommand_induction (fun _ hi => exec_okOrRaised s fun hdecf => hc (hdecf ▸ hi)) fun _ _ =>
    execIllegal_okOrRaised s c

end

/-! DECF (R177, R181). -/

/-- Of DECF's errors only HeaderChecksumMismatch comes with SHORT (R177). -/
theorem decfResult_short {s : State} {e : ErrCode} {a b : Nat} (hr : decfResult s = .fail e true a b) :
    e = .headerChecksumMismatch := by
  unfold decfResult at hr
  split at hr
  · split at hr
    · have hlen : (bytesOf (drastPrefix s (s.width.toNat * s.height.toNat))).length < 2 ^ 64 := by
        rw [length_bytesOf, length_drastPrefix]
        exact (geometry_context_lt s.width s.height).2
      obtain ⟨-, hshort, -, -⟩ := decodeBytes_fail hlen hr
      exact hshort rfl
    · cases hr
  · cases hr

/-- A DECF that ends in an error recorded a failure. -/
theorem decfResult_of_error {s t : State} (ht : exec .decf s = .next t) (herr : statusErr t.status ≠ errNumber .ok) :
    ∃ e short a b, decfResult s = .fail e short a b := by
  cases hr : decfResult s with
  | fail e short a b => exact ⟨e, short, a, b, rfl⟩
  | chunk payload q total size skip => exact absurd (decoded_of_decf_chunk ht hr).status.err herr

/-- Settles O19: DECF leaves its recorded failure, and every other command word a success or its error. -/
theorem errorsChangeNothingElse : Obligations.ErrorsChangeNothingElse := by
  unfold Obligations.ErrorsChangeNothingElse
  intro c s t ht herr
  by_cases hc : decode c = .ok .decf
  · have hdecf : exec .decf s = .next t := by rwa [runCommand, hc] at ht
    obtain ⟨e, short, a, b, hr⟩ := decfResult_of_error hdecf herr
    have hraised := raised_of_decf_fail hdecf hr
    refine ⟨e, ?_, fun hshort => ⟨hc, ?_⟩⟩
    · rw [if_pos hc]
      exact hraised.recorded
    · obtain rfl : short = true := hraised.status.short.symm.trans hshort
      exact decfResult_short hr
  · obtain ⟨u, hu, hcases⟩ := runCommand_okOrRaised s hc
    obtain rfl := Host.Outcome.next.inj (ht.symm.trans hu)
    obtain hok | ⟨e, a, b, hraised⟩ := hcases
    · exact absurd hok herr
    · refine ⟨e, ?_, fun hshort => ?_⟩
      · rw [if_neg hc]
        exact hraised.toVisible.recorded
      · exact absurd (hraised.status.short.symm.trans hshort) Bool.false_ne_true

end Sys2Proof.Machine
end

section
/-! PROOFS. Reset (spec/70_reset_and_hazards.md R270, R271) and the host's checks of what it decodes (R286). -/

namespace Sys2Proof.Machine

/-! The reset input (R270 to R273). -/

/-- Reset is a whole step in every state: it has no operand to be malformed, and BUSY does not hold it off (R273). -/
theorem step_reset {s : State} {rest : List Access} (hs : s.script = .reset :: rest) :
    step s = .next (hardReset { s with script := rest }) := by
  rw [step, nextEvent_of_wf hs (.inr rfl) rfl, plainAccess]

/-- Only MAXPAY depends on a parameter: on whether MAX_PIXELS holds the geometry of reset (R275). -/
theorem readRegister_hardReset (r : Reg) (s : State) :
    (readRegister r (hardReset s)).toNat = resetValue s.cfg r := by
  cases r
  case maxpay => exact Nat.mod_eq_of_lt (maxpayValue_lt (hardReset s))
  case jNext =>
    have hzero : jnextValue (hardReset s) = 0 := if_neg (show ¬ statusJob 0#32 = true by decide)
    exact congrArg (fun n => (BitVec.ofNat 64 n).toNat) hzero
  all_goals rfl

/-- Settles O13: reset lists no cell, so each reads as its value in the next draw. -/
theorem hardwareReset : Obligations.HardwareReset := by
  unfold Obligations.HardwareReset
  exact fun s rest hs => ⟨_, step_reset hs, fun r => readRegister_hardReset r { s with script := rest },
    fun a => ⟨rfl, rfl, rfl, rfl⟩, rfl, rfl⟩

/-! One feed (R222), whatever came before. -/

theorem mem_seen_asmFeed {a : Assembler} {c : Chunk} {q : Word} :
    q ∈ (asmFeed a c).seen ↔ q = c.sequence ∨ q ∈ a.seen := by
  by_cases hseen : c.sequence ∈ a.seen
  · rw [asmFeed_of_seen hseen]
    exact ⟨.inr, fun h => h.elim (fun heq => heq ▸ hseen) id⟩
  · rw [asmFeed_of_new hseen]
    exact mem_insertSeen

/-- The totalSize of the first chunk is the one recorded, where no sequence is seen without one. -/
theorem totalSize_asmFeed_eq {a : Assembler} (hrecorded : a.totalSize = none → a.seen = []) (c : Chunk) :
    (asmFeed a c).totalSize = some (a.totalSize.getD c.totalSize) := by
  by_cases hseen : c.sequence ∈ a.seen
  · rw [asmFeed_of_seen hseen]
    cases ht : a.totalSize with
    | none => exact absurd (hrecorded ht) (List.ne_nil_of_mem hseen)
    | some t => rfl
  · rw [asmFeed_of_new hseen]

/-! Any number of feeds behind the checks (R286). -/

/-- The sequence check, where the host makes it, does not drop `c`. -/
def Admitted (o : HostOptions) (m : Nat) (c : Chunk) : Prop :=
  o.sequenceCheck = true → plausibleSequence m c = true

theorem admitted_iff {o : HostOptions} {m : Nat} {c : Chunk} :
    Admitted o m c ↔ (o.sequenceCheck = true → c.sequence.toNat < (c.totalSize.toNat + m - 1) / m) := by
  rw [Admitted, plausibleSequence, decide_eq_true_iff, jobFrames]

/-- What the checks keep true of an assembler `a` fed the chunks `cs`: no sequence without a recorded totalSize,
none that only dropped chunks carried, and with the comparison one totalSize in every chunk not dropped. -/
structure Assembler.Vetted (o : HostOptions) (m : Nat) (cs : List Chunk) (a : Assembler) : Prop where
  recorded : a.totalSize = none → a.seen = []
  seen : ∀ q ∈ a.seen, ∃ c ∈ cs, c.sequence = q ∧ Admitted o m c
  total : o.totalCheck = true → ∀ c ∈ cs, Admitted o m c → a.totalSize = some c.totalSize

section
variable {o : HostOptions} {m : Nat} {cs : List Chunk} {c : Chunk} {a b : Assembler}

theorem Assembler.vetted_empty : Assembler.empty.Vetted o m [] :=
  ⟨fun _ => rfl, fun _ hq => (nomatch hq), fun _ _ hc => (nomatch hc)⟩

/-- A dropped chunk leaves the assembler as it is. -/
theorem Assembler.Vetted.drop (ha : a.Vetted o m cs) (hc : ¬ Admitted o m c) : a.Vetted o m (cs ++ [c]) where
  recorded := ha.recorded
  seen q hq := by
    obtain ⟨d, hd, hcarried⟩ := ha.seen q hq
    exact ⟨d, List.mem_append_left [c] hd, hcarried⟩
  total ht d hd hadmitted := by
    obtain hd | rfl := List.mem_append.mp hd |>.imp_right List.mem_singleton.mp
    · exact ha.total ht d hd hadmitted
    · exact absurd hadmitted hc

/-- A chunk that passes the checks is fed, and has the totalSize recorded before or is the first to record one. -/
theorem Assembler.Vetted.asmFeed (ha : a.Vetted o m cs) (hc : Admitted o m c)
    (hagrees : o.totalCheck = true → ∀ t, a.totalSize = some t → t = c.totalSize) :
    (asmFeed a c).Vetted o m (cs ++ [c]) where
  recorded hnone := by
    rw [totalSize_asmFeed_eq ha.recorded] at hnone
    cases hnone
  seen q hq := by
    obtain rfl | hq := mem_seen_asmFeed.mp hq
    · exact ⟨c, List.mem_append_right cs List.mem_cons_self, rfl, hc⟩
    · obtain ⟨d, hd, hcarried⟩ := ha.seen q hq
      exact ⟨d, List.mem_append_left [c] hd, hcarried⟩
  total ht d hd hadmitted := by
    rw [totalSize_asmFeed_eq ha.recorded]
    obtain hd | rfl := List.mem_append.mp hd |>.imp_right List.mem_singleton.mp
    · rw [ha.total ht d hd hadmitted, Option.getD_some]
    · cases hrec : a.totalSize with
      | none => rfl
      | some t => rw [Option.getD_some, hagrees ht t hrec]

/-- One feed behind the checks, whichever of the two it is. -/
theorem Assembler.Vetted.feedChecked (ha : a.Vetted o m cs) (hfeed : feedChecked o m a c = .ok b) :
    b.Vetted o m (cs ++ [c]) := by
  obtain ⟨hcheck, himplausible, rfl⟩ | ⟨hadmitted, hagrees, rfl⟩ := feedChecked_ok hfeed
  · exact ha.drop fun hadmitted => absurd (hadmitted hcheck) (by rw [himplausible]; decide)
  · exact ha.asmFeed hadmitted hagrees

end

/-- Feeds from the empty assembler that end without an error. -/
theorem vetted_foldlM_feedChecked {o : HostOptions} {m : Nat} {cs : List Chunk} {a : Assembler}
    (h : cs.foldlM (feedChecked o m) Assembler.empty = .ok a) : a.Vetted o m cs := by
  induction cs using List.reverseRecOn generalizing a with
  | nil =>
    obtain rfl := Except.ok.inj h
    exact Assembler.vetted_empty
  | append_singleton cs c ih =>
    rw [List.foldlM_append] at h
    cases hfed : cs.foldlM (feedChecked o m) Assembler.empty with
    | error e => rw [hfed] at h; cases h
    | ok b =>
      rw [hfed] at h
      have hlast : feedChecked o m b c = .ok a := by
        change [c].foldlM (feedChecked o m) b = .ok a at h
        rwa [List.foldlM_cons, funext fun _ => List.foldlM_nil, bind_pure] at h
      exact (ih hfed).feedChecked hlast

/-- With neither check on, the feeds are those of `asm_feed` and none fails. -/
theorem foldlM_feedChecked_of_unchecked {o : HostOptions} (hs : o.sequenceCheck = false) (ht : o.totalCheck = false)
    (m : Nat) (cs : List Chunk) (a : Assembler) :
    cs.foldlM (feedChecked o m) a = .ok (cs.foldl asmFeed a) := by
  have hfeed : feedChecked o m = fun a c => pure (asmFeed a c) :=
    funext fun a => funext fun c => feedChecked_of_unchecked m a c hs ht
  rw [hfeed]
  exact List.foldlM_pure

/-- Settles O58: what every feed keeps, read off for the sequences and for the totalSize. -/
theorem hostChecksExclude : Obligations.HostChecksExclude := by
  unfold Obligations.HostChecksExclude
  refine fun o m cs => ⟨fun hs ht => foldlM_feedChecked_of_unchecked hs ht m cs _, fun a hfed => ?_⟩
  have hvetted := vetted_foldlM_feedChecked hfed
  refine ⟨fun hcheck q hq => ?_, fun hcheck c hc hplausible => ?_⟩
  · obtain ⟨c, hc, rfl, hadmitted⟩ := hvetted.seen q hq
    exact ⟨c, hc, rfl, admitted_iff.mp hadmitted hcheck⟩
  · exact hvetted.total hcheck c hc (admitted_iff.mpr hplausible)

end Sys2Proof.Machine
end
